-- ==== Sys2Proof/Word.lean ====
section
/-! DEFINITION. The word types of FIRCORE: the 32-bit host word (R7), the byte (R63) and the bit pattern of
one `NUMFMT` value (R40). -/

namespace Sys2Proof

/-- A host register, a command word, a host address: 32 bits (R7, R60). -/
abbrev Word := BitVec 32

/-- One byte of the host port space (R63). -/
abbrev Byte := BitVec 8

/-- The bit pattern of one `NUMFMT` value (R40): a binary64 pattern, or a binary32 pattern in the low 32 bits
with zeros above (log 20). -/
abbrev Val := BitVec 64

end Sys2Proof
end

