-- ==== Sys2Proof/Config.lean ====
section
/-! DEFINITION. What an implementation of FIRCORE fixes: the parameters of R6. The plain-data parameters are a
structure; the functions `SIN_F` and `XCONV` and the free values are opaque constants, about which nothing can be
proved beyond what the model's own definitions build on them. -/

namespace Sys2Proof

/-- `NUMFMT` (R6): the format of every sample, tap, window value and cutoff. -/
inductive Fmt where
  | binary32
  | binary64
deriving DecidableEq, Repr

/-- `EW` (R6): the element width in bytes. -/
def Fmt.ew : Fmt → Nat
  | .binary32 => 4
  | .binary64 => 8

/-- The parameters of R6 that are plain data. A state carries them (log 1), so that every statement about every
state is a statement about every implementation. -/
structure Params where
  /-- `NUMFMT`. -/
  fmt : Fmt
  /-- `NCTX_DIR`. -/
  nctxDir : Nat
  /-- `NCTX_OLA`. -/
  nctxOla : Nat
  /-- `MAX_TAPS`. -/
  maxTaps : Nat
  /-- `MAX_BLOCK`. -/
  maxBlock : Nat
  /-- `DMEM_WORDS`. -/
  dmemWords : Nat
deriving DecidableEq, Repr

/-- The parameters `State.reset` is written with. DESIGN CHOICE (log 1): R6 leaves every one of them open. UNSAFE
for a statement about `State.reset` alone; a statement about `State.resetWith p` for every legal `p` does not rest
on them. -/
def Config.resetParams : Params :=
  { fmt := .binary64, nctxDir := 16, nctxOla := 16, maxTaps := 1024, maxBlock := 4096, dmemWords := 65536 }

/-- The values behind `SIN_F` (R6, D5): unconstrained here; `sinF` makes the function odd (log 2). -/
opaque Config.sinRaw : Fmt → Val → Val

/-- The values behind `XCONV` (R6, R184, D20), by format, padded taps, padded chunk and output index:
unconstrained here; `xconvAt` holds them to the tolerance of R190 (log 3). -/
opaque Config.xconvRaw : Fmt → List Val → List Val → Nat → Val

/-- FREE VALUE (log 4): the sign and payload of the NaN a command's operation produces (R9, D3, U6), by the state's
draw counter, the sample or tap the operation belongs to and the operation's number in it. -/
opaque Config.nanDraw : Nat → Nat → Nat → Val

/-- FREE VALUE (log 5): what a host read of a DMEM word returns while `BUSY` = 1 (R70, U8), by the state's draw
counter. -/
opaque Config.busDraw : Nat → Word

end Sys2Proof
end

