-- ==== Sys2Proof/Syntax.lean ====
section
/-! DEFINITION. The commands of FIRCORE (R95): one constructor per row of the opcode table, with the fields of the
command word that the row leaves free. -/

namespace Sys2Proof

/-- A command (R95). `norm` is the `NORM` flag of a design command (R93); `ctx` is the 4-bit unsigned context index
`CTX` (R92). Every other operand is read from the argument registers (R96). -/
inductive Instr where
  /-- `NOP` (R210). -/
  | nop
  /-- `DSGN_LP` (R134). -/
  | dsgnLp (norm : Bool)
  /-- `DSGN_HP` (R135). -/
  | dsgnHp (norm : Bool)
  /-- `DSGN_BP` (R136). -/
  | dsgnBp (norm : Bool)
  /-- `DSGN_BS` (R137). -/
  | dsgnBs (norm : Bool)
  /-- `DIR_INIT` (R161). -/
  | dirInit (ctx : BitVec 4)
  /-- `DIR_APPLY` (R165). -/
  | dirApply (ctx : BitVec 4)
  /-- `DIR_REL` (R166). -/
  | dirRel (ctx : BitVec 4)
  /-- `OLA_INIT` (R182). -/
  | olaInit (ctx : BitVec 4)
  /-- `OLA_APPLY` (R188). -/
  | olaApply (ctx : BitVec 4)
  /-- `OLA_REL` (R189). -/
  | olaRel (ctx : BitVec 4)
deriving DecidableEq, Repr

end Sys2Proof
end

