-- ==== Sys2Proof/WellFormed.lean ====
section
/-! DEFINITION. The checks on what a command and an instance's parameters may be: the context check of R99 and
the legal values of R6. -/

namespace Sys2Proof

/-- R99: a direct command names a context below `NCTX_DIR`, an overlap-add command one below `NCTX_OLA`. The
fields' widths make every other check of a command hold by its type (R90, R92, R93). -/
def Instr.wellFormed (p : Params) : Instr → Bool
  | .nop => true
  | .dsgnLp _ => true
  | .dsgnHp _ => true
  | .dsgnBp _ => true
  | .dsgnBs _ => true
  | .dirInit ctx => decide (ctx.toNat < p.nctxDir)
  | .dirApply ctx => decide (ctx.toNat < p.nctxDir)
  | .dirRel ctx => decide (ctx.toNat < p.nctxDir)
  | .olaInit ctx => decide (ctx.toNat < p.nctxOla)
  | .olaApply ctx => decide (ctx.toNat < p.nctxOla)
  | .olaRel ctx => decide (ctx.toNat < p.nctxOla)

/-- `n` is a power of two (R6, R43). -/
def isPow2 (n : Nat) : Bool :=
  n == 2 ^ n.log2

/-- The legal values of R6. -/
def Params.legal (p : Params) : Bool :=
  decide (1 ≤ p.nctxDir) && decide (p.nctxDir ≤ 16) &&
  decide (1 ≤ p.nctxOla) && decide (p.nctxOla ≤ 16) &&
  decide (1 ≤ p.maxTaps) &&
  isPow2 p.maxBlock && decide (2 ≤ p.maxBlock) && decide (p.maxBlock ≤ 2 ^ 31) &&
  decide (1 ≤ p.dmemWords) && decide (0x10000 + p.dmemWords * p.fmt.ew ≤ 2 ^ 32)

end Sys2Proof
end

