-- ==== Sys2Proof/Decode.lean ====
section
/-! DEFINITION. The decoder of R102, total on every 32-bit word, and the encoder of R90 and R95. The context
check of R102 (`ctx >= NCTX_DIR`, R99) is a check on a value with the instance's parameters; each meaning makes it
first, and `decodeFor` is R102 with it. -/

namespace Sys2Proof

/-- `OP = word[7:0]` (R91). -/
def fieldOp (w : Word) : BitVec 8 := w.extractLsb' 0 8

/-- `CTX = word[11:8]` (R92). -/
def fieldCtx (w : Word) : BitVec 4 := w.extractLsb' 8 4

/-- `NORM = word[12]` (R93). -/
def fieldNorm (w : Word) : Bool := w.getLsbD 12

/-- `word[31:13]`, reserved (R94). -/
def fieldReserved (w : Word) : BitVec 19 := w.extractLsb' 13 19

/-- R102 on the fields of a word whose reserved bits are zero; `none` is ILLEGAL. -/
def decodeFields (op : BitVec 8) (ctx : BitVec 4) (norm : Bool) : Option Instr :=
  if op = 0x00 then if ctx = 0 ∧ norm = false then some .nop else none
  else if op = 0x01 then if ctx = 0 then some (.dsgnLp norm) else none
  else if op = 0x02 then if ctx = 0 then some (.dsgnHp norm) else none
  else if op = 0x03 then if ctx = 0 then some (.dsgnBp norm) else none
  else if op = 0x04 then if ctx = 0 then some (.dsgnBs norm) else none
  else if op = 0x10 then if norm = false then some (.dirInit ctx) else none
  else if op = 0x11 then if norm = false then some (.dirApply ctx) else none
  else if op = 0x12 then if norm = false then some (.dirRel ctx) else none
  else if op = 0x20 then if norm = false then some (.olaInit ctx) else none
  else if op = 0x21 then if norm = false then some (.olaApply ctx) else none
  else if op = 0x22 then if norm = false then some (.olaRel ctx) else none
  else none

/-- The static part of R102 (R98): the command a word stands for, `none` where the word is illegal whatever the
parameters are. -/
def decode (w : Word) : Option Instr :=
  if fieldReserved w = 0 then decodeFields (fieldOp w) (fieldCtx w) (fieldNorm w) else none

/-- R102 in full: with the context check of R99. -/
def decodeFor (p : Params) (w : Word) : Option Instr :=
  (decode w).filter (Instr.wellFormed p)

/-- The opcode of a command (R95). -/
def Instr.op : Instr → BitVec 8
  | .nop => 0x00
  | .dsgnLp _ => 0x01
  | .dsgnHp _ => 0x02
  | .dsgnBp _ => 0x03
  | .dsgnBs _ => 0x04
  | .dirInit _ => 0x10
  | .dirApply _ => 0x11
  | .dirRel _ => 0x12
  | .olaInit _ => 0x20
  | .olaApply _ => 0x21
  | .olaRel _ => 0x22

/-- The `CTX` field of a command: 0 where the command has no context (R92). -/
def Instr.ctxField : Instr → BitVec 4
  | .nop => 0
  | .dsgnLp _ => 0
  | .dsgnHp _ => 0
  | .dsgnBp _ => 0
  | .dsgnBs _ => 0
  | .dirInit ctx => ctx
  | .dirApply ctx => ctx
  | .dirRel ctx => ctx
  | .olaInit ctx => ctx
  | .olaApply ctx => ctx
  | .olaRel ctx => ctx

/-- The `NORM` field of a command: 0 for every command but a design (R93). -/
def Instr.normField : Instr → Bool
  | .nop => false
  | .dsgnLp norm => norm
  | .dsgnHp norm => norm
  | .dsgnBp norm => norm
  | .dsgnBs norm => norm
  | .dirInit _ => false
  | .dirApply _ => false
  | .dirRel _ => false
  | .olaInit _ => false
  | .olaApply _ => false
  | .olaRel _ => false

/-- The command word: reserved zeros, `NORM`, `CTX`, `OP` from the most significant bit down (R90). -/
def encode (i : Instr) : Word :=
  (0#19 ++ BitVec.ofBool i.normField ++ i.ctxField ++ i.op : BitVec (19 + 1 + 4 + 8))

/-- The four bytes of a word, the byte at the lowest address first (R63). -/
def bytesOfWord (w : Word) : List Byte :=
  [w.extractLsb' 0 8, w.extractLsb' 8 8, w.extractLsb' 16 8, w.extractLsb' 24 8]

/-- The word whose bytes these are, `b0` at the lowest address (R63). -/
def wordOfBytes (b0 b1 b2 b3 : Byte) : Word :=
  (b3 ++ b2 ++ b1 ++ b0 : BitVec (8 + 8 + 8 + 8))

/-- The command at the head of a byte string, and the bytes after it: every command is one 32-bit word (R101). -/
def decodeBytes : List Byte → Option (Instr × List Byte)
  | b0 :: b1 :: b2 :: b3 :: rest => (decode (wordOfBytes b0 b1 b2 b3)).map (·, rest)
  | _ => none

/-- The command word whose low `nbits` bits are those of `w`, every bit above them 0. -/
def tableWord (nbits w : Nat) : Word := BitVec.ofNat 32 (w % 2 ^ nbits)

/-- The command the decoder reads from an opcode-table row's bits. -/
def decodeTableWord (nbits w : Nat) : Option Instr :=
  (decodeBytes (bytesOfWord (tableWord nbits w))).map Prod.fst

end Sys2Proof
end

