-- ==== Sys2Proof/Machine/State.lean ====
section
/-! DEFINITION. The state of FIRCORE (R20) as plain data, the reasons a step can stop, and the state after reset
(R250). -/

namespace Sys2Proof.Machine

/-- The error codes of R221. The values 9 to 15 of `STATUS.ERR` are never produced (R26), so they are no value of
this type. -/
inductive ErrCode where
  | ok
  | illegalCmd
  | invalidSpec
  | lengthMismatch
  | emptyInput
  | numericDegeneracy
  | addressRange
  | capacity
  | notConfigured
deriving DecidableEq, Repr

/-- Direct context d (R41): `DV`, `DM`, `DT`, `DH`, `DC`. The element type is `Val` in the machine; the engine's
rules are written for any element type so that the exact-arithmetic reference (R160, R193) is the same text. -/
structure DirCtx (α : Type) where
  valid : Bool
  m : Nat
  taps : List α
  ring : List α
  cursor : Nat
deriving DecidableEq, Repr

/-- Overlap-add context o (R43): `OV`, `OM`, `OB`, `OL`, `OT`, `OI`, `OF`, `OTL`. -/
structure OlaCtx (α : Type) where
  valid : Bool
  m : Nat
  b : Nat
  l : Nat
  taps : List α
  inbuf : List α
  fill : Nat
  tail : List α
deriving DecidableEq, Repr

/-- One action of the environment (R214): a host read (R211), a host write (R212), a turn of the block (R213), a
reset (R250). `size` is the access's width in bits. `await` is the host's loop of reads of `STATUS` until one finds
`BUSY` = 0 (R106); `polls` is how many reads find it 1 before the block steps, which R214 leaves open (log 13). -/
inductive Action where
  | read (addr : Word) (size : Nat)
  | write (addr : Word) (size : Nat) (value : Word)
  | block
  | reset
  | await (polls : Nat)
deriving DecidableEq, Repr

/-- What the host port answers to an access (R211, R66): the data of a read (0 for a write), and whether the answer
is a bus error. -/
structure Response where
  data : Word
  error : Bool
deriving DecidableEq, Repr

/-- The data memory (R40) in the host port's byte addresses (R62): (address, byte) pairs, addresses strictly rising.
An unlisted address is a byte never written since reset and has no value (R80, log 6). -/
abbrev Memory := List Host.Cell

/-- The state of FIRCORE (R20), with the model's own fields last. -/
structure State where
  /-- `CTRL.IE` (R25). -/
  ctrlIe : Bool
  /-- `STATUS.BUSY` (R26). -/
  statusBusy : Bool
  /-- `STATUS.DONE` (R26). -/
  statusDone : Bool
  /-- `STATUS.HAZ` (R26). -/
  statusHaz : Bool
  /-- `STATUS.ERR` (R26). -/
  statusErr : ErrCode
  /-- `CMD` (R28). -/
  cmd : Word
  /-- `A_SRC` (R29). -/
  aSrc : Word
  /-- `A_DST` (R30). -/
  aDst : Word
  /-- `A_LEN` (R31). -/
  aLen : Word
  /-- `A_AUX` (R32). -/
  aAux : Word
  /-- `A_WLEN` (R33). -/
  aWlen : Word
  /-- `RES0` (R34). -/
  res0 : Word
  /-- `RES1` (R34). -/
  res1 : Word
  /-- DMEM (R40). -/
  mem : Memory
  /-- The direct contexts, context d at index d (R41). -/
  dir : List (DirCtx Val)
  /-- The overlap-add contexts, context o at index o (R43). -/
  ola : List (OlaCtx Val)
  /-- The interrupt output (R47). -/
  irq : Bool
  /-- The MODEL's: the instance's parameters (R6, log 1); no step changes them. -/
  params : Params
  /-- The MODEL's: the environment's coming actions, the next one first (R214, log 8). -/
  host : List Action
  /-- The MODEL's: what the host port has answered, the latest first (R106, log 11). -/
  responses : List Response
  /-- The MODEL's: the index of the next free values (logs 4 and 5). -/
  draws : Nat
deriving DecidableEq, Repr

/-- Why a run of the model stops. -/
inductive Fault where
  /-- `UninitRead` (R80, R242): a command's `MemRead` or a host read of DMEM while `BUSY` = 0 reached a word never
  written since reset. SAFE: the hardware returns some value and goes on; the spec makes a model stop here. -/
  | uninitRead
deriving DecidableEq, Repr

/-- Why an instruction has no meaning. -/
inductive Refusal where
  /-- An arm of `exec` that is not modelled yet. No arm of this model raises it. SAFE. -/
  | notModelled (mnemonic : String)
deriving DecidableEq, Repr

/-- A direct context right after reset: not valid (R250). DESIGN CHOICE (log 7): `DM`, `DT`, `DH` and `DC` are
unspecified after reset and no rule reads them while the context is not valid (R41). -/
def DirCtx.reset (α : Type) : DirCtx α :=
  { valid := false, m := 0, taps := [], ring := [], cursor := 0 }

/-- An overlap-add context right after reset: not valid (R250). DESIGN CHOICE (log 7): `OM` to `OTL` are unspecified
after reset and no rule reads them while the context is not valid (R43). -/
def OlaCtx.reset (α : Type) : OlaCtx α :=
  { valid := false, m := 0, b := 0, l := 0, taps := [], inbuf := [], fill := 0, tail := [] }

/-- The state right after reset of an instance with parameters `p` (R250), its environment with no action to come
(log 8). -/
def State.resetWith (p : Params) : State :=
  { ctrlIe := false
    statusBusy := false
    statusDone := false
    statusHaz := false
    statusErr := .ok
    cmd := 0
    aSrc := 0
    aDst := 0
    aLen := 0
    aAux := 0
    aWlen := 0
    res0 := 0
    res1 := 0
    mem := []
    dir := List.replicate p.nctxDir (DirCtx.reset Val)
    ola := List.replicate p.nctxOla (OlaCtx.reset Val)
    irq := false
    params := p
    host := []
    responses := []
    draws := 0 }

/-- The machine right after reset (R250), with the parameters of `Config.resetParams` (DESIGN CHOICE, log 1). -/
def State.reset : State := State.resetWith Config.resetParams

end Sys2Proof.Machine
end

