-- ==== Sys2Proof/Machine/Ieee.lean ====
section
/-! DEFINITION. IEEE 754 arithmetic of `NUMFMT` on bit patterns (R9, D3): round to nearest, ties to even, no fused
operation, subnormals kept. What IEEE 754 prescribes is general knowledge (R9 marks it so; log 10).

Every finite value of a format is a whole number of the format's smallest positive value `2 ^ -scale`, so an exact
result is a fraction `n / d` of that unit, and `roundMag` narrows it once. -/

namespace Sys2Proof

/-- The precision of a format in bits, the hidden bit counted: 24 or 53. -/
def Fmt.prec : Fmt → Nat
  | .binary32 => 24
  | .binary64 => 53

/-- The smallest positive value of a format is `2 ^ -scale`: 149 or 1074. -/
def Fmt.scale : Fmt → Nat
  | .binary32 => 149
  | .binary64 => 1074

/-- The bit number of the sign bit: 31 or 63. -/
def Fmt.signBit : Fmt → Nat
  | .binary32 => 31
  | .binary64 => 63

/-- The pattern of +infinity: the exponent field all ones, the fraction zero. -/
def Fmt.infBits : Fmt → Nat
  | .binary32 => 0x7F800000
  | .binary64 => 0x7FF0000000000000

end Sys2Proof

namespace Sys2Proof.Machine

/-- The pattern with this sign whose other bits are `mag`. -/
def fpPack (f : Fmt) (neg : Bool) (mag : Nat) : Val :=
  BitVec.ofNat 64 (mag + if neg then 2 ^ f.signBit else 0)

/-- The sign bit of a pattern. -/
def fpSign (f : Fmt) (v : Val) : Bool := v.getLsbD f.signBit

/-- The bits of a pattern below the sign. -/
def fpAbs (f : Fmt) (v : Val) : Nat := v.toNat % 2 ^ f.signBit

/-- The pattern is a NaN. -/
def fpIsNaN (f : Fmt) (v : Val) : Bool := decide (f.infBits < fpAbs f v)

/-- The pattern is an infinity. -/
def fpIsInf (f : Fmt) (v : Val) : Bool := decide (fpAbs f v = f.infBits)

/-- `isFinite` of R9: neither an infinity nor a NaN. -/
def fpIsFinite (f : Fmt) (v : Val) : Bool := decide (fpAbs f v < f.infBits)

/-- The pattern is +0 or −0. -/
def fpIsZero (f : Fmt) (v : Val) : Bool := decide (fpAbs f v = 0)

/-- The pattern is one of `NUMFMT`'s: no bit above the format's width. -/
def fpInWidth (f : Fmt) (v : Val) : Bool := decide (v.toNat < 2 ^ (f.signBit + 1))

/-- The low bits of a pattern that the format has. -/
def fpMask (f : Fmt) (v : Val) : Val := BitVec.ofNat 64 (v.toNat % 2 ^ (f.signBit + 1))

/-- The size of a finite value in units of `2 ^ -scale`, from its bits below the sign. -/
def magOfBits (f : Fmt) (a : Nat) : Nat :=
  let e := a / 2 ^ (f.prec - 1)
  let frac := a % 2 ^ (f.prec - 1)
  if e = 0 then frac else (2 ^ (f.prec - 1) + frac) * 2 ^ (e - 1)

/-- The size of a value in units of `2 ^ -scale`; an infinity counts as the power of two above every finite value, so
that ordered comparison reads sizes alone. -/
def fpMag (f : Fmt) (v : Val) : Nat := magOfBits f (fpAbs f v)

/-- A value in units of `2 ^ -scale`, with its sign. -/
def fpInt (f : Fmt) (v : Val) : Int := if fpSign f v then -(fpMag f v : Int) else (fpMag f v : Int)

/-- The natural number nearest to `n / d`, the even one where two are equally near. -/
def roundEven (n d : Nat) : Nat :=
  let q := n / d
  let r := n % d
  if 2 * r < d then q
  else if d < 2 * r then q + 1
  else q + q % 2

/-- The bits below the sign of the format's value nearest to `n / d` units of `2 ^ -scale`, ties to even, an infinity
where the rounded value is beyond the largest finite one (R9). -/
def roundMag (f : Fmt) (n d : Nat) : Nat :=
  let k := (n / d).log2 + 1 - f.prec
  min (k * 2 ^ (f.prec - 1) + roundEven n (d * 2 ^ k)) f.infBits

/-- `F(r)` of R9 for r = ± n / d. -/
def fpOfRatio (f : Fmt) (neg : Bool) (n d : Nat) : Val :=
  fpPack f neg (roundMag f (n * 2 ^ f.scale) d)

/-- The quiet NaN whose sign and remaining payload are those of the free value `draw` (D3, U6, log 4). -/
def fpNaN (f : Fmt) (draw : Val) : Val :=
  fpPack f (fpSign f draw)
    (f.infBits + 2 ^ (f.prec - 2) + draw.toNat % 2 ^ (f.prec - 2))

/-- −v: the sign bit flipped (R9). -/
def fpNeg (f : Fmt) (v : Val) : Val := fpPack f (!fpSign f v) (fpAbs f v)

/-- The rounded value of an exact integer of units; an exact zero takes the sign `zeroNeg`. -/
def fpOfInt (f : Fmt) (zeroNeg : Bool) (x : Int) : Val :=
  if x = 0 then fpPack f zeroNeg 0 else fpPack f (decide (x < 0)) (roundMag f x.natAbs 1)

/-- `a ⊕ b` (R9); `draw` is the free value of a NaN result. -/
def fpAdd (f : Fmt) (draw a b : Val) : Val :=
  if fpIsNaN f a || fpIsNaN f b then fpNaN f draw
  else if fpIsInf f a then
    if fpIsInf f b && (fpSign f a != fpSign f b) then fpNaN f draw else fpPack f (fpSign f a) f.infBits
  else if fpIsInf f b then fpPack f (fpSign f b) f.infBits
  else fpOfInt f (fpSign f a && fpSign f b) (fpInt f a + fpInt f b)

/-- `a ⊖ b` (R9): the sum of `a` and the exact negation of `b`. -/
def fpSub (f : Fmt) (draw a b : Val) : Val := fpAdd f draw a (fpNeg f b)

/-- `a ⊗ b` (R9). -/
def fpMul (f : Fmt) (draw a b : Val) : Val :=
  let neg := fpSign f a != fpSign f b
  if fpIsNaN f a || fpIsNaN f b then fpNaN f draw
  else if fpIsInf f a || fpIsInf f b then
    if fpIsZero f a || fpIsZero f b then fpNaN f draw else fpPack f neg f.infBits
  else fpPack f neg (roundMag f (fpMag f a * fpMag f b) (2 ^ f.scale))

/-- `a ⊘ b` (R9). -/
def fpDiv (f : Fmt) (draw a b : Val) : Val :=
  let neg := fpSign f a != fpSign f b
  if fpIsNaN f a || fpIsNaN f b then fpNaN f draw
  else if fpIsInf f a then
    if fpIsInf f b then fpNaN f draw else fpPack f neg f.infBits
  else if fpIsInf f b then fpPack f neg 0
  else if fpIsZero f b then
    if fpIsZero f a then fpNaN f draw else fpPack f neg f.infBits
  else fpPack f neg (roundMag f (fpMag f a * 2 ^ f.scale) (fpMag f b))

/-- `a < b` of R9: the ordered comparison, false with a NaN. -/
def fpLt (f : Fmt) (a b : Val) : Bool :=
  !fpIsNaN f a && !fpIsNaN f b && decide (fpInt f a < fpInt f b)

/-- `a == b` of R9: the ordered comparison, false with a NaN, and +0 == −0. -/
def fpEq (f : Fmt) (a b : Val) : Bool :=
  !fpIsNaN f a && !fpIsNaN f b && decide (fpInt f a = fpInt f b)

/-- +0. -/
def fpZero : Val := 0

/-- The `NUMFMT` value 1.0. -/
def fpOne (f : Fmt) : Val := fpOfRatio f false 1 1

/-- The `NUMFMT` value 2. -/
def fpTwo (f : Fmt) : Val := fpOfRatio f false 2 1

/-- The `NUMFMT` value 0.5, exact in both formats (R121). -/
def fpHalf (f : Fmt) : Val := fpOfRatio f false 1 2

/-- `PI_F`: π rounded to nearest in `NUMFMT` (R7, D5). The digits of π are general knowledge (log 14). -/
def fpPi (f : Fmt) : Val := fpOfRatio f false 314159265358979323846264338327950288 (10 ^ 35)

end Sys2Proof.Machine
end

