-- ==== Sys2Proof/Machine/Flags.lean ====
section
/-! DEFINITION. The flags of FIRCORE (R48): what sets and clears `BUSY`, `DONE`, `HAZ` and `ERR`, the interrupt
output, and the words in which the host reads flags and valid bits. No command reads a flag. -/

namespace Sys2Proof.Machine

/-- The code of R221. -/
def ErrCode.code : ErrCode → BitVec 4
  | .ok => 0
  | .illegalCmd => 1
  | .invalidSpec => 2
  | .lengthMismatch => 3
  | .emptyInput => 4
  | .numericDegeneracy => 5
  | .addressRange => 6
  | .capacity => 7
  | .notConfigured => 8

/-- `irq <- CTRL.IE and STATUS.DONE` (R47). -/
def refreshIrq (s : State) : State :=
  { s with irq := s.ctrlIe && s.statusDone }

/-- The flags a command leaves as it completes with code `e` (R222, R223): `ERR`, `BUSY`, `DONE` and `irq`. The
model's draw counter moves on, so that no later command shares a free value with this one (log 4). -/
def completeFlags (e : ErrCode) (s : State) : State :=
  refreshIrq { s with statusErr := e, statusBusy := false, statusDone := true, draws := s.draws + 1 }

/-- The flags an accepted `CMD` write leaves (R28). -/
def acceptFlags (s : State) : State :=
  { s with statusBusy := true, statusDone := false, statusErr := .ok }

/-- A dropped write sets the sticky bit `HAZ` (R70, R241). -/
def dropWrite (s : State) : State :=
  { s with statusHaz := true }

/-- A host write to `STATUS` (R27): a 1 in bit 1 clears `DONE`, a 1 in bit 2 clears `HAZ`. -/
def statusWrite (v : Word) (s : State) : State :=
  { s with statusDone := s.statusDone && !v.getLsbD 1, statusHaz := s.statusHaz && !v.getLsbD 2 }

/-- A host write to `CTRL` (R25, R212): bit 0 is `IE`, every other bit is ignored. -/
def ctrlWrite (v : Word) (s : State) : State :=
  { s with ctrlIe := v.getLsbD 0 }

/-- `STATUS` as the host reads it (R26, R211). -/
def statusWord (s : State) : Word :=
  (0#24 ++ s.statusErr.code ++ 0#1 ++ BitVec.ofBool s.statusHaz ++ BitVec.ofBool s.statusDone ++
    BitVec.ofBool s.statusBusy : BitVec (24 + 4 + 1 + 1 + 1 + 1))

/-- `CTRL` as the host reads it (R25, R211). -/
def ctrlWord (s : State) : Word :=
  (0#31 ++ BitVec.ofBool s.ctrlIe : BitVec (31 + 1))

/-- `CFG0.FMT` (R35). -/
def fmtBit : Fmt → BitVec 1
  | .binary32 => 0
  | .binary64 => 1

/-- `CFG0` (R35). -/
def cfg0Word (p : Params) : Word :=
  (0#16 ++ BitVec.ofNat 4 (p.nctxOla - 1) ++ BitVec.ofNat 4 (p.nctxDir - 1) ++ 0#7 ++ fmtBit p.fmt :
    BitVec (16 + 4 + 4 + 7 + 1))

/-- `DV[d]` for d < `NCTX_DIR`, else 0 (R38). -/
def dirValidBit (s : State) (d : Nat) : Bool :=
  decide (d < s.params.nctxDir) && (s.dir.getD d (DirCtx.reset Val)).valid

/-- `OV[o]` for o < `NCTX_OLA`, else 0 (R38). -/
def olaValidBit (s : State) (o : Nat) : Bool :=
  decide (o < s.params.nctxOla) && (s.ola.getD o (OlaCtx.reset Val)).valid

/-- The number whose bits these are, the least significant first. -/
def natOfBits : List Bool → Nat
  | [] => 0
  | b :: bs => b.toNat + 2 * natOfBits bs

/-- `CTXV` (R38): the direct valid bits in [15:0], the overlap-add valid bits in [31:16]. -/
def ctxvWord (s : State) : Word :=
  BitVec.ofNat 32 (natOfBits ((List.range 16).map (dirValidBit s) ++ (List.range 16).map (olaValidBit s)))

end Sys2Proof.Machine
end

