-- ==== Sys2Proof/Machine/Ops.lean ====
section
/-! DEFINITION. The shared operations of FIRCORE: bytes, words and elements of DMEM (R62 to R64, R68), the contexts,
the issue of a command (R28) and its completion with an error (R222) or with success (R223). -/

namespace Sys2Proof.Machine

/-- What a meaning, a step or an access with a possible fault answers. -/
abbrev Result := Host.Outcome State Fault Refusal

/-! ### Bytes of DMEM -/

/-- The byte at an address, `none` where nothing has written it since reset (R80). -/
def memGet : Memory → Nat → Option Byte
  | [], _ => none
  | (k, b) :: rest, a => if k = a then some b else memGet rest a

/-- A byte written; the list stays in its canonical form. -/
def memSet : Memory → Nat → Byte → Memory
  | [], a, v => [(a, v)]
  | (k, b) :: rest, a, v =>
    if a < k then (a, v) :: (k, b) :: rest
    else if a = k then (a, v) :: rest
    else (k, b) :: memSet rest a v

/-- The canonical form of a memory: addresses strictly rising. No entry can equal what an unlisted address reads as,
since an unlisted address has no value. -/
def memSorted : Memory → Bool
  | [] => true
  | [_] => true
  | (k, _) :: (k', b') :: rest => decide (k < k') && memSorted ((k', b') :: rest)

/-! ### Words and elements of DMEM -/

/-- The host byte address of DMEM element 0 (R61). -/
def dmemBase : Nat := 0x10000

/-- The first host byte of DMEM element `e` (R62). -/
def elemAddr (f : Fmt) (e : Nat) : Nat := dmemBase + e * f.ew

/-- One past the last host byte of the DMEM window (R61). -/
def dmemEnd (p : Params) : Nat := dmemBase + p.dmemWords * p.fmt.ew

/-- The 32-bit word at a byte address, little-endian (R63); `none` where it was never written. -/
def readWord (m : Memory) (a : Nat) : Option Word :=
  match memGet m a, memGet m (a + 1), memGet m (a + 2), memGet m (a + 3) with
  | some b0, some b1, some b2, some b3 => some (wordOfBytes b0 b1 b2 b3)
  | _, _, _, _ => none

/-- The 32-bit word at a byte address written, little-endian (R63, R64). -/
def writeWord (m : Memory) (a : Nat) (w : Word) : Memory :=
  memSet (memSet (memSet (memSet m a (w.extractLsb' 0 8)) (a + 1) (w.extractLsb' 8 8))
    (a + 2) (w.extractLsb' 16 8)) (a + 3) (w.extractLsb' 24 8)

/-- DMEM element `e` as one `NUMFMT` value, the less significant word at the lower address (R62); `none` where a word
of it was never written. -/
def readElem (f : Fmt) (m : Memory) (e : Nat) : Option Val :=
  match f with
  | .binary32 => (readWord m (elemAddr f e)).map (BitVec.zeroExtend 64)
  | .binary64 =>
    match readWord m (elemAddr f e), readWord m (elemAddr f e + 4) with
    | some lo, some hi => some (hi ++ lo : BitVec (32 + 32))
    | _, _ => none

/-- DMEM element `e` written with one `NUMFMT` value, every word of it (R62, R80). -/
def writeElem (f : Fmt) (m : Memory) (e : Nat) (v : Val) : Memory :=
  match f with
  | .binary32 => writeWord m (elemAddr f e) (v.extractLsb' 0 32)
  | .binary64 =>
    writeWord (writeWord m (elemAddr f e) (v.extractLsb' 0 32)) (elemAddr f e + 4) (v.extractLsb' 32 32)

/-- `MemRead(addr, n)` (R68): the values of `n` elements from index `addr` on, `none` where one of their words was
never written (the model fault of R80). -/
def memRead (f : Fmt) (m : Memory) (addr : Nat) : Nat → Option (List Val)
  | 0 => some []
  | n + 1 =>
    match readElem f m addr, memRead f m (addr + 1) n with
    | some v, some vs => some (v :: vs)
    | _, _ => none

/-- `MemWrite(addr, n, v)` (R68) with n the length of `v`. -/
def memWrite (f : Fmt) (m : Memory) (addr : Nat) : List Val → Memory
  | [] => m
  | v :: vs => memWrite f (writeElem f m addr v) (addr + 1) vs

/-! ### Contexts -/

/-- Direct context `d` (R41). -/
def dirCtx (s : State) (d : Nat) : DirCtx Val := s.dir.getD d (DirCtx.reset Val)

/-- Overlap-add context `o` (R43). -/
def olaCtx (s : State) (o : Nat) : OlaCtx Val := s.ola.getD o (OlaCtx.reset Val)

/-- Direct context `d` replaced. -/
def setDir (d : Nat) (c : DirCtx Val) (s : State) : State := { s with dir := s.dir.set d c }

/-- Overlap-add context `o` replaced. -/
def setOla (o : Nat) (c : OlaCtx Val) (s : State) : State := { s with ola := s.ola.set o c }

/-- DMEM replaced. -/
def setMem (m : Memory) (s : State) : State := { s with mem := m }

/-! ### Issue and completion of a command -/

/-- An accepted `CMD` write (R28): the word is pending. -/
def issueCommand (w : Word) (s : State) : State :=
  refreshIrq (acceptFlags { s with cmd := w })

/-- Error entry (R222): `raise E`. Nothing the command's rule named changes; `ERR`, `BUSY`, `DONE` and `irq` do. -/
def raiseError (e : ErrCode) (s : State) : Result :=
  .next (completeFlags e s)

/-- The acknowledge of an error or of a completion (R227): the host's `STATUS` write with bit 1 set. FIRCORE saves no
state when it raises an error, so there is no other return. -/
def acknowledge (s : State) : State :=
  refreshIrq (statusWrite 2 s)

/-- `done()` (R223): success, `RES0` and `RES1` unchanged. -/
def doneKeep (s : State) : Result :=
  .next (completeFlags .ok s)

/-- `done(r0, r1)` (R223): success, with the result registers written. The counts fit 32 bits (R217). -/
def doneWith (r0 r1 : Nat) (s : State) : Result :=
  doneKeep { s with res0 := BitVec.ofNat 32 r0, res1 := BitVec.ofNat 32 r1 }

/-- The free values of the NaNs the pending command produces (log 4), by sample or tap and by operation. -/
def nanDraws (s : State) : Nat → Nat → Val := Config.nanDraw s.draws

end Sys2Proof.Machine
end

