-- ==== Sys2Proof/Machine/Operands.lean ====
section
/-! DEFINITION. The operands of commands (R96, R97, R219): the argument registers as unsigned integers, the range
check of R69 and the sequences they name in DMEM. One mode exists: register-direct with element index. -/

namespace Sys2Proof.Machine

/-- `RangeOK(base, len)` (R69): the sum is computed without wrap-around and an empty range is legal for every base. -/
def rangeOK (p : Params) (base len : Nat) : Bool :=
  decide (base + len ≤ p.dmemWords) || decide (len = 0)

/-- `A_SRC` as an element index. -/
def srcIndex (s : State) : Nat := s.aSrc.toNat

/-- `A_DST` as an element index. -/
def dstIndex (s : State) : Nat := s.aDst.toNat

/-- `A_LEN` as a count. -/
def lenCount (s : State) : Nat := s.aLen.toNat

/-- `A_AUX`: the element index of a cutoff, or the block size an `OLA_INIT` requests (R32). -/
def auxIndex (s : State) : Nat := s.aAux.toNat

/-- `A_WLEN` as a count. -/
def wlenCount (s : State) : Nat := s.aWlen.toNat

/-- The source sequence of `n` values at `A_SRC`. -/
def readSrc (s : State) (n : Nat) : Option (List Val) := memRead s.params.fmt s.mem (srcIndex s) n

/-- The `n` cutoffs at `A_AUX` (R96). -/
def readAux (s : State) (n : Nat) : Option (List Val) := memRead s.params.fmt s.mem (auxIndex s) n

/-- The output sequence written at `A_DST`. -/
def writeDst (vs : List Val) (s : State) : State := setMem (memWrite s.params.fmt s.mem (dstIndex s) vs) s

end Sys2Proof.Machine
end

