-- ==== Sys2Proof/Machine/Design.lean ====
section
/-! DEFINITION. The designer (40_design.md, R120 to R137). The numeric rules take the sine function and the free values
of NaNs as arguments; the commands supply `sinF` and the pending command's draws. -/

namespace Sys2Proof.Machine

/-- The four filter types (R120). -/
inductive FilterType where
  | lp
  | hp
  | bp
  | bs
deriving DecidableEq, Repr

/-- The number of cutoffs, fixed by the opcode (R120). -/
def cutoffCount : FilterType → Nat
  | .lp => 1
  | .hp => 1
  | .bp => 2
  | .bs => 2

/-- 0 < fc < 0.5, by ordered comparisons (R121). -/
def cutoffInRange (f : Fmt) (c : Val) : Bool :=
  fpLt f fpZero c && fpLt f c (fpHalf f)

/-- `CutoffsOK(t, fc)` (R121). -/
def cutoffsOK (f : Fmt) (t : FilterType) (fc : List Val) : Bool :=
  match t with
  | .lp | .hp => cutoffInRange f (fc.getD 0 fpZero)
  | .bp | .bs =>
    cutoffInRange f (fc.getD 0 fpZero) && cutoffInRange f (fc.getD 1 fpZero) &&
      fpLt f (fc.getD 0 fpZero) (fc.getD 1 fpZero)

/-- `SIN_F` (R6, D5, log 2): unconstrained but odd, `SIN_F(−a) = −SIN_F(a)` for every `a` that is not a NaN. -/
def sinF (f : Fmt) (a : Val) : Val :=
  if !fpIsNaN f a && fpSign f a then fpNeg f (fpMask f (Config.sinRaw f (fpNeg f a)))
  else fpMask f (Config.sinRaw f (fpMask f a))

/-- The offset `k[i] = F(i − (N−1)/2)` (R122), as F of the half-integer (2i − (N−1))/2. -/
def tapOffset (f : Fmt) (n i : Nat) : Val :=
  fpOfRatio f (decide (2 * i < n - 1)) ((2 * (i : Int) - ((n - 1 : Nat) : Int)).natAbs) 2

/-- `δ[i]` (R123). -/
def tapDelta (f : Fmt) (n i : Nat) : Val :=
  if 2 * i = n - 1 then fpOne f else fpZero

/-- `sinc_F(x)` (R124). -/
def sincF (f : Fmt) (sin : Val → Val) (draw x : Val) : Val :=
  if fpIsZero f x then fpOne f
  else fpDiv f draw (sin (fpMul f draw (fpPi f) x)) (fpMul f draw (fpPi f) x)

/-- `LPT(f, k)` (R125) for a cutoff `c` and an offset `k`. -/
def lowpassTerm (f : Fmt) (sin : Val → Val) (draw c k : Val) : Val :=
  fpMul f draw (fpMul f draw (fpTwo f) c)
    (sincF f sin draw (fpMul f draw (fpMul f draw (fpTwo f) c) k))

/-- `Ideal(t, N, fc, i)` (R126 to R129). -/
def idealTap (f : Fmt) (sin : Val → Val) (draw : Val) (t : FilterType) (n : Nat) (fc : List Val) (i : Nat) : Val :=
  match t with
  | .lp => lowpassTerm f sin draw (fc.getD 0 fpZero) (tapOffset f n i)
  | .hp => fpSub f draw (tapDelta f n i) (lowpassTerm f sin draw (fc.getD 0 fpZero) (tapOffset f n i))
  | .bp =>
    fpSub f draw (lowpassTerm f sin draw (fc.getD 1 fpZero) (tapOffset f n i))
      (lowpassTerm f sin draw (fc.getD 0 fpZero) (tapOffset f n i))
  | .bs =>
    fpSub f draw (tapDelta f n i)
      (fpSub f draw (lowpassTerm f sin draw (fc.getD 1 fpZero) (tapOffset f n i))
        (lowpassTerm f sin draw (fc.getD 0 fpZero) (tapOffset f n i)))

/-- The windowed taps `v[i] = h[i] ⊗ w[i]` (R120, R130). -/
def windowedTaps (f : Fmt) (sin : Val → Val) (nan : Nat → Nat → Val) (t : FilterType) (n : Nat) (w fc : List Val) :
    List Val :=
  (List.range n).map fun i => fpMul f (nan i 0) (idealTap f sin (nan i 0) t n fc i) (w.getD i fpZero)

/-- `sigma(i) = +1` (R131): `i − ⌊(N−1)/2⌋` is even. -/
def sigmaPos (n i : Nat) : Bool :=
  decide ((i + (n - 1) / 2) % 2 = 0)

/-- One term of the divisor's sum (R131), `S` so far and tap `i` next. -/
def divisorStep (f : Fmt) (nan : Nat → Nat → Val) (t : FilterType) (n : Nat) (v : List Val) (S : Val) (i : Nat) : Val :=
  match t with
  | .lp | .bp => fpAdd f (nan i 1) S (v.getD i fpZero)
  | .hp | .bs =>
    if sigmaPos n i then fpAdd f (nan i 1) S (v.getD i fpZero) else fpSub f (nan i 1) S (v.getD i fpZero)

/-- The first term of the divisor's sum (R131). -/
def divisorStart (f : Fmt) (t : FilterType) (n : Nat) (v : List Val) : Val :=
  match t with
  | .lp | .bp => v.getD 0 fpZero
  | .hp | .bs => if sigmaPos n 0 then v.getD 0 fpZero else fpNeg f (v.getD 0 fpZero)

/-- `Divisor(t, N, v)` (R131): the sum for lowpass and bandpass, the alternating-sign sum for highpass and bandstop,
from index 0 upward. -/
def divisor (f : Fmt) (nan : Nat → Nat → Val) (t : FilterType) (n : Nat) (v : List Val) : Val :=
  ((List.range (n - 1)).map (· + 1)).foldl (divisorStep f nan t n v) (divisorStart f t n v)

/-- Every tap divided by the divisor (R131). -/
def normalizedTaps (f : Fmt) (nan : Nat → Nat → Val) (S : Val) (v : List Val) : List Val :=
  v.mapIdx fun i x => fpDiv f (nan i 2) x S

/-- The final taps if they are finite, else NUMERIC_DEGENERACY (R132). -/
def finiteTaps (f : Fmt) (v : List Val) : Option (List Val) :=
  if v.all (fpIsFinite f) then some v else none

/-- The numeric part of R120: the final taps, `none` where the design raises NUMERIC_DEGENERACY (R132). -/
def designTaps (f : Fmt) (sin : Val → Val) (nan : Nat → Nat → Val) (t : FilterType) (norm : Bool) (n : Nat)
    (w fc : List Val) : Option (List Val) :=
  let v := windowedTaps f sin nan t n w fc
  if norm then
    if fpIsZero f (divisor f nan t n v) then none
    else finiteTaps f (normalizedTaps f nan (divisor f nan t n v) v)
  else finiteTaps f v

/-- The design procedure `DSGN(t, norm)` (R120), its checks in the order of R226. -/
def runDesign (t : FilterType) (norm : Bool) (s : State) : Result :=
  if lenCount s = 0 then raiseError .emptyInput s
  else if wlenCount s ≠ lenCount s then raiseError .lengthMismatch s
  else if ¬(rangeOK s.params (srcIndex s) (lenCount s) ∧ rangeOK s.params (auxIndex s) (cutoffCount t) ∧
      rangeOK s.params (dstIndex s) (lenCount s)) then raiseError .addressRange s
  else
    match readSrc s (lenCount s), readAux s (cutoffCount t) with
    | some w, some fc =>
      if cutoffsOK s.params.fmt t fc then
        match designTaps s.params.fmt (sinF s.params.fmt) (nanDraws s) t norm (lenCount s) w fc with
        | some v => doneWith (lenCount s) 0 (writeDst v s)
        | none => raiseError .numericDegeneracy s
      else raiseError .invalidSpec s
    | _, _ => .fault .uninitRead

/-- `DSGN_LP` (R134). -/
def execDsgnLp (norm : Bool) (s : State) : Result := runDesign .lp norm s

/-- `DSGN_HP` (R135). -/
def execDsgnHp (norm : Bool) (s : State) : Result := runDesign .hp norm s

/-- `DSGN_BP` (R136). -/
def execDsgnBp (norm : Bool) (s : State) : Result := runDesign .bp norm s

/-- `DSGN_BS` (R137). -/
def execDsgnBs (norm : Bool) (s : State) : Result := runDesign .bs norm s

end Sys2Proof.Machine
end

