-- ==== Sys2Proof/Machine/Direct.lean ====
section
/-! DEFINITION. The direct engine (41_direct.md, R160 to R166). The engine's rules are written over any arithmetic, so
that the exact-arithmetic reference of R160 and R193 is the same text with integers for values. -/

namespace Sys2Proof.Machine

/-- The arithmetic an engine computes with: zero, and the product and the sum made for input sample `k` at tap or
index `j`. The two numbers name the operation, so that every NaN is a free value of its own (log 4). -/
structure Arith (α : Type) where
  zero : α
  mul : Nat → Nat → α → α → α
  add : Nat → Nat → α → α → α

/-- The machine's arithmetic (R9), with a command's free values for NaNs. -/
def fpArith (f : Fmt) (nan : Nat → Nat → Val) : Arith Val :=
  { zero := fpZero
    mul := fun k j a b => fpMul f (nan k (2 * j)) a b
    add := fun k j a b => fpAdd f (nan k (2 * j + 1)) a b }

/-- Exact arithmetic, for the reference statements (R9, R160, R193). -/
def intArith : Arith Int :=
  { zero := 0, mul := fun _ _ a b => a * b, add := fun _ _ a b => a + b }

/-- `Past(d, j)` (R162): the sample `j` positions back from the next input. The ring of M − 1 samples is indexed
modulo its size. -/
def pastSample {α : Type} (A : Arith α) (c : DirCtx α) (j : Nat) : α :=
  c.ring.getD ((c.cursor + (c.m - 1) - j) % (c.m - 1)) A.zero

/-- `FirSample(d, x)` (R163) for input sample number `k`. -/
def firSample {α : Type} (A : Arith α) (k : Nat) (c : DirCtx α) (x : α) : α :=
  ((List.range (c.m - 1)).map (· + 1)).foldl
    (fun acc j => A.add k j acc (A.mul k j (c.taps.getD j A.zero) (pastSample A c j)))
    (A.mul k 0 (c.taps.getD 0 A.zero) x)

/-- `Push(d, x)` (R164). -/
def pushSample {α : Type} (c : DirCtx α) (x : α) : DirCtx α :=
  if 2 ≤ c.m then { c with ring := c.ring.set c.cursor x, cursor := (c.cursor + 1) % (c.m - 1) } else c

/-- The loop of `DIR_APPLY` (R165) from input sample number `k` on: the context after it and the outputs. -/
def dirStream {α : Type} (A : Arith α) : Nat → DirCtx α → List α → DirCtx α × List α
  | _, c, [] => (c, [])
  | k, c, x :: xs =>
    let r := dirStream A (k + 1) (pushSample c x) xs
    (r.1, firSample A k c x :: r.2)

/-- The context `DIR_INIT` constructs from taps `T` (R161). -/
def dirConstruct {α : Type} (zero : α) (T : List α) : DirCtx α :=
  { valid := true, m := T.length, taps := T, ring := List.replicate (T.length - 1) zero, cursor := 0 }

/-- `DIR_INIT` (R161): the context check of R99, then the checks in the order of R226. -/
def execDirInit (ctx : BitVec 4) (s : State) : Result :=
  if s.params.nctxDir ≤ ctx.toNat then raiseError .illegalCmd s
  else if lenCount s = 0 then raiseError .emptyInput s
  else if s.params.maxTaps < lenCount s then raiseError .capacity s
  else if ¬rangeOK s.params (srcIndex s) (lenCount s) then raiseError .addressRange s
  else
    match readSrc s (lenCount s) with
    | some T => doneWith (lenCount s) 0 (setDir ctx.toNat (dirConstruct fpZero T) s)
    | none => .fault .uninitRead

/-- `DIR_APPLY` (R165): all inputs are read before the output is written (R74). -/
def execDirApply (ctx : BitVec 4) (s : State) : Result :=
  if s.params.nctxDir ≤ ctx.toNat then raiseError .illegalCmd s
  else if ¬(dirCtx s ctx.toNat).valid then raiseError .notConfigured s
  else if ¬(rangeOK s.params (srcIndex s) (lenCount s) ∧ rangeOK s.params (dstIndex s) (lenCount s)) then
    raiseError .addressRange s
  else
    match readSrc s (lenCount s) with
    | some x =>
      let r := dirStream (fpArith s.params.fmt (nanDraws s)) 0 (dirCtx s ctx.toNat) x
      doneWith (lenCount s) 0 (setDir ctx.toNat r.1 (writeDst r.2 s))
    | none => .fault .uninitRead

/-- `DIR_REL` (R166): the context is no longer valid; its other fields stay. -/
def execDirRel (ctx : BitVec 4) (s : State) : Result :=
  if s.params.nctxDir ≤ ctx.toNat then raiseError .illegalCmd s
  else doneKeep (setDir ctx.toNat { dirCtx s ctx.toNat with valid := false } s)

end Sys2Proof.Machine
end

