-- ==== Sys2Proof/Machine/OverlapAdd.lean ====
section
/-! DEFINITION. The overlap-add engine (42_overlap_add.md, R180 to R190). Like the direct engine's, its rules are written
over any arithmetic and any transform-domain convolution; the machine supplies `xconv`. -/

namespace Sys2Proof.Machine

/-! ### Block size -/

/-- The smallest power of two that is at least `n`. -/
def nextPow2 (n : Nat) : Nat :=
  if n ≤ 1 then 1 else 2 ^ ((n - 1).log2 + 1)

/-- `BlockSize(M, breq)` (R181): the smallest power of two that is at least 2·M and at least `breq`. -/
def blockSize (m breq : Nat) : Nat := nextPow2 (max (2 * m) breq)

/-- `ChunkLen(M, B)` (R181). -/
def chunkLen (m b : Nat) : Nat := b - m + 1

/-! ### XCONV -/

/-- The value at index `n` of the circular convolution of `T` with `P`, of length `T.length`, exactly (R184). -/
def circConv (T P : List Int) (n : Nat) : Int :=
  ((List.range T.length).map fun j => T.getD j 0 * P.getD ((n + T.length - j) % T.length) 0).sum

/-- 1/ε of R190: ε is 1e-5 for binary32 and 1e-9 for binary64. -/
def toleranceInv : Fmt → Nat
  | .binary32 => 10 ^ 5
  | .binary64 => 10 ^ 9

/-- The largest size in a list. -/
def maxAbs (xs : List Int) : Nat := xs.foldl (fun m x => max m x.natAbs) 0

/-- The sum of the sizes in a list. -/
def sumAbs (xs : List Int) : Nat := (xs.map Int.natAbs).sum

/-- The bound of R190 on one output `r` whose exact value is `c`, a number of units of `2 ^ -(2 * scale)`: `r` is
finite and |r − C| ≤ ε · (Σ|T'|) · (max|P|). -/
def withinTolerance (f : Fmt) (T P : List Int) (c : Int) (r : Val) : Bool :=
  fpIsFinite f r &&
    decide ((fpInt f r * (2 ^ f.scale : Nat) - c).natAbs * toleranceInv f ≤ sumAbs T * maxAbs P)

/-- The finite value of the format nearest to `c` units of `2 ^ -(2 * scale)`. -/
def nearestFinite (f : Fmt) (c : Int) : Val :=
  fpPack f (decide (c < 0)) (min (roundMag f c.natAbs (2 ^ f.scale)) (f.infBits - 1))

/-- One output of `XCONV` (R184, R190, log 3). The values are unconstrained but for R190: where all inputs are finite
and some finite value meets its bound, the output meets it. -/
def xconvAt (f : Fmt) (T P : List Val) (n : Nat) : Val :=
  let r := fpMask f (Config.xconvRaw f T P n)
  if T.all (fpIsFinite f) && P.all (fpIsFinite f) then
    let Ti := T.map (fpInt f)
    let Pi := P.map (fpInt f)
    if withinTolerance f Ti Pi (circConv Ti Pi n) r then r
    else if withinTolerance f Ti Pi (circConv Ti Pi n) (nearestFinite f (circConv Ti Pi n)) then
      nearestFinite f (circConv Ti Pi n)
    else r
  else r

/-- `XCONV(T', P)` (R184): B values for B padded taps. -/
def xconv (f : Fmt) (T P : List Val) : List Val :=
  (List.range T.length).map (xconvAt f T P)

/-! ### Chunks -/

/-- R185 from index `i` on: the carried tail added to the first values of the block. -/
def addTail {α : Type} (A : Arith α) (k : Nat) : Nat → List α → List α → List α
  | _, blk, [] => blk
  | _, [], _ :: _ => []
  | i, x :: blk, t :: tail => A.add k i x t :: addTail A k (i + 1) blk tail

/-- R184 and R185 for a complete chunk: the block with the carried tail added. -/
def chunkBlock {α : Type} (A : Arith α) (conv : List α → List α → List α) (k : Nat) (c : OlaCtx α) (chunk : List α) :
    List α :=
  addTail A k 0 (conv c.taps (chunk ++ List.replicate (c.b - c.l) A.zero)) c.tail

/-- `OlaSample(o, x)` (R187) for input sample number `k`: the context after it and its 0 or L outputs. -/
def olaSample {α : Type} (A : Arith α) (conv : List α → List α → List α) (k : Nat) (c : OlaCtx α) (x : α) :
    OlaCtx α × List α :=
  if c.fill + 1 < c.l then
    ({ c with inbuf := c.inbuf.set c.fill x, fill := c.fill + 1 }, [])
  else
    let blk := chunkBlock A conv k c (c.inbuf.set c.fill x)
    ({ c with inbuf := c.inbuf.set c.fill x, fill := 0, tail := (blk.take c.b).drop c.l }, blk.take c.l)

/-- The loop of `OLA_APPLY` (R188) from input sample number `k` on: the context after it and the outputs. -/
def olaStream {α : Type} (A : Arith α) (conv : List α → List α → List α) : Nat → OlaCtx α → List α → OlaCtx α × List α
  | _, c, [] => (c, [])
  | k, c, x :: xs =>
    let r := olaSample A conv k c x
    let r' := olaStream A conv (k + 1) r.1 xs
    (r'.1, r.2 ++ r'.2)

/-- The context `OLA_INIT` constructs from taps `T` with block size `b` (R182). -/
def olaConstruct {α : Type} (zero : α) (T : List α) (b : Nat) : OlaCtx α :=
  { valid := true
    m := T.length
    b := b
    l := chunkLen T.length b
    taps := T ++ List.replicate (b - T.length) zero
    inbuf := List.replicate (chunkLen T.length b) zero
    fill := 0
    tail := List.replicate (T.length - 1) zero }

/-- The number of outputs an `OLA_APPLY` of `n` samples writes (R188, R195). -/
def olaOutCount {α : Type} (c : OlaCtx α) (n : Nat) : Nat := (c.fill + n) / c.l * c.l

/-! ### Commands -/

/-- `OLA_INIT` (R182): the context check of R99, then the checks in the order of R226. -/
def execOlaInit (ctx : BitVec 4) (s : State) : Result :=
  if s.params.nctxOla ≤ ctx.toNat then raiseError .illegalCmd s
  else if lenCount s = 0 then raiseError .emptyInput s
  else if s.params.maxTaps < lenCount s then raiseError .capacity s
  else if s.params.maxBlock < blockSize (lenCount s) (auxIndex s) then raiseError .capacity s
  else if ¬rangeOK s.params (srcIndex s) (lenCount s) then raiseError .addressRange s
  else
    match readSrc s (lenCount s) with
    | some T =>
      doneWith (blockSize (lenCount s) (auxIndex s))
        (chunkLen (lenCount s) (blockSize (lenCount s) (auxIndex s)))
        (setOla ctx.toNat (olaConstruct fpZero T (blockSize (lenCount s) (auxIndex s))) s)
    | none => .fault .uninitRead

/-- `OLA_APPLY` (R188): all inputs are read before the output is written (R74). -/
def execOlaApply (ctx : BitVec 4) (s : State) : Result :=
  if s.params.nctxOla ≤ ctx.toNat then raiseError .illegalCmd s
  else if ¬(olaCtx s ctx.toNat).valid then raiseError .notConfigured s
  else if ¬(rangeOK s.params (srcIndex s) (lenCount s) ∧
      rangeOK s.params (dstIndex s) (olaOutCount (olaCtx s ctx.toNat) (lenCount s))) then
    raiseError .addressRange s
  else
    match readSrc s (lenCount s) with
    | some x =>
      let r := olaStream (fpArith s.params.fmt (nanDraws s)) (xconv s.params.fmt) 0 (olaCtx s ctx.toNat) x
      doneWith (olaOutCount (olaCtx s ctx.toNat) (lenCount s)) r.1.fill
        (setOla ctx.toNat r.1 (writeDst r.2 s))
    | none => .fault .uninitRead

/-- `OLA_REL` (R189): the context is no longer valid; its other fields stay. -/
def execOlaRel (ctx : BitVec 4) (s : State) : Result :=
  if s.params.nctxOla ≤ ctx.toNat then raiseError .illegalCmd s
  else doneKeep (setOla ctx.toNat { olaCtx s ctx.toNat with valid := false } s)

end Sys2Proof.Machine
end

