-- ==== Sys2Proof/Machine/System.lean ====
section
/-! DEFINITION. The system command (R210). -/

namespace Sys2Proof.Machine

/-- `NOP` (R210): completes with no other effect. -/
def execNop (s : State) : Result := doneKeep s

end Sys2Proof.Machine
end

