-- ==== Sys2Proof/Machine/Dispatch.lean ====
section
/-! DEFINITION. One arm per command (R213): each calls its meaning. -/

namespace Sys2Proof.Machine

def exec (i : Instr) (s : State) : Host.Outcome State Fault Refusal :=
  match i with
  | .nop => Sys2Proof.Machine.execNop s
  | .dsgnLp norm => Sys2Proof.Machine.execDsgnLp norm s
  | .dsgnHp norm => Sys2Proof.Machine.execDsgnHp norm s
  | .dsgnBp norm => Sys2Proof.Machine.execDsgnBp norm s
  | .dsgnBs norm => Sys2Proof.Machine.execDsgnBs norm s
  | .dirInit ctx => Sys2Proof.Machine.execDirInit ctx s
  | .dirApply ctx => Sys2Proof.Machine.execDirApply ctx s
  | .dirRel ctx => Sys2Proof.Machine.execDirRel ctx s
  | .olaInit ctx => Sys2Proof.Machine.execOlaInit ctx s
  | .olaApply ctx => Sys2Proof.Machine.execOlaApply ctx s
  | .olaRel ctx => Sys2Proof.Machine.execOlaRel ctx s

end Sys2Proof.Machine
end

