-- ==== Sys2Proof/Machine/Port.lean ====
section
/-! DEFINITION. The host port (R60 to R66, R211, R212), the pending command (R46), and reset (R250). -/

namespace Sys2Proof.Machine

/-- A legal access moves 32 bits at an address that is a multiple of 4 (R65). -/
def accessLegal (a : Word) (size : Nat) : Bool :=
  decide (size = 32) && decide (a.toNat % 4 = 0)

/-- `Reg(a)` (R23 to R38): the register at offset `a`; every other offset below the DMEM window reads 0 (R39). -/
def regRead (s : State) (a : Nat) : Word :=
  if a = 0x000 then 0x4B465231
  else if a = 0x004 then ctrlWord s
  else if a = 0x008 then statusWord s
  else if a = 0x00C then s.cmd
  else if a = 0x010 then s.aSrc
  else if a = 0x014 then s.aDst
  else if a = 0x018 then s.aLen
  else if a = 0x01C then s.aAux
  else if a = 0x020 then s.aWlen
  else if a = 0x024 then s.res0
  else if a = 0x028 then s.res1
  else if a = 0x02C then cfg0Word s.params
  else if a = 0x030 then BitVec.ofNat 32 s.params.maxTaps
  else if a = 0x034 then BitVec.ofNat 32 s.params.maxBlock
  else if a = 0x038 then BitVec.ofNat 32 s.params.dmemWords
  else if a = 0x03C then ctxvWord s
  else 0

/-- The answer of the port recorded by the host (R106, log 11). -/
def respond (data : Word) (error : Bool) (s : State) : State :=
  { s with responses := { data := data, error := error } :: s.responses }

/-- `HostRead(a, s)` (R211). A read changes none of the spec's state (R72); a DMEM read while `BUSY` = 1 returns the
next free value (R70, log 5). -/
def hostRead (a : Word) (size : Nat) (s : State) : Result :=
  if ¬accessLegal a size then .next (respond 0 true s)
  else if a.toNat < dmemBase then .next (respond (regRead s a.toNat) false s)
  else if a.toNat < dmemEnd s.params then
    if s.statusBusy then .next (respond (Config.busDraw s.draws) false { s with draws := s.draws + 1 })
    else
      match readWord s.mem a.toNat with
      | some w => .next (respond w false s)
      | none => .fault .uninitRead
  else .next (respond 0 true s)

/-- A write to the `CMD` register (R28). -/
def cmdWrite (v : Word) (s : State) : State :=
  if s.statusBusy then dropWrite s else issueCommand v s

/-- A write that `BUSY` = 1 drops (R70). -/
def unlessBusy (update : State → State) (s : State) : State :=
  if s.statusBusy then dropWrite s else update s

/-- A legal write below the DMEM window (R212): a register, or a read-only or unmapped offset, where it is ignored
(R39). -/
def regWrite (a : Nat) (v : Word) (s : State) : State :=
  if a = 0x004 then ctrlWrite v s
  else if a = 0x008 then statusWrite v s
  else if a = 0x00C then cmdWrite v s
  else if a = 0x010 then unlessBusy (fun s => { s with aSrc := v }) s
  else if a = 0x014 then unlessBusy (fun s => { s with aDst := v }) s
  else if a = 0x018 then unlessBusy (fun s => { s with aLen := v }) s
  else if a = 0x01C then unlessBusy (fun s => { s with aAux := v }) s
  else if a = 0x020 then unlessBusy (fun s => { s with aWlen := v }) s
  else s

/-- `HostWrite(a, s, v)` (R212). -/
def hostWrite (a : Word) (size : Nat) (v : Word) (s : State) : State :=
  if ¬accessLegal a size then respond 0 true s
  else if a.toNat < dmemBase then respond 0 false (refreshIrq (regWrite a.toNat v s))
  else if a.toNat < dmemEnd s.params then
    respond 0 false (refreshIrq (unlessBusy (fun s => setMem (writeWord s.mem a.toNat v) s) s))
  else respond 0 true s

/-- `Reset()` (R250) at any time after power-up: a pending command is abandoned and nothing of the spec's state keeps
its value. The model's own fields stay: the parameters, the environment's actions and record, the draw counter
(log 18). -/
def resetAction (s : State) : State :=
  { State.resetWith s.params with host := s.host, responses := s.responses, draws := s.draws }

/-- The actions to come after one round of an `await` (R106): the loop goes on while `BUSY` = 1. -/
def awaitNext (polls : Nat) (acts : List Action) (s : State) : List Action :=
  if s.statusBusy then .await (polls - 1) :: acts else acts

/-- A round of an `await` that reads `STATUS` (R106). -/
def pollStatus (s : State) : Result := hostRead 0x008 32 s

/-- The block steps in a round of an `await`: a command is pending and the polls before its step are over (log 13). -/
def awaitsBlock (polls : Nat) (s : State) : Bool := s.statusBusy && decide (polls = 0)

/-- The command word pending in `CMD` (R46), read by the decoder at the block step (R103, R213). -/
def pendingInstr (s : State) : Option Instr := decode s.cmd

/-- The environment gives the block the next turn: a turn is put first where the environment has actions to come; where
it has none the block moves anyway (log 8). -/
def blockTurnNext (s : State) : State :=
  match s.host with
  | [] => s
  | acts => { s with host := .block :: acts }

end Sys2Proof.Machine
end

