-- ==== Sys2Proof/Machine/Step.lean ====
section
/-! DEFINITION. One step of the system (R214): the environment's next action, or the block's move. -/

namespace Sys2Proof.Machine

/-- The block step (R213), for a state with `BUSY` = 1: the pending word is decoded and run; an illegal word completes
with ILLEGAL_CMD (R98). -/
def blockStep (s : State) : Host.Outcome State Fault Refusal :=
  match pendingInstr s with
  | some i => exec i s
  | none => raiseError .illegalCmd s

/-- A turn of the block: enabled exactly when `BUSY` = 1 (R213); while `BUSY` = 0 the block does nothing (R238). -/
def blockTurn (s : State) : Host.Outcome State Fault Refusal :=
  if s.statusBusy then blockStep s else .next s

/-- One step (R214): the first of the environment's coming actions, taken off the list; a turn of the block where the
list is empty (log 8). An `await` is one read of `STATUS` a step, and stays first while `BUSY` = 1 (R106). -/
def step (s : State) : Host.Outcome State Fault Refusal :=
  match s.host with
  | [] => blockTurn s
  | .block :: acts => blockTurn { s with host := acts }
  | .read a size :: acts => hostRead a size { s with host := acts }
  | .write a size v :: acts => .next (hostWrite a size v { s with host := acts })
  | .reset :: acts => .next (resetAction { s with host := acts })
  | .await polls :: acts =>
    if awaitsBlock polls s then blockTurn s else pollStatus { s with host := awaitNext polls acts s }

/-- The state in which the very next step runs the command word whose bits are `w`: the word is issued as an accepted
`CMD` write issues it (R28), and the block has the next turn. FIRCORE fetches no instruction (R103); log 9 says how a
program comes to run. -/
def State.withFetchWord (s : State) (nbits w : Nat) : State :=
  blockTurnNext (issueCommand (tableWord nbits w) s)

end Sys2Proof.Machine
end

