-- ==== Sys2Proof/Machine/Script.lean ====
section
/-! DEFINITION. Host scripts (R105 to R108): the host operations, the command pseudo-instructions, their expansion into
actions of the environment, and the reading of a script's text. -/

namespace Sys2Proof.Machine

/-- The register names of R23. -/
inductive Reg where
  | id
  | ctrl
  | status
  | cmd
  | aSrc
  | aDst
  | aLen
  | aAux
  | aWlen
  | res0
  | res1
  | cfg0
  | cfgMaxTaps
  | cfgMaxBlock
  | cfgDmemWords
  | ctxv
deriving DecidableEq, Repr

/-- The offset of a register (R23). -/
def Reg.offset : Reg → Word
  | .id => 0x000
  | .ctrl => 0x004
  | .status => 0x008
  | .cmd => 0x00C
  | .aSrc => 0x010
  | .aDst => 0x014
  | .aLen => 0x018
  | .aAux => 0x01C
  | .aWlen => 0x020
  | .res0 => 0x024
  | .res1 => 0x028
  | .cfg0 => 0x02C
  | .cfgMaxTaps => 0x030
  | .cfgMaxBlock => 0x034
  | .cfgDmemWords => 0x038
  | .ctxv => 0x03C

/-- The register a name stands for (R23, R105). -/
def Reg.ofName (name : String) : Option Reg :=
  if name = "ID" then some .id
  else if name = "CTRL" then some .ctrl
  else if name = "STATUS" then some .status
  else if name = "CMD" then some .cmd
  else if name = "A_SRC" then some .aSrc
  else if name = "A_DST" then some .aDst
  else if name = "A_LEN" then some .aLen
  else if name = "A_AUX" then some .aAux
  else if name = "A_WLEN" then some .aWlen
  else if name = "RES0" then some .res0
  else if name = "RES1" then some .res1
  else if name = "CFG0" then some .cfg0
  else if name = "CFG_MAXTAPS" then some .cfgMaxTaps
  else if name = "CFG_MAXBLOCK" then some .cfgMaxBlock
  else if name = "CFG_DMEMWORDS" then some .cfgDmemWords
  else if name = "CTXV" then some .ctxv
  else none

/-- A real number of a script, ± num / den (R106). -/
structure RealLit where
  neg : Bool
  num : Nat
  den : Nat
deriving DecidableEq, Repr

/-- The host operations of R106. -/
inductive HostOp where
  | wr (r : Reg) (v : Word)
  | rd (r : Reg)
  | wrf (e : Nat) (x : RealLit)
  | rdf (e : Nat)
  | wait
  | ack
  | cmd (w : Word)
deriving DecidableEq, Repr

/-- The command pseudo-instructions of R107. -/
inductive Pseudo where
  | nop
  | dsgn (t : FilterType) (norm : Bool) (dst win n cut : Word) (wlen : Option Word)
  | dirInit (ctx taps m : Word)
  | dirApply (ctx dst src n : Word)
  | dirRel (ctx : Word)
  | olaInit (ctx taps m breq : Word)
  | olaApply (ctx dst src n : Word)
  | olaRel (ctx : Word)
deriving DecidableEq, Repr

/-- The opcode of a design command (R95). -/
def FilterType.op : FilterType → Word
  | .lp => 0x01
  | .hp => 0x02
  | .bp => 0x03
  | .bs => 0x04

/-- The command word of a pseudo-instruction (R107). DESIGN CHOICE (log 25): of a `ctx` of 2^24 or more, for which `ctx<<8`
does not fit the word, the bits above bit 31 of the shifted value are dropped. -/
def Pseudo.word : Pseudo → Word
  | .nop => 0x00000000
  | .dsgn t norm _ _ _ _ _ => if norm then t.op ||| 0x1000 else t.op
  | .dirInit ctx _ _ => 0x10 ||| ctx <<< 8
  | .dirApply ctx _ _ _ => 0x11 ||| ctx <<< 8
  | .dirRel ctx => 0x12 ||| ctx <<< 8
  | .olaInit ctx _ _ _ => 0x20 ||| ctx <<< 8
  | .olaApply ctx _ _ _ => 0x21 ||| ctx <<< 8
  | .olaRel ctx => 0x22 ||| ctx <<< 8

/-- The registers a pseudo-instruction writes, in the order of R108. -/
def Pseudo.registers : Pseudo → List (Reg × Word)
  | .nop => []
  | .dsgn _ _ dst win n cut wlen =>
    [(.aSrc, win), (.aDst, dst), (.aLen, n), (.aAux, cut), (.aWlen, wlen.getD n)]
  | .dirInit _ taps m => [(.aSrc, taps), (.aLen, m)]
  | .dirApply _ dst src n => [(.aSrc, src), (.aDst, dst), (.aLen, n)]
  | .dirRel _ => []
  | .olaInit _ taps m breq => [(.aSrc, taps), (.aLen, m), (.aAux, breq)]
  | .olaApply _ dst src n => [(.aSrc, src), (.aDst, dst), (.aLen, n)]
  | .olaRel _ => []

/-- The expansion of a pseudo-instruction into host operations (R108). -/
def Pseudo.expand (c : Pseudo) : List HostOp :=
  .wait :: c.registers.map (fun rv => .wr rv.1 rv.2) ++ [.wr .cmd c.word, .wait]

/-- The host address of DMEM element `e` (R62). DESIGN CHOICE (log 22): an address of 2^32 or more, which R106 does not
speak of, keeps its low 32 bits. -/
def elemAddrWord (f : Fmt) (e : Nat) : Word := BitVec.ofNat 32 (elemAddr f e)

/-- A 32-bit host write. -/
def writeAction (a v : Word) : Action := .write a 32 v

/-- A 32-bit host read. -/
def readAction (a : Word) : Action := .read a 32

/-- The actions of a host operation (R106), no block step among them; `wait` is the loop `await`, whose number of polls the
schedule sets. DESIGN CHOICE (log 21): `wrf` of a real zero written with a minus sign writes −0. -/
def HostOp.actions (f : Fmt) : HostOp → List Action
  | .wr r v => [writeAction r.offset v]
  | .rd r => [readAction r.offset]
  | .wrf e x =>
    let v := fpOfRatio f x.neg x.num x.den
    match f with
    | .binary32 => [writeAction (elemAddrWord f e) (v.extractLsb' 0 32)]
    | .binary64 =>
      [writeAction (elemAddrWord f e) (v.extractLsb' 0 32), writeAction (elemAddrWord f e + 4) (v.extractLsb' 32 32)]
  | .rdf e =>
    match f with
    | .binary32 => [readAction (elemAddrWord f e)]
    | .binary64 => [readAction (elemAddrWord f e), readAction (elemAddrWord f e + 4)]
  | .wait => [.await 0]
  | .ack => [writeAction Reg.status.offset 0x6]
  | .cmd w => [writeAction Reg.cmd.offset w]

/-- A schedule's number of polls put into an `await`. -/
def Action.withPolls (polls : Nat) : Action → Action
  | .await _ => .await polls
  | .read a size => .read a size
  | .write a size v => .write a size v
  | .block => .block
  | .reset => .reset

/-- The host's actions from number `k` on, interleaved with block steps (R214): the block has a turn before action `k` where
`turn k` says so, and an `await` at `k` finds `BUSY` = 1 in `polls k` reads before the block steps. One pending command has
one block step, so that these are all the interleavings. -/
def scheduled (turn : Nat → Bool) (polls : Nat → Nat) : Nat → List Action → List Action
  | _, [] => []
  | k, a :: acts =>
    (if turn k then [.block] else []) ++ a.withPolls (polls k) :: scheduled turn polls (k + 1) acts

/-- A line of a script (R105): a host operation or a pseudo-instruction, or (DESIGN CHOICE, log 23) neither. -/
inductive Line where
  | blank
  | op (o : HostOp)
  | command (c : Pseudo)
deriving DecidableEq, Repr

/-- The host operations of a line. -/
def Line.ops : Line → List HostOp
  | .blank => []
  | .op o => [o]
  | .command c => c.expand

/-- The actions of a script (R105 to R108) under a schedule of the block's steps and the polls (R214, log 13). -/
def scriptActions (f : Fmt) (turn : Nat → Bool) (polls : Nat → Nat) (lines : List Line) : List Action :=
  scheduled turn polls 0 ((lines.flatMap Line.ops).flatMap (HostOp.actions f))

/-! ### The text of a script (R105) -/

/-- The pieces of a text between occurrences of a character. -/
def splitChars (sep : Char) : List Char → List (List Char)
  | [] => [[]]
  | c :: cs =>
    if c = sep then [] :: splitChars sep cs
    else
      match splitChars sep cs with
      | [] => [[c]]
      | piece :: pieces => (c :: piece) :: pieces

/-- The text before the comment sign `;` (R105). -/
def stripComment (cs : List Char) : List Char := cs.takeWhile (· ≠ ';')

/-- A blank or a tab. -/
def isBlank (c : Char) : Bool := c = ' ' || c = '\t'

/-- The text without blanks at its ends. -/
def trimChars (cs : List Char) : List Char :=
  ((cs.dropWhile isBlank).reverse.dropWhile isBlank).reverse

/-- The value of a digit, decimal or hexadecimal. -/
def digitValue (c : Char) : Nat :=
  if '0' ≤ c ∧ c ≤ '9' then c.toNat - '0'.toNat
  else if 'a' ≤ c ∧ c ≤ 'f' then c.toNat - 'a'.toNat + 10
  else if 'A' ≤ c ∧ c ≤ 'F' then c.toNat - 'A'.toNat + 10
  else 16

/-- The number digits stand for in a base, `none` where one is no digit of it or there is none. -/
def parseDigits (base : Nat) (cs : List Char) : Option Nat :=
  if cs.isEmpty || !cs.all (fun c => decide (digitValue c < base)) then none
  else some (cs.foldl (fun n c => n * base + digitValue c) 0)

/-- A number: decimal, or hexadecimal with `0x` (R105). -/
def parseNat (cs : List Char) : Option Nat :=
  match cs with
  | '0' :: 'x' :: hex => parseDigits 16 hex
  | _ => parseDigits 10 cs

/-- A number that fits a register. DESIGN CHOICE (log 24): a larger one makes its line no line of the syntax. -/
def parseWord (cs : List Char) : Option Word :=
  (parseNat cs).bind fun n => if n < 2 ^ 32 then some (BitVec.ofNat 32 n) else none

/-- A real number: a number of R105, decimal or hexadecimal with `0x`. DESIGN CHOICE (log 19), since R106 gives real
numbers no written form: a minus sign may stand before it, and a decimal one may have a point with decimal digits
after it. -/
def parseReal (cs : List Char) : Option RealLit :=
  let neg := cs.head? = some '-'
  match splitChars '.' (if neg then cs.drop 1 else cs) with
  | [whole] => (parseNat whole).map fun n => { neg := neg, num := n, den := 1 }
  | [whole, frac] =>
    match parseDigits 10 whole, parseDigits 10 frac with
    | some n, some m => some { neg := neg, num := n * 10 ^ frac.length + m, den := 10 ^ frac.length }
    | _, _ => none
  | _ => none

/-- The filter type and the normalization of a design mnemonic (R107). -/
def parseDesign (name : String) : Option (FilterType × Bool) :=
  if name = "dsgn.lp" then some (.lp, false)
  else if name = "dsgn.hp" then some (.hp, false)
  else if name = "dsgn.bp" then some (.bp, false)
  else if name = "dsgn.bs" then some (.bs, false)
  else if name = "dsgn.lp.n" then some (.lp, true)
  else if name = "dsgn.hp.n" then some (.hp, true)
  else if name = "dsgn.bp.n" then some (.bp, true)
  else if name = "dsgn.bs.n" then some (.bs, true)
  else none

/-- A host operation from its name and operands (R106). -/
def parseHostOp (name : String) (args : List (List Char)) : Option HostOp :=
  match args with
  | [] => if name = "wait" then some .wait else if name = "ack" then some .ack else none
  | [a] =>
    if name = "rd" then (Reg.ofName (String.ofList a)).map HostOp.rd
    else if name = "rdf" then (parseNat a).map HostOp.rdf
    else if name = "cmd" then (parseWord a).map HostOp.cmd
    else none
  | [a, b] =>
    if name = "wr" then
      match Reg.ofName (String.ofList a), parseWord b with
      | some r, some v => some (.wr r v)
      | _, _ => none
    else if name = "wrf" then
      match parseNat a, parseReal b with
      | some e, some x => some (.wrf e x)
      | _, _ => none
    else none
  | _ => none

/-- A pseudo-instruction from its name and operands, in the operand order of R107. -/
def parsePseudo (name : String) (args : List Word) : Option Pseudo :=
  match args with
  | [] => if name = "nop" then some .nop else none
  | [ctx] =>
    if name = "dir.rel" then some (.dirRel ctx) else if name = "ola.rel" then some (.olaRel ctx) else none
  | [ctx, taps, m] =>
    if name = "dir.init" then some (.dirInit ctx taps m)
    else if name = "ola.init" then some (.olaInit ctx taps m 0)
    else none
  | [a, b, c, d] =>
    if name = "dir.apply" then some (.dirApply a b c d)
    else if name = "ola.apply" then some (.olaApply a b c d)
    else if name = "ola.init" then some (.olaInit a b c d)
    else (parseDesign name).map fun tn => .dsgn tn.1 tn.2 a b c d none
  | [a, b, c, d, e] => (parseDesign name).map fun tn => .dsgn tn.1 tn.2 a b c d (some e)
  | _ => none

/-- One line of a script's text (R105), `none` where it is no line of the syntax. DESIGN CHOICE (log 23): R105 does not say
how a name and its operands are set apart, nor speaks of a line that is blank or nothing but a comment, which is read
as a line without an operation. -/
def parseLine (text : List Char) : Option Line :=
  let body := trimChars (stripComment text)
  let name := body.takeWhile (fun c => !isBlank c)
  let rest := trimChars (body.drop name.length)
  let args := if rest.isEmpty then [] else (splitChars ',' rest).map trimChars
  if body.isEmpty then some .blank
  else
    match parseHostOp (String.ofList name) args with
    | some o => some (.op o)
    | none => ((args.mapM parseWord).bind (parsePseudo (String.ofList name))).map Line.command

/-- A script's text, line by line (R105). -/
def parseScript (text : String) : Option (List Line) :=
  (splitChars '\n' text.toList).mapM parseLine

end Sys2Proof.Machine
end

