-- ==== Sys2Proof/Safety.lean ====
section
/-! DEFINITION. What holds of every state a run can reach, and the terms the statements are written in: the invariant of
the machine, illegal words (R98, R99), the checks of R226, the logical history (R42) and the reference sum (R160). -/

namespace Sys2Proof.Machine

/-! ### The invariant -/

/-- Every value of a list is a pattern of the format (R40). -/
def allInWidth (f : Fmt) (vs : List Val) : Bool := vs.all (fpInWidth f)

/-- The legal values of a direct context (R41): nothing is asked of one that is not valid. -/
def dirCtxOK (p : Params) (c : DirCtx Val) : Bool :=
  !c.valid ||
    (decide (1 ≤ c.m) && decide (c.m ≤ p.maxTaps) && decide (c.taps.length = c.m) &&
      decide (c.ring.length = c.m - 1) && decide (c.cursor ≤ c.m - 2) &&
      allInWidth p.fmt c.taps && allInWidth p.fmt c.ring)

/-- The legal values of an overlap-add context (R43, R44): nothing is asked of one that is not valid. -/
def olaCtxOK (p : Params) (c : OlaCtx Val) : Bool :=
  !c.valid ||
    (decide (1 ≤ c.m) && decide (c.m ≤ p.maxTaps) && isPow2 c.b && decide (2 * c.m ≤ c.b) &&
      decide (c.b ≤ p.maxBlock) && decide (c.l = c.b - c.m + 1) && decide (c.taps.length = c.b) &&
      (c.taps.drop c.m).all (· == fpZero) && decide (c.inbuf.length = c.l) && decide (c.fill < c.l) &&
      decide (c.tail.length = c.m - 1) &&
      allInWidth p.fmt c.taps && allInWidth p.fmt c.inbuf && allInWidth p.fmt c.tail)

/-- Every listed byte lies in the DMEM window (R61), and the word it belongs to is listed whole: written-ness is per
32-bit word (R80). -/
def memWhole (p : Params) (m : Memory) : Bool :=
  m.all fun c =>
    decide (dmemBase ≤ c.1) && decide (c.1 < dmemEnd p) && (readWord m (c.1 / 4 * 4)).isSome

/-- The invariant of the machine. -/
structure StateInv (s : State) : Prop where
  /-- The parameters are legal (R6). -/
  params : s.params.legal = true
  /-- DMEM has its canonical form. -/
  sorted : memSorted s.mem = true
  /-- DMEM lies in its window and its words are whole (R61, R80). -/
  whole : memWhole s.params s.mem = true
  /-- There are `NCTX_DIR` direct contexts (R41). -/
  dirCount : s.dir.length = s.params.nctxDir
  /-- There are `NCTX_OLA` overlap-add contexts (R43). -/
  olaCount : s.ola.length = s.params.nctxOla
  /-- Every direct context is legal (R41). -/
  dirOK : s.dir.all (dirCtxOK s.params) = true
  /-- Every overlap-add context is legal (R43, R44). -/
  olaOK : s.ola.all (olaCtxOK s.params) = true
  /-- `irq = CTRL.IE ∧ STATUS.DONE` (R47). -/
  irqLevel : s.irq = (s.ctrlIe && s.statusDone)
  /-- `DONE` and `ERR` are 0 while `BUSY` = 1 (R26, R28). -/
  busyClear : s.statusBusy = true → s.statusDone = false ∧ s.statusErr = .ok

/-! ### Terms of the statements -/

/-- A state whose next move is the block's (R214): no action of the environment stands before it, or the polls of an `await`
before the block's step are over. `acts` are the actions that come after. -/
def BlocksTurn (s : State) (acts : List Action) : Prop :=
  (s.host = [] ∧ acts = []) ∨ s.host = .block :: acts ∨
    ∃ rest, s.host = .await 0 :: rest ∧ s.statusBusy = true ∧ acts = s.host

/-- The illegal words of R98 and R99, in the numbers of the word's fields (R90). -/
def IllegalWord (p : Params) (w : Word) : Prop :=
  let op := w.toNat % 256
  let ctx := w.toNat / 256 % 16
  let norm := w.toNat / 4096 % 2
  w.toNat / 8192 ≠ 0 ∨
    op ∉ [0x00, 0x01, 0x02, 0x03, 0x04, 0x10, 0x11, 0x12, 0x20, 0x21, 0x22] ∨
    (norm = 1 ∧ op ∉ [0x01, 0x02, 0x03, 0x04]) ∨
    (ctx ≠ 0 ∧ op ∈ [0x00, 0x01, 0x02, 0x03, 0x04]) ∨
    (op ∈ [0x10, 0x11, 0x12] ∧ p.nctxDir ≤ ctx) ∨
    (op ∈ [0x20, 0x21, 0x22] ∧ p.nctxOla ≤ ctx)

/-- `v[i]` of R130: the ideal response of R126 to R129 at tap `i`, times the window value. -/
def weightedTap (f : Fmt) (sin : Val → Val) (nan : Nat → Nat → Val) (t : FilterType) (n : Nat) (w fc : List Val)
    (i : Nat) : Val :=
  let draw := nan i 0
  let lp (c : Val) := lowpassTerm f sin draw c (tapOffset f n i)
  let delta := if 2 * i = n - 1 then fpOne f else fpZero
  let h := match t with
    | .lp => lp (fc.getD 0 fpZero)
    | .hp => fpSub f draw delta (lp (fc.getD 0 fpZero))
    | .bp => fpSub f draw (lp (fc.getD 1 fpZero)) (lp (fc.getD 0 fpZero))
    | .bs => fpSub f draw delta (fpSub f draw (lp (fc.getD 1 fpZero)) (lp (fc.getD 0 fpZero)))
  fpMul f draw h (w.getD i fpZero)

/-- R131: `S i` is the divisor's sum over the taps `v 0` to `v i` of a design of `n` taps: the plain sum for lowpass and
bandpass, the alternating-sign sum with + where `i - ⌊(n - 1)/2⌋` is even for highpass and bandstop, in index order. The
divisor is `S (n - 1)`. -/
def DivisorSums (f : Fmt) (nan : Nat → Nat → Val) (t : FilterType) (n : Nat) (v S : Nat → Val) : Prop :=
  let even (i : Nat) : Prop := ((i : Int) - ((n - 1) / 2 : Nat)) % 2 = 0
  match t with
  | .lp | .bp => S 0 = v 0 ∧ ∀ i, i + 1 < n → S (i + 1) = fpAdd f (nan (i + 1) 1) (S i) (v (i + 1))
  | .hp | .bs =>
    (even 0 → S 0 = v 0) ∧ (¬even 0 → S 0 = fpNeg f (v 0)) ∧
      ∀ i, i + 1 < n →
        (even (i + 1) → S (i + 1) = fpAdd f (nan (i + 1) 1) (S i) (v (i + 1))) ∧
        (¬even (i + 1) → S (i + 1) = fpSub f (nan (i + 1) 1) (S i) (v (i + 1)))

/-- The state after the block step of a command that changed nothing else: `ERR` holds `e`, `BUSY` is 0, `DONE` is 1 and
`irq` follows (R222, R223). -/
def completed (e : ErrCode) (s : State) : State :=
  { s with statusErr := e, statusBusy := false, statusDone := true, irq := s.ctrlIe, draws := s.draws + 1 }

/-- The design command of a filter type. -/
def designInstr (t : FilterType) (norm : Bool) : Instr :=
  match t with
  | .lp => .dsgnLp norm
  | .hp => .dsgnHp norm
  | .bp => .dsgnBp norm
  | .bs => .dsgnBs norm

/-- The taps a design computes in state `s` from a window and cutoffs. -/
def stateTaps (s : State) (t : FilterType) (norm : Bool) (w fc : List Val) : Option (List Val) :=
  designTaps s.params.fmt (sinF s.params.fmt) (nanDraws s) t norm (lenCount s) w fc

/-- The three ranges of a design lie in DMEM (R120). -/
def designRangesOK (s : State) (t : FilterType) : Bool :=
  rangeOK s.params (srcIndex s) (lenCount s) && rangeOK s.params (auxIndex s) (cutoffCount t) &&
    rangeOK s.params (dstIndex s) (lenCount s)

/-- R121 on the values of the cutoffs: none is a NaN, each lies between 0 and 0.5 without either, and the low one of a band
type is less than the high one. A value is a number of units of 2^(−scale), so that 0.5 is half of 2^scale, and an
infinity counts as a power of two above every finite value. -/
def cutoffsLegal (f : Fmt) (t : FilterType) (fc : List Val) : Bool :=
  let inside (c : Val) : Bool :=
    !fpIsNaN f c && decide (0 < fpInt f c) && decide (2 * fpInt f c < (2 ^ f.scale : Nat))
  let fl := fc.getD 0 fpZero
  let fh := fc.getD 1 fpZero
  match t with
  | .lp | .hp => inside fl
  | .bp | .bs => inside fl && inside fh && decide (fpInt f fl < fpInt f fh)

/-- R9, D3: `r` is the value num/den of units of 2^(−scale), rounded to nearest: no finite value of the format is nearer, of two
equally near the one with an even last bit, an infinity exactly from half a unit above the largest finite value on. It
has the sign of the exact value, or `zeroNeg` where that is zero. -/
def RoundsTo (f : Fmt) (num : Int) (den : Nat) (zeroNeg : Bool) (r : Val) : Prop :=
  let distance (x : Val) : Nat := (fpInt f x * den - num).natAbs
  fpInWidth f r = true ∧ fpIsNaN f r = false ∧
    fpSign f r = (if num = 0 then zeroNeg else decide (num < 0)) ∧
    (fpIsInf f r = true ↔ (magOfBits f (f.infBits - 1) + magOfBits f f.infBits) * den ≤ 2 * num.natAbs) ∧
    (fpIsFinite f r = true → ∀ c, fpIsFinite f c = true →
      distance r ≤ distance c ∧ (distance c = distance r → fpInt f c ≠ fpInt f r → fpAbs f r % 2 = 0))

/-- The checks of a design after ILLEGAL_CMD, in the order of R226; the last two read DMEM. -/
def designChecks (t : FilterType) (norm : Bool) (s : State) : List (ErrCode × Bool) :=
  [(.emptyInput, decide (lenCount s = 0)),
   (.lengthMismatch, decide (wlenCount s ≠ lenCount s)),
   (.addressRange, !designRangesOK s t),
   (.invalidSpec,
    match readSrc s (lenCount s), readAux s (cutoffCount t) with
    | some _, some fc => !cutoffsLegal s.params.fmt t fc
    | _, _ => false),
   (.numericDegeneracy,
    match readSrc s (lenCount s), readAux s (cutoffCount t) with
    | some w, some fc => (stateTaps s t norm w fc).isNone
    | _, _ => false)]

/-- The checks of a command in the order of R226, each with whether it fails in state `s`. -/
def commandChecks (i : Instr) (s : State) : List (ErrCode × Bool) :=
  (.illegalCmd, !i.wellFormed s.params) ::
  match i with
  | .nop => []
  | .dsgnLp norm => designChecks .lp norm s
  | .dsgnHp norm => designChecks .hp norm s
  | .dsgnBp norm => designChecks .bp norm s
  | .dsgnBs norm => designChecks .bs norm s
  | .dirInit _ =>
    [(.emptyInput, decide (lenCount s = 0)),
     (.capacity, decide (s.params.maxTaps < lenCount s)),
     (.addressRange, !rangeOK s.params (srcIndex s) (lenCount s))]
  | .dirApply ctx =>
    [(.notConfigured, !(dirCtx s ctx.toNat).valid),
     (.addressRange, !rangeOK s.params (srcIndex s) (lenCount s) || !rangeOK s.params (dstIndex s) (lenCount s))]
  | .dirRel _ => []
  | .olaInit _ =>
    [(.emptyInput, decide (lenCount s = 0)),
     (.capacity, decide (s.params.maxTaps < lenCount s)),
     (.capacity, decide (s.params.maxBlock < blockSize (lenCount s) (auxIndex s))),
     (.addressRange, !rangeOK s.params (srcIndex s) (lenCount s))]
  | .olaApply ctx =>
    [(.notConfigured, !(olaCtx s ctx.toNat).valid),
     (.addressRange,
      !rangeOK s.params (srcIndex s) (lenCount s) ||
        !rangeOK s.params (dstIndex s) (olaOutCount (olaCtx s ctx.toNat) (lenCount s)))]
  | .olaRel _ => []

/-- The error the first failing check reports (R226). -/
def firstFailure : List (ErrCode × Bool) → Option ErrCode
  | [] => none
  | (e, failed) :: rest => if failed then some e else firstFailure rest

/-- The host byte addresses of the `n` DMEM elements from index `e` on (R62). -/
def ElemBytes (f : Fmt) (e n a : Nat) : Prop := elemAddr f e ≤ a ∧ a < elemAddr f (e + n)

/-- Every element of DMEM has been written. -/
def DmemWritten (s : State) : Prop :=
  ∀ e, e < s.params.dmemWords → (readElem s.params.fmt s.mem e).isSome = true

/-- Equal values, or two NaNs: what two runs agree on when the payload of a NaN is drawn (D3). -/
def SameValue (f : Fmt) (a b : Val) : Prop := a = b ∨ (fpIsNaN f a = true ∧ fpIsNaN f b = true)

/-- The logical history of a direct context, oldest first (R42). -/
def history {α : Type} (zero : α) (c : DirCtx α) : List α :=
  (List.range (c.m - 1)).map fun i => c.ring.getD ((c.cursor + i) % (c.m - 1)) zero

/-- The trailing `n` values of a list (R11). -/
def lastValues {α : Type} (n : Nat) (xs : List α) : List α := xs.drop (xs.length - n)

/-- The sum of R160 for output `k`, evaluated in the order of R163: taps `T`, and `X` the history followed by the
input, so that `X[k]` of R160 stands at `T.length - 1 + k`. -/
def referenceOutput {α : Type} (A : Arith α) (T X : List α) (k : Nat) : α :=
  ((List.range (T.length - 1)).map (· + 1)).foldl
    (fun acc j => A.add k j acc (A.mul k j (T.getD j A.zero) (X.getD (T.length - 1 + k - j) A.zero)))
    (A.mul k 0 (T.getD 0 A.zero) (X.getD (T.length - 1 + k) A.zero))

/-- The exact circular convolution as a transform-domain convolution of integers (R184, R193). -/
def exactConv (T P : List Int) : List Int := (List.range T.length).map (circConv T P)

/-- Consecutive `DIR_APPLY` calls on one context (R168), call number `q` next: `nans q` are the free values of call `q`. -/
def dirCalls (f : Fmt) (nans : Nat → Nat → Nat → Val) : Nat → DirCtx Val → List (List Val) → DirCtx Val × List Val
  | _, c, [] => (c, [])
  | q, c, xs :: calls =>
    let r := dirStream (fpArith f (nans q)) 0 c xs
    let r' := dirCalls f nans (q + 1) r.1 calls
    (r'.1, r.2 ++ r'.2)

/-- Consecutive `OLA_APPLY` calls on one context (R195, R196), call number `q` next. -/
def olaCalls (f : Fmt) (nans : Nat → Nat → Nat → Val) : Nat → OlaCtx Val → List (List Val) → OlaCtx Val × List Val
  | _, c, [] => (c, [])
  | q, c, xs :: calls =>
    let r := olaStream (fpArith f (nans q)) (xconv f) 0 c xs
    let r' := olaCalls f nans (q + 1) r.1 calls
    (r'.1, r.2 ++ r'.2)

/-- The direct context a command names (R92). -/
def dirTarget : Instr → Option Nat
  | .dirInit ctx => some ctx.toNat
  | .dirApply ctx => some ctx.toNat
  | .dirRel ctx => some ctx.toNat
  | .nop | .dsgnLp _ | .dsgnHp _ | .dsgnBp _ | .dsgnBs _ | .olaInit _ | .olaApply _ | .olaRel _ => none

/-- The overlap-add context a command names (R92). -/
def olaTarget : Instr → Option Nat
  | .olaInit ctx => some ctx.toNat
  | .olaApply ctx => some ctx.toNat
  | .olaRel ctx => some ctx.toNat
  | .nop | .dsgnLp _ | .dsgnHp _ | .dsgnBp _ | .dsgnBs _ | .dirInit _ | .dirApply _ | .dirRel _ => none

/-- The value a pseudo-instruction leaves in a register that holds `old` (R107). -/
def registerAfter (c : Pseudo) (r : Reg) (old : Word) : Word := (c.registers.lookup r).getD old

/-- An access of the host port: a read or a write. -/
def Action.isAccess : Action → Bool
  | .read _ _ => true
  | .write _ _ _ => true
  | .block => false
  | .reset => false
  | .await _ => false

end Sys2Proof.Machine
end

