-- ==== Sys2Proof/Certificates/Slice0/Obligations.lean ====
section
/-! DEFINITION. What is claimed of this machine, for the provers. Each docstring names the rules it formalises. -/

open Sys2Proof Sys2Proof.Machine

/-! ### Encoding -/

/-- A word decodes to a command exactly when it is that command's encoding (R90, R94, R95, R102): no bit of an encoding
is dropped and no second word stands for a command. -/
def Obligations.DecodeInvertsEncode : Prop :=
  ∀ (w : Word) (i : Instr), decode w = some i ↔ encode i = w

/-- The decoder of R102 answers ILLEGAL for exactly the words R98 and R99 call illegal. -/
def Obligations.DecoderRefusesExactlyIllegalWords : Prop :=
  ∀ (p : Params) (w : Word), decodeFor p w = none ↔ IllegalWord p w

/-- Words written out from the table of R95. -/
def Obligations.CommandWordsDecode : Prop :=
  decode 0x00000000 = some .nop ∧ decode 0x00001001 = some (.dsgnLp true) ∧ decode 0x00000004 = some (.dsgnBs false) ∧
    decode 0x00000111 = some (.dirApply 1) ∧ decode 0x00000F20 = some (.olaInit 15) ∧
    decode 0x00000022 = some (.olaRel 0)

/-! ### The step -/

/-- R213, R214 (the list of turns is the model's own field, log 8): on the block's turn with a command pending, the step is the
decoded command's execution; a turn is taken off the environment's list and nothing else is added. -/
def Obligations.StepRunsDecodedCommand : Prop :=
  ∀ (s : State) (acts : List Action) (i : Instr), s.statusBusy = true → BlocksTurn s acts → decode s.cmd = some i →
    step s = exec i { s with host := acts }

/-- R98, R99: a pending illegal word completes with ILLEGAL_CMD and no other effect; a legal one never reports it. -/
def Obligations.IllegalWordCompletesWithIllegalCmd : Prop :=
  ∀ (s : State) (acts : List Action), s.statusBusy = true → BlocksTurn s acts →
    (IllegalWord s.params s.cmd → step s = .next (completed .illegalCmd { s with host := acts })) ∧
    (¬IllegalWord s.params s.cmd → ∀ t, step s = .next t → t.statusErr ≠ .illegalCmd)

/-- R213, R238: while `BUSY` is 0 the block does nothing. -/
def Obligations.IdleBlockDoesNothing : Prop :=
  ∀ (s : State) (acts : List Action), s.statusBusy = false → BlocksTurn s acts → step s = .next { s with host := acts }

/-- Every step keeps the invariant: the canonical and whole-word form of DMEM (R61, R80), the legal values of every context
(R41, R43, R44), `irq = CTRL.IE ∧ STATUS.DONE` (R47) and clear `DONE` and `ERR` while `BUSY` is 1 (R26). -/
def Obligations.StepKeepsInvariant : Prop :=
  ∀ s t : State, StateInv s → step s = .next t → StateInv t

/-- The invariant holds right after reset, for every legal choice of the parameters and for the model's own (log 1). -/
def Obligations.ResetHasInvariant : Prop :=
  (∀ p : Params, p.legal = true → StateInv (State.resetWith p)) ∧ StateInv State.reset

/-- No step changes the parameters, and a step takes the first of the environment's actions, but for an `await` while `BUSY`
is 1, which stays with one poll less (R106, R214; the model's own fields, logs 1, 8 and 13). -/
def Obligations.StepConsumesOneAction : Prop :=
  ∀ s t : State, step s = .next t → t.params = s.params ∧
    t.host = match s.host with
      | .await n :: acts => if s.statusBusy then .await (n - 1) :: acts else acts
      | acts => acts.tail

/-- R250: what a reset leaves, from any state, a pending command included. That the coming actions and the parameters are
kept is log 18's choice, and that `CFG_MAXTAPS` reads the low 32 bits of a `MAX_TAPS` of 2^32 or more is log 12's. -/
def Obligations.ResetClearsTheMachine : Prop :=
  ∀ (s : State) (acts : List Action), s.host = .reset :: acts →
    ∃ t, step s = .next t ∧ t.host = acts ∧ t.params = s.params ∧
      ctrlWord t = 0 ∧ statusWord t = 0 ∧ t.statusBusy = false ∧ t.cmd = 0 ∧
      t.aSrc = 0 ∧ t.aDst = 0 ∧ t.aLen = 0 ∧ t.aAux = 0 ∧ t.aWlen = 0 ∧ t.res0 = 0 ∧ t.res1 = 0 ∧
      (∀ d, (dirCtx t d).valid = false) ∧ (∀ o, (olaCtx t o).valid = false) ∧
      (∀ a, memGet t.mem a = none) ∧ t.irq = false ∧
      regRead t 0x000 = 0x4B465231 ∧ regRead t 0x02C = cfg0Word s.params ∧
      regRead t 0x030 = BitVec.ofNat 32 s.params.maxTaps ∧ regRead t 0x034 = BitVec.ofNat 32 s.params.maxBlock ∧
      regRead t 0x038 = BitVec.ofNat 32 s.params.dmemWords ∧ regRead t 0x03C = 0

/-! ### The host port -/

/-- R65, R66, R240: an access of another width, at an address not a multiple of 4 or beyond the DMEM window changes no
state of FIRCORE, and a read answers 0 with an error (the record of the answer is the model's own field, log 11). -/
def Obligations.BusErrorsChangeNothing : Prop :=
  ∀ (s : State) (acts : List Action) (a : Word) (size : Nat) (v : Word),
    (size ≠ 32 ∨ a.toNat % 4 ≠ 0 ∨ 0x10000 + s.params.dmemWords * s.params.fmt.ew ≤ a.toNat) →
    (s.host = .read a size :: acts →
      step s = .next { s with host := acts, responses := { data := 0, error := true } :: s.responses }) ∧
    (s.host = .write a size v :: acts →
      step s = .next { s with host := acts, responses := { data := 0, error := true } :: s.responses })

/-- R241 (R70, R256): while `BUSY` is 1 a write to `CMD`, an argument register or DMEM is dropped and sets `HAZ`, and
nothing else of the state changes, the pending command and its error code among it. -/
def Obligations.BusyWritesAreDropped : Prop :=
  ∀ (s : State) (acts : List Action) (a v : Word), StateInv s → s.statusBusy = true →
    (a.toNat ∈ [0x00C, 0x010, 0x014, 0x018, 0x01C, 0x020] ∨
      (a.toNat % 4 = 0 ∧ 0x10000 ≤ a.toNat ∧ a.toNat < 0x10000 + s.params.dmemWords * s.params.fmt.ew)) →
    s.host = .write a 32 v :: acts →
    step s = .next { s with host := acts, statusHaz := true, responses := { data := 0, error := false } :: s.responses }

/-- R70, R257: while `BUSY` is 1 a read of a DMEM word answers a free value, whatever it is (log 5), and changes nothing
of the spec's state. -/
def Obligations.BusyDmemReadAnswersFreeValue : Prop :=
  ∀ (s : State) (acts : List Action) (a : Word), s.statusBusy = true → a.toNat % 4 = 0 → 0x10000 ≤ a.toNat →
    a.toNat < 0x10000 + s.params.dmemWords * s.params.fmt.ew → s.host = .read a 32 :: acts →
    ∃ x, step s = .next { s with
      host := acts, draws := s.draws + 1, responses := { data := x, error := false } :: s.responses }

/-- R72: no host read has a side effect on the spec's state: what changes are the model's own fields. -/
def Obligations.ReadsHaveNoSideEffect : Prop :=
  ∀ (s t : State) (acts : List Action) (a : Word) (size : Nat), s.host = .read a size :: acts → step s = .next t →
    ∃ x e n, t = { s with host := acts, draws := n, responses := { data := x, error := e } :: s.responses }

/-- R27: a 1 in bit 1 of a `STATUS` write clears `DONE`, a 1 in bit 2 clears `HAZ`, every other bit is ignored, whether
`BUSY` is 0 or 1. -/
def Obligations.StatusWriteClearsDoneAndHaz : Prop :=
  ∀ (s : State) (acts : List Action) (v : Word), s.host = .write 0x008 32 v :: acts →
    step s = .next { s with
      host := acts
      statusDone := if v.toNat / 2 % 2 = 1 then false else s.statusDone
      statusHaz := if v.toNat / 4 % 2 = 1 then false else s.statusHaz
      irq := s.ctrlIe && (if v.toNat / 2 % 2 = 1 then false else s.statusDone)
      responses := { data := 0, error := false } :: s.responses }

/-- R28, R46: a `CMD` write while `BUSY` is 0 makes its word pending, whatever the word is, sets `BUSY` and clears `DONE`
and `ERR`; the host then reads the word back. -/
def Obligations.CommandWriteIssuesWhenIdle : Prop :=
  ∀ (s : State) (acts : List Action) (v : Word), s.statusBusy = false → s.host = .write 0x00C 32 v :: acts →
    ∃ t, step s = .next t ∧
      t = { s with
        host := acts, cmd := v, statusBusy := true, statusDone := false, statusErr := .ok, irq := false
        responses := { data := 0, error := false } :: s.responses } ∧
      regRead t 0x00C = v

/-- R29 to R33: while `BUSY` is 0 a write to an argument register replaces that register and nothing else, and the host
reads the value back. -/
def Obligations.ArgumentRegisterWritesLand : Prop :=
  ∀ (s : State) (acts : List Action) (a v : Word), StateInv s → s.statusBusy = false → s.host = .write a 32 v :: acts →
    a.toNat ∈ [0x010, 0x014, 0x018, 0x01C, 0x020] →
    ∃ t, step s = .next t ∧ regRead t a.toNat = v ∧
      t = { s with
        host := acts
        responses := { data := 0, error := false } :: s.responses
        aSrc := if a.toNat = 0x010 then v else s.aSrc
        aDst := if a.toNat = 0x014 then v else s.aDst
        aLen := if a.toNat = 0x018 then v else s.aLen
        aAux := if a.toNat = 0x01C then v else s.aAux
        aWlen := if a.toNat = 0x020 then v else s.aWlen }

/-- R24, R35, R37, R38: what the constant registers and `CTXV` read, and that a write to one of them is ignored. -/
def Obligations.ConstantRegistersReadAndIgnoreWrites : Prop :=
  ∀ (s : State) (acts : List Action) (a : Word), StateInv s →
    a.toNat ∈ [0x000, 0x02C, 0x034, 0x038, 0x03C] →
    (s.host = .read a 32 :: acts →
      ∃ x : Word, step s = .next { s with host := acts, responses := { data := x, error := false } :: s.responses } ∧
        (a.toNat = 0x000 → x = 0x4B465231) ∧
        (a.toNat = 0x02C →
          x.toNat = (if s.params.fmt = .binary64 then 1 else 0) + (s.params.nctxDir - 1) * 2 ^ 8 +
            (s.params.nctxOla - 1) * 2 ^ 12) ∧
        (a.toNat = 0x034 → x.toNat = s.params.maxBlock) ∧
        (a.toNat = 0x038 → x.toNat = s.params.dmemWords) ∧
        (a.toNat = 0x03C → ∀ k, k < 16 →
          x.getLsbD k = (decide (k < s.params.nctxDir) && (dirCtx s k).valid) ∧
          x.getLsbD (16 + k) = (decide (k < s.params.nctxOla) && (olaCtx s k).valid))) ∧
    (∀ v, s.host = .write a 32 v :: acts →
      step s = .next { s with host := acts, responses := { data := 0, error := false } :: s.responses })

/-- R25, R26, R28 to R34, R36, R211: what a read of the other registers answers, and that it changes nothing. `STATUS` reads
`BUSY` in bit 0, `DONE` in bit 1, `HAZ` in bit 2 and `ERR` in bits 7:4, every other bit 0. -/
def Obligations.RegisterReadsAnswerTheirFields : Prop :=
  ∀ (s : State) (acts : List Action) (a : Word),
    a.toNat ∈ [0x004, 0x008, 0x00C, 0x010, 0x014, 0x018, 0x01C, 0x020, 0x024, 0x028, 0x030] →
    s.host = .read a 32 :: acts →
    ∃ x : Word, step s = .next { s with host := acts, responses := { data := x, error := false } :: s.responses } ∧
      (a.toNat = 0x004 → x.toNat = s.ctrlIe.toNat) ∧
      (a.toNat = 0x008 →
        x.toNat = s.statusBusy.toNat + 2 * s.statusDone.toNat + 4 * s.statusHaz.toNat + 16 * s.statusErr.code.toNat) ∧
      (a.toNat = 0x00C → x = s.cmd) ∧ (a.toNat = 0x010 → x = s.aSrc) ∧ (a.toNat = 0x014 → x = s.aDst) ∧
      (a.toNat = 0x018 → x = s.aLen) ∧ (a.toNat = 0x01C → x = s.aAux) ∧ (a.toNat = 0x020 → x = s.aWlen) ∧
      (a.toNat = 0x024 → x = s.res0) ∧ (a.toNat = 0x028 → x = s.res1) ∧
      (a.toNat = 0x030 → s.params.maxTaps < 2 ^ 32 → x.toNat = s.params.maxTaps)

/-- R39: an unmapped register offset reads 0, and a write to it or to a read-only register is ignored and does not set
`HAZ`. -/
def Obligations.UnmappedAndReadOnlyWritesIgnored : Prop :=
  ∀ (s : State) (acts : List Action) (a v : Word), StateInv s → a.toNat % 4 = 0 →
    ((0x040 ≤ a.toNat ∧ a.toNat < 0x10000) → s.host = .read a 32 :: acts →
      step s = .next { s with host := acts, responses := { data := 0, error := false } :: s.responses }) ∧
    (((0x040 ≤ a.toNat ∧ a.toNat < 0x10000) ∨
        a.toNat ∈ [0x000, 0x024, 0x028, 0x02C, 0x030, 0x034, 0x038, 0x03C]) →
      s.host = .write a 32 v :: acts →
      step s = .next { s with host := acts, responses := { data := 0, error := false } :: s.responses })

/-- R25, R230: a `CTRL` write sets `IE` from bit 0 at any time and ignores the other bits; setting `IE` while `DONE` is 1
raises `irq` at once, clearing it lowers `irq` without clearing `DONE`. -/
def Obligations.ControlWriteDrivesInterrupt : Prop :=
  ∀ (s : State) (acts : List Action) (v : Word), s.host = .write 0x004 32 v :: acts →
    ∃ t, step s = .next t ∧ (regRead t 0x004).toNat = v.toNat % 2 ∧
      t = { s with
        host := acts
        ctrlIe := decide (v.toNat % 2 = 1)
        irq := decide (v.toNat % 2 = 1) && s.statusDone
        responses := { data := 0, error := false } :: s.responses }

/-- R62, R63, R211, R212: while `BUSY` is 0 a write to a DMEM word stores its four bytes little-endian and leaves every other
byte as it was, and a host read of the word then answers the value written. -/
def Obligations.DmemWordWriteReadsBack : Prop :=
  ∀ (s : State) (acts : List Action) (a v : Word), StateInv s → s.statusBusy = false → a.toNat % 4 = 0 →
    0x10000 ≤ a.toNat → a.toNat < 0x10000 + s.params.dmemWords * s.params.fmt.ew → s.host = .write a 32 v :: acts →
    ∃ t, step s = .next t ∧
      t = { s with host := acts, mem := t.mem, responses := { data := 0, error := false } :: s.responses } ∧
      (∀ rest, t.host = .read a 32 :: rest →
        step t = .next { t with host := rest, responses := { data := v, error := false } :: t.responses }) ∧
      (∀ k, k < 4 → (memGet t.mem (a.toNat + k)).map BitVec.toNat = some (v.toNat / 2 ^ (8 * k) % 256)) ∧
      (∀ b, ¬(a.toNat ≤ b ∧ b < a.toNat + 4) → memGet t.mem b = memGet s.mem b)

/-- R64: a host write to one word of a binary64 element replaces those 32 bits of its pattern and keeps the other 32, and
a command then reads the mixed pattern as one value. -/
def Obligations.HalfWriteMixesElement : Prop :=
  ∀ (s : State) (acts : List Action) (e : Nat) (a v lo hi : Word), s.params.fmt = .binary64 → s.statusBusy = false →
    StateInv s → e < s.params.dmemWords →
    readElem .binary64 s.mem e = some (BitVec.ofNat 64 (hi.toNat * 2 ^ 32 + lo.toNat)) →
    s.host = .write a 32 v :: acts →
    (a.toNat = 0x10000 + 8 * e → ∃ t, step s = .next t ∧
      memRead .binary64 t.mem e 1 = some [BitVec.ofNat 64 (hi.toNat * 2 ^ 32 + v.toNat)]) ∧
    (a.toNat = 0x10000 + 8 * e + 4 → ∃ t, step s = .next t ∧
      memRead .binary64 t.mem e 1 = some [BitVec.ofNat 64 (v.toNat * 2 ^ 32 + lo.toNat)])

/-- R80, R120, R242: a host read of a DMEM word never written faults with `UninitRead`; so does a command whose checks before its
`MemRead` pass and whose source holds an element with a word never written (a design reads its window and cutoffs before it
checks a cutoff's value: R120's order of reads, log 15, DEDUCED). -/
def Obligations.UnwrittenReadsFault : Prop :=
  (∀ (s : State) (acts : List Action) (a : Word), s.statusBusy = false → a.toNat % 4 = 0 → 0x10000 ≤ a.toNat →
    a.toNat < 0x10000 + s.params.dmemWords * s.params.fmt.ew → readWord s.mem a.toNat = none →
    s.host = .read a 32 :: acts → step s = .fault .uninitRead) ∧
  (∀ (s : State) (t : FilterType) (norm : Bool) (e : Nat), lenCount s ≠ 0 → wlenCount s = lenCount s →
    designRangesOK s t = true → readElem s.params.fmt s.mem e = none →
    ((srcIndex s ≤ e ∧ e < srcIndex s + lenCount s) ∨ (auxIndex s ≤ e ∧ e < auxIndex s + cutoffCount t)) →
    exec (designInstr t norm) s = .fault .uninitRead) ∧
  (∀ (s : State) (i : Instr) (ctx : BitVec 4) (e : Nat),
    i ∈ [.dirInit ctx, .dirApply ctx, .olaInit ctx, .olaApply ctx] → firstFailure (commandChecks i s) = none →
    readElem s.params.fmt s.mem e = none → srcIndex s ≤ e → e < srcIndex s + lenCount s →
    exec i s = .fault .uninitRead)

/-- R104: between the acceptance of a command and its completion no sequence of host accesses changes the pending word, an
argument register, DMEM or a context. -/
def Obligations.BusyFreezesOperands : Prop :=
  ∀ (s : State) (acts rest : List Action), s.statusBusy = true → s.host = acts ++ rest →
    acts.all Action.isAccess = true →
    ∃ t : State, Sys2Proof.core.run acts.length s = .next t ∧ t.host = rest ∧ t.statusBusy = true ∧ t.cmd = s.cmd ∧
      t.aSrc = s.aSrc ∧ t.aDst = s.aDst ∧ t.aLen = s.aLen ∧ t.aAux = s.aAux ∧ t.aWlen = s.aWlen ∧
      t.mem = s.mem ∧ t.dir = s.dir ∧ t.ola = s.ola ∧ t.res0 = s.res0 ∧ t.res1 = s.res1 ∧ t.statusErr = s.statusErr

/-- R107, R108: the expansion of a command pseudo-instruction into host operations, from any state with no command pending
and under any schedule of block steps and polls (R214, log 13), issues the word of its row, which for a context below 16
decodes to the row's command, writes the registers of its row with the row's operands, changes no other argument register,
no context and no DMEM, and comes to its closing `wait`. (The word for a `ctx` of 2^24 or more is log 25's.) -/
def Obligations.PseudoInstructionIssuesItsCommand : Prop :=
  ∀ (f : Fmt) (turn : Nat → Bool) (polls : Nat → Nat) (k : Nat) (c : Pseudo) (s : State) (rest : List Action),
    s.statusBusy = false →
    s.host = scheduled turn polls k (c.expand.flatMap (HostOp.actions f)) ++ rest →
    let last := k + c.registers.length + 2
    ∃ (m : Nat) (t : State), Sys2Proof.core.run m s = .next t ∧
      t.host = (if turn last then [.block] else []) ++ .await (polls last) :: rest ∧
      t.statusBusy = true ∧ t.statusDone = false ∧ t.statusErr = .ok ∧ t.statusHaz = s.statusHaz ∧
      t.mem = s.mem ∧ t.dir = s.dir ∧ t.ola = s.ola ∧ t.res0 = s.res0 ∧ t.res1 = s.res1 ∧ t.cmd = c.word ∧
      t.aSrc = registerAfter c .aSrc s.aSrc ∧ t.aDst = registerAfter c .aDst s.aDst ∧
      t.aLen = registerAfter c .aLen s.aLen ∧ t.aAux = registerAfter c .aAux s.aAux ∧
      t.aWlen = registerAfter c .aWlen s.aWlen ∧
      match c with
      | .nop =>
        t.cmd = 0x00000000 ∧ decode t.cmd = some .nop ∧
          t.aSrc = s.aSrc ∧ t.aDst = s.aDst ∧ t.aLen = s.aLen ∧ t.aAux = s.aAux ∧ t.aWlen = s.aWlen
      | .dsgn ty norm dst win n cut wlen =>
        decode t.cmd = some (designInstr ty norm) ∧
          t.aSrc = win ∧ t.aDst = dst ∧ t.aLen = n ∧ t.aAux = cut ∧ t.aWlen = wlen.getD n
      | .dirInit ctx taps m =>
        t.cmd = 0x00000010 ||| ctx <<< 8 ∧
          (ctx.toNat < 16 → decode t.cmd = some (.dirInit (BitVec.ofNat 4 ctx.toNat))) ∧
          t.aSrc = taps ∧ t.aDst = s.aDst ∧ t.aLen = m ∧ t.aAux = s.aAux ∧ t.aWlen = s.aWlen
      | .dirApply ctx dst src n =>
        t.cmd = 0x00000011 ||| ctx <<< 8 ∧
          (ctx.toNat < 16 → decode t.cmd = some (.dirApply (BitVec.ofNat 4 ctx.toNat))) ∧
          t.aSrc = src ∧ t.aDst = dst ∧ t.aLen = n ∧ t.aAux = s.aAux ∧ t.aWlen = s.aWlen
      | .dirRel ctx =>
        t.cmd = 0x00000012 ||| ctx <<< 8 ∧
          (ctx.toNat < 16 → decode t.cmd = some (.dirRel (BitVec.ofNat 4 ctx.toNat))) ∧
          t.aSrc = s.aSrc ∧ t.aDst = s.aDst ∧ t.aLen = s.aLen ∧ t.aAux = s.aAux ∧ t.aWlen = s.aWlen
      | .olaInit ctx taps m breq =>
        t.cmd = 0x00000020 ||| ctx <<< 8 ∧
          (ctx.toNat < 16 → decode t.cmd = some (.olaInit (BitVec.ofNat 4 ctx.toNat))) ∧
          t.aSrc = taps ∧ t.aDst = s.aDst ∧ t.aLen = m ∧ t.aAux = breq ∧ t.aWlen = s.aWlen
      | .olaApply ctx dst src n =>
        t.cmd = 0x00000021 ||| ctx <<< 8 ∧
          (ctx.toNat < 16 → decode t.cmd = some (.olaApply (BitVec.ofNat 4 ctx.toNat))) ∧
          t.aSrc = src ∧ t.aDst = dst ∧ t.aLen = n ∧ t.aAux = s.aAux ∧ t.aWlen = s.aWlen
      | .olaRel ctx =>
        t.cmd = 0x00000022 ||| ctx <<< 8 ∧
          (ctx.toNat < 16 → decode t.cmd = some (.olaRel (BitVec.ofNat 4 ctx.toNat))) ∧
          t.aSrc = s.aSrc ∧ t.aDst = s.aDst ∧ t.aLen = s.aLen ∧ t.aAux = s.aAux ∧ t.aWlen = s.aWlen

/-- R106: a `wait` reads `STATUS` once where `BUSY` is 0, and else until it finds `BUSY` 0: in any number `n` of reads before
the pending command's block step (R214, log 13), in the step, and in the read after it. Nothing else happens: the state
is the block step's, and the record of answers (log 11) has what the reads found. -/
def Obligations.WaitPollsUntilIdle : Prop :=
  ∀ (s : State) (n : Nat) (acts : List Action), s.host = .await n :: acts →
    let found (u : State) : Response := { data := statusWord u, error := false }
    (s.statusBusy = false → step s = .next { s with host := acts, responses := found s :: s.responses }) ∧
    (s.statusBusy = true →
      (n ≠ 0 → step s = .next { s with host := .await (n - 1) :: acts, responses := found s :: s.responses }) ∧
      ∀ u, (∀ i, decode s.cmd = some i → exec i s = .next u) →
        (decode s.cmd = none → u = completed .illegalCmd s) →
        Sys2Proof.core.run (n + 2) s =
          .next { u with host := acts, responses := found u :: (List.replicate n (found s) ++ s.responses) })

/-- R105, R107: a line of text with a pseudo-instruction's name, the texts of its operands set apart by commas, and perhaps a
comment is read with the operand order of its row. The last operand of a design is optional, and so is the block size of
`ola.init`, 0 where it is left out. (How a name and operands are set apart is log 23's, that an operand fits a register
log 24's.) -/
def Obligations.PseudoInstructionOperandOrder : Prop :=
  ∀ (ta tb tc td te : List Char) (a b c d e : Word) (comment : List Char),
    parseWord ta = some a → parseWord tb = some b → parseWord tc = some c → parseWord td = some d →
    parseWord te = some e → (comment = [] ∨ comment.head? = some ';') →
    let line (name : String) (operands : List (List Char)) : Option Line :=
      parseLine (name.toList ++ ' ' :: [',', ' '].intercalate operands ++ ' ' :: comment)
    line "nop" [] = some (.command .nop) ∧
    (∀ q ∈ [("dsgn.lp", FilterType.lp, false), ("dsgn.hp", .hp, false), ("dsgn.bp", .bp, false), ("dsgn.bs", .bs, false),
        ("dsgn.lp.n", .lp, true), ("dsgn.hp.n", .hp, true), ("dsgn.bp.n", .bp, true), ("dsgn.bs.n", .bs, true)],
      line q.1 [ta, tb, tc, td] =
          some (.command (.dsgn q.2.1 q.2.2 (dst := a) (win := b) (n := c) (cut := d) (wlen := none))) ∧
        line q.1 [ta, tb, tc, td, te] =
          some (.command (.dsgn q.2.1 q.2.2 (dst := a) (win := b) (n := c) (cut := d) (wlen := some e)))) ∧
    line "dir.init" [ta, tb, tc] = some (.command (.dirInit (ctx := a) (taps := b) (m := c))) ∧
    line "dir.apply" [ta, tb, tc, td] = some (.command (.dirApply (ctx := a) (dst := b) (src := c) (n := d))) ∧
    line "dir.rel" [ta] = some (.command (.dirRel (ctx := a))) ∧
    line "ola.init" [ta, tb, tc] = some (.command (.olaInit (ctx := a) (taps := b) (m := c) (breq := 0))) ∧
    line "ola.init" [ta, tb, tc, td] = some (.command (.olaInit (ctx := a) (taps := b) (m := c) (breq := d))) ∧
    line "ola.apply" [ta, tb, tc, td] = some (.command (.olaApply (ctx := a) (dst := b) (src := c) (n := d))) ∧
    line "ola.rel" [ta] = some (.command (.olaRel (ctx := a)))

/-! ### Every command -/

/-- R222 (R225): a command that reports an error changes nothing but `ERR`, `BUSY`, `DONE` and `irq`. -/
def Obligations.ErrorsChangeNothingElse : Prop :=
  ∀ (i : Instr) (s t : State), exec i s = .next t → t.statusErr ≠ .ok → t = completed t.statusErr s

/-- R223 with R21: every completed command clears `BUSY`, sets `DONE`, leaves `irq` equal to `IE`, and keeps `IE`, `HAZ`,
`CMD`, the argument registers and the model's parameters, coming actions and record. -/
def Obligations.CompletionSetsFlagsAndKeepsOperands : Prop :=
  ∀ (i : Instr) (s t : State), exec i s = .next t →
    t.statusBusy = false ∧ t.statusDone = true ∧ t.irq = s.ctrlIe ∧ t.ctrlIe = s.ctrlIe ∧ t.statusHaz = s.statusHaz ∧
      t.cmd = s.cmd ∧ t.aSrc = s.aSrc ∧ t.aDst = s.aDst ∧ t.aLen = s.aLen ∧ t.aAux = s.aAux ∧ t.aWlen = s.aWlen ∧
      t.params = s.params ∧ t.host = s.host ∧ t.responses = s.responses

/-- R216, R262: a command completes in its one step wherever every DMEM element has been written; no command is ever
refused, and the only fault is `UninitRead`. -/
def Obligations.CommandsCompleteOnWrittenDmem : Prop :=
  ∀ (i : Instr) (s : State),
    (DmemWritten s → ∃ t, exec i s = .next t ∧ t.statusBusy = false) ∧
    (∀ r, exec i s ≠ .refused r) ∧ (∀ x, exec i s = .fault x → x = .uninitRead)

/-- R226 (R121 for INVALID_SPEC: `cutoffsLegal` is that rule on the cutoffs' values): a command that fails checks reports the
first of them in the rule's order, with no other effect, and a command that fails none reports OK. -/
def Obligations.ChecksReportFirstFailure : Prop :=
  ∀ (i : Instr) (s : State),
    (∀ e, firstFailure (commandChecks i s) = some e → exec i s = .next (completed e s)) ∧
    (firstFailure (commandChecks i s) = none → ∀ t, exec i s = .next t → t.statusErr = .ok)

/-- R236, R92: a command changes no context but the one its `CTX` field names, and a command without a context changes
none. -/
def Obligations.OtherContextsUntouched : Prop :=
  ∀ (i : Instr) (s t : State), exec i s = .next t →
    (∀ d, dirTarget i ≠ some d → dirCtx t d = dirCtx s d) ∧ (∀ o, olaTarget i ≠ some o → olaCtx t o = olaCtx s o)

/-- R210: `NOP` completes and does nothing else. -/
def Obligations.NopOnlyCompletes : Prop :=
  ∀ s : State, exec .nop s = .next { s with
    statusErr := .ok, statusBusy := false, statusDone := true, irq := s.ctrlIe, draws := s.draws + 1 }

/-! ### The designer -/

/-- R133, R134 to R137: a design whose checks pass completes, writes its final taps at `A_DST` on in index order, leaves
`RES0` = N and `RES1` = 0, and changes nothing else. -/
def Obligations.DesignWritesFinalTaps : Prop :=
  ∀ (s : State) (t : FilterType) (norm : Bool) (w fc v : List Val),
    lenCount s ≠ 0 → wlenCount s = lenCount s → designRangesOK s t = true →
    readSrc s (lenCount s) = some w → readAux s (cutoffCount t) = some fc → cutoffsLegal s.params.fmt t fc = true →
    stateTaps s t norm w fc = some v →
    v.length = lenCount s ∧
    ∃ u, exec (designInstr t norm) s = .next u ∧
      u = { completed .ok s with mem := u.mem, res0 := s.aLen, res1 := 0 } ∧
      (∀ i, i < lenCount s → readElem s.params.fmt u.mem (dstIndex s + i) = v[i]?) ∧
      (∀ a, ¬ElemBytes s.params.fmt (dstIndex s) (lenCount s) a → memGet u.mem a = memGet s.mem a)

/-- R126 to R131: the final taps of a design are finite and there are N of them; without normalization tap i is the ideal
response at i times the window value; with it, that product divided by the divisor, R131's sum over all N products, which
is not a zero. -/
def Obligations.FinalTapsFollowTheFormulas : Prop :=
  ∀ (f : Fmt) (sin : Val → Val) (nan : Nat → Nat → Val) (t : FilterType) (norm : Bool) (n : Nat) (w fc v : List Val),
    designTaps f sin nan t norm n w fc = some v →
    let p := weightedTap f sin nan t n w fc
    v.length = n ∧ ∃ S : Nat → Val, DivisorSums f nan t n p S ∧ ∀ i, i < n →
      let x := v.getD i fpZero
      fpIsFinite f x = true ∧
        (norm = false → x = p i) ∧
        (norm = true → fpIsZero f (S (n - 1)) = false ∧ x = fpDiv f (nan i 2) (p i) (S (n - 1)))

/-- R132: a design whose other checks pass reports NUMERIC_DEGENERACY, with no other effect, exactly where it is normalized
and R131's divisor is a zero of either sign, or some final tap is not finite; elsewhere it completes with OK. -/
def Obligations.DegeneracyIsZeroDivisorOrNonFiniteTap : Prop :=
  ∀ (s : State) (t : FilterType) (norm : Bool) (w fc : List Val),
    lenCount s ≠ 0 → wlenCount s = lenCount s → designRangesOK s t = true →
    readSrc s (lenCount s) = some w → readAux s (cutoffCount t) = some fc → cutoffsLegal s.params.fmt t fc = true →
    let f := s.params.fmt
    let n := lenCount s
    let nan := nanDraws s
    let p := weightedTap f (sinF f) nan t n w fc
    ∃ S : Nat → Val, DivisorSums f nan t n p S ∧
      let degenerate : Prop :=
        (norm = true ∧ fpIsZero f (S (n - 1)) = true) ∨
          ∃ i, i < n ∧ fpIsFinite f (if norm then fpDiv f (nan i 2) (p i) (S (n - 1)) else p i) = false
      (degenerate → exec (designInstr t norm) s = .next (completed .numericDegeneracy s)) ∧
      (¬degenerate → ∃ u, exec (designInstr t norm) s = .next u ∧ u.statusErr = .ok)

/-- R139: a normalized design of length 1 writes the one tap 1.0 where its weighted tap is finite and not zero, and raises
NUMERIC_DEGENERACY where it is zero, for every filter type. -/
def Obligations.LengthOneNormalizedDesignIsUnity : Prop :=
  ∀ (s : State) (t : FilterType) (w0 : Val) (fc : List Val),
    lenCount s = 1 → wlenCount s = 1 → designRangesOK s t = true →
    readSrc s 1 = some [w0] → readAux s (cutoffCount t) = some fc → cutoffsLegal s.params.fmt t fc = true →
    let d := nanDraws s 0 0
    let v0 := fpMul s.params.fmt d (idealTap s.params.fmt (sinF s.params.fmt) d t 1 fc 0) w0
    ((fpIsFinite s.params.fmt v0 = true ∧ fpIsZero s.params.fmt v0 = false) →
      ∃ u, exec (designInstr t true) s = .next u ∧ u.statusErr = .ok ∧
        readElem s.params.fmt u.mem (dstIndex s) = some (fpOne s.params.fmt)) ∧
    (fpIsZero s.params.fmt v0 = true →
      exec (designInstr t true) s = .next (completed .numericDegeneracy s))

/-- R140: a symmetric window gives symmetric final taps, bit for bit, before and after normalization. -/
def Obligations.SymmetricWindowGivesSymmetricTaps : Prop :=
  ∀ (f : Fmt) (nan : Nat → Nat → Val) (t : FilterType) (norm : Bool) (n : Nat) (w fc v : List Val),
    (∀ i, i < n → w.getD i fpZero = w.getD (n - 1 - i) fpZero) →
    designTaps f (sinF f) nan t norm n w fc = some v →
    ∀ i, i < n → v.getD i fpZero = v.getD (n - 1 - i) fpZero

/-- R141: a normalized highpass or bandstop design of two taps over a symmetric window is degenerate. -/
def Obligations.TwoTapHighpassIsDegenerate : Prop :=
  ∀ (f : Fmt) (nan : Nat → Nat → Val) (t : FilterType) (x : Val) (fc : List Val), t = .hp ∨ t = .bs →
    designTaps f (sinF f) nan t true 2 [x, x] fc = none

/-- R138: the result of a design is a function of the opcode, `NORM`, the argument registers and the DMEM values read: two
states that agree on them, whatever else they hold and whatever NaNs are drawn, end alike and write bit-identical taps,
and no context changes. -/
def Obligations.DesignIsPure : Prop :=
  ∀ (s1 s2 : State) (t : FilterType) (norm : Bool),
    s1.params = s2.params → s1.aSrc = s2.aSrc → s1.aDst = s2.aDst → s1.aLen = s2.aLen → s1.aAux = s2.aAux →
    s1.aWlen = s2.aWlen →
    (∀ e, (srcIndex s1 ≤ e ∧ e < srcIndex s1 + lenCount s1) ∨ (auxIndex s1 ≤ e ∧ e < auxIndex s1 + cutoffCount t) →
      readElem s1.params.fmt s1.mem e = readElem s1.params.fmt s2.mem e) →
    (exec (designInstr t norm) s1 = .fault .uninitRead ∧ exec (designInstr t norm) s2 = .fault .uninitRead) ∨
    ∃ u1 u2, exec (designInstr t norm) s1 = .next u1 ∧ exec (designInstr t norm) s2 = .next u2 ∧
      u1.statusErr = u2.statusErr ∧ u1.dir = s1.dir ∧ u1.ola = s1.ola ∧ u2.dir = s2.dir ∧ u2.ola = s2.ola ∧
      (u1.statusErr = .ok → u1.res0 = u2.res0 ∧ u1.res1 = u2.res1 ∧
        ∀ i, i < lenCount s1 →
          readElem s1.params.fmt u1.mem (dstIndex s1 + i) = readElem s1.params.fmt u2.mem (dstIndex s1 + i))

/-- R6, D5: `SIN_F` is odd for every argument that is not a NaN (by the model's construction of it, log 2). -/
def Obligations.SineIsOdd : Prop :=
  ∀ (f : Fmt) (a : Val), fpIsNaN f a = false → sinF f (fpNeg f a) = fpNeg f (sinF f a)

/-- R9, D3 (what IEEE 754 prescribes is log 10's): the rounding step answers the size of the nearest finite value of the
format, the one with an even last bit where two are equally near, and an infinity exactly from half a unit above the
largest finite value on. -/
def Obligations.RoundingIsNearestTiesToEven : Prop :=
  ∀ (f : Fmt) (n d : Nat), 0 < d →
    (roundMag f n d = f.infBits ↔ (magOfBits f (f.infBits - 1) + magOfBits f f.infBits) * d ≤ 2 * n) ∧
    (roundMag f n d < f.infBits → ∀ a, a < f.infBits →
      ((magOfBits f (roundMag f n d) * d : Int) - n).natAbs ≤ ((magOfBits f a * d : Int) - n).natAbs ∧
      (((magOfBits f (roundMag f n d) * d : Int) - n).natAbs = ((magOfBits f a * d : Int) - n).natAbs →
        a ≠ roundMag f n d → roundMag f n d % 2 = 0))

/-- R9, D3 (what IEEE 754 prescribes is log 10's): for finite operands ⊕, ⊖, ⊗ and ⊘ answer the exact sum, difference, product
and quotient of the operands' values rounded to nearest, and F(r) the real number r rounded; a division by zero answers
an infinity, or a NaN for a zero dividend. Values are numbers of units of 2^(−scale). (The sign of F(0) is log 21's.) -/
def Obligations.ArithmeticRoundsExactResults : Prop :=
  ∀ (f : Fmt) (draw a b : Val), fpIsFinite f a = true → fpIsFinite f b = true →
    let unit : Nat := 2 ^ f.scale
    let differ : Bool := fpSign f a != fpSign f b
    RoundsTo f (fpInt f a + fpInt f b) 1 (fpSign f a && fpSign f b) (fpAdd f draw a b) ∧
    RoundsTo f (fpInt f a - fpInt f b) 1 (fpSign f a && !fpSign f b) (fpSub f draw a b) ∧
    RoundsTo f (fpInt f a * fpInt f b) unit differ (fpMul f draw a b) ∧
    (fpInt f b ≠ 0 →
      RoundsTo f ((fpInt f b).sign * (fpInt f a * unit)) (fpInt f b).natAbs differ (fpDiv f draw a b)) ∧
    (fpInt f b = 0 →
      (fpInt f a = 0 → fpIsNaN f (fpDiv f draw a b) = true) ∧
      (fpInt f a ≠ 0 → fpIsInf f (fpDiv f draw a b) = true ∧ fpSign f (fpDiv f draw a b) = differ)) ∧
    ∀ (neg : Bool) (n d : Nat), 0 < d →
      RoundsTo f ((if neg then -(n : Int) else n) * unit) d neg (fpOfRatio f neg n d)

/-! ### The direct engine -/

/-- R161: a `DIR_INIT` whose checks pass makes the context valid with M taps copied from DMEM, a history of M − 1 zeros and
cursor 0, sets `RES0` = M and `RES1` = 0, changes nothing else, and the context's `CTXV` bit then reads 1. -/
def Obligations.DirInitConstructsContext : Prop :=
  ∀ (s : State) (ctx : BitVec 4) (T : List Val), s.dir.length = s.params.nctxDir → ctx.toNat < s.params.nctxDir →
    lenCount s ≠ 0 → lenCount s ≤ s.params.maxTaps → rangeOK s.params (srcIndex s) (lenCount s) = true →
    readSrc s (lenCount s) = some T →
    ∃ u, exec (.dirInit ctx) s = .next u ∧
      u = { completed .ok s with dir := u.dir, res0 := s.aLen, res1 := 0 } ∧
      u.dir = s.dir.set ctx.toNat
        { valid := true, m := lenCount s, taps := T, ring := List.replicate (lenCount s - 1) fpZero, cursor := 0 } ∧
      T.length = lenCount s ∧ (ctxvWord u).getLsbD ctx.toNat = true

/-- R167 (R160, R163, R164): `DIR_APPLY` on a valid context writes at `A_DST` on, for each input sample, the sum of R160
over the taps and the history followed by the input, in the order of R163; it leaves the last M − 1 samples as the
history, `RES0` = n and `RES1` = 0, and changes nothing else. -/
def Obligations.DirApplyComputesReferenceSum : Prop :=
  ∀ (s : State) (ctx : BitVec 4) (x : List Val), StateInv s → ctx.toNat < s.params.nctxDir →
    (dirCtx s ctx.toNat).valid = true → rangeOK s.params (srcIndex s) (lenCount s) = true →
    rangeOK s.params (dstIndex s) (lenCount s) = true → readSrc s (lenCount s) = some x →
    let c := dirCtx s ctx.toNat
    let A := fpArith s.params.fmt (nanDraws s)
    ∃ u c', exec (.dirApply ctx) s = .next u ∧
      u = { completed .ok s with mem := u.mem, dir := s.dir.set ctx.toNat c', res0 := s.aLen, res1 := 0 } ∧
      c'.valid = true ∧ c'.m = c.m ∧ c'.taps = c.taps ∧
      history fpZero c' = lastValues (c.m - 1) (history fpZero c ++ x) ∧
      (∀ k, k < lenCount s →
        readElem s.params.fmt u.mem (dstIndex s + k) =
          some (referenceOutput A c.taps (history fpZero c ++ x) k)) ∧
      (∀ a, ¬ElemBytes s.params.fmt (dstIndex s) (lenCount s) a → memGet u.mem a = memGet s.mem a)

/-- R168: splitting an input stream into consecutive calls changes no output, up to the payload of NaNs (drawn afresh, D3,
log 4), and not the context the calls leave. -/
def Obligations.DirApplyIsChunkInvariant : Prop :=
  ∀ (f : Fmt) (nan : Nat → Nat → Val) (nans : Nat → Nat → Nat → Val) (q : Nat) (c : DirCtx Val)
    (calls : List (List Val)),
    let one := dirStream (fpArith f nan) 0 c calls.flatten
    let many := dirCalls f nans q c calls
    one.1 = many.1 ∧ List.Forall₂ (SameValue f) one.2 many.2

/-- R42: the logical history of a direct context is the last M − 1 samples of M − 1 zeros followed by every input sample
applied since its construction, in order. -/
def Obligations.HistoryHoldsLastInputs : Prop :=
  ∀ (f : Fmt) (nans : Nat → Nat → Nat → Val) (T : List Val) (calls : List (List Val)), T ≠ [] →
    history fpZero (dirCalls f nans 0 (dirConstruct fpZero T) calls).1 =
      lastValues (T.length - 1) (List.replicate (T.length - 1) fpZero ++ calls.flatten)

/-- R170, R188: an apply of no samples on a valid context changes nothing but the completion's own registers, whatever the
address registers hold. -/
def Obligations.ZeroLengthApplyIsNoOp : Prop :=
  ∀ (s : State) (ctx : BitVec 4), lenCount s = 0 →
    ((ctx.toNat < s.params.nctxDir ∧ (dirCtx s ctx.toNat).valid = true) →
      exec (.dirApply ctx) s = .next { completed .ok s with res0 := 0, res1 := 0 }) ∧
    ((ctx.toNat < s.params.nctxOla ∧ StateInv s ∧ (olaCtx s ctx.toNat).valid = true) →
      ∃ u, exec (.olaApply ctx) s = .next u ∧
        u = { completed .ok s with res0 := 0, res1 := u.res1 } ∧ u.res1.toNat = (olaCtx s ctx.toNat).fill)

/-- R166, R189: a release makes the context not valid, whether it was or not, and changes nothing else of the spec's state but
the completion's flags; its `CTXV` bit then reads 0, and an apply on it reports NOT_CONFIGURED. -/
def Obligations.ReleaseInvalidatesContext : Prop :=
  ∀ (s : State) (ctx : BitVec 4),
    (ctx.toNat < s.params.nctxDir → s.dir.length = s.params.nctxDir →
      ∃ u, exec (.dirRel ctx) s = .next u ∧
        u = { completed .ok s with dir := s.dir.set ctx.toNat { dirCtx s ctx.toNat with valid := false } } ∧
        (ctxvWord u).getLsbD ctx.toNat = false ∧ exec (.dirApply ctx) u = .next (completed .notConfigured u)) ∧
    (ctx.toNat < s.params.nctxOla → s.ola.length = s.params.nctxOla →
      ∃ u, exec (.olaRel ctx) s = .next u ∧
        u = { completed .ok s with ola := s.ola.set ctx.toNat { olaCtx s ctx.toNat with valid := false } } ∧
        (ctxvWord u).getLsbD (16 + ctx.toNat) = false ∧ exec (.olaApply ctx) u = .next (completed .notConfigured u))

/-- R169: with zero history an impulse gives the taps back, up to the sign of zeros, then zeros; and one tap of 1.0 returns
every input that is not a NaN bit for bit. -/
def Obligations.ImpulseReproducesTaps : Prop :=
  ∀ (f : Fmt) (nan : Nat → Nat → Val),
    (∀ (T : List Val) (n : Nat), T ≠ [] → T.length ≤ n → T.all (fpIsFinite f) = true →
      let y := (dirStream (fpArith f nan) 0 (dirConstruct fpZero T)
        (fpOne f :: List.replicate (n - 1) fpZero)).2
      y.length = n ∧ (∀ j, j < T.length → fpEq f (y.getD j fpZero) (T.getD j fpZero) = true) ∧
        (∀ j, T.length ≤ j → j < n → fpIsZero f (y.getD j fpZero) = true)) ∧
    (∀ x : List Val, x.all (fun v => fpInWidth f v && !fpIsNaN f v) = true →
      (dirStream (fpArith f nan) 0 (dirConstruct fpZero [fpOne f]) x).2 = x)

/-! ### The overlap-add engine -/

/-- R181: the block size is the smallest power of two that is at least 2·M and at least the requested minimum, and the chunk
length exceeds the tail length. -/
def Obligations.BlockSizeIsLeastPowerOfTwo : Prop :=
  ∀ m breq : Nat, 1 ≤ m →
    (∃ k, blockSize m breq = 2 ^ k) ∧ 2 * m ≤ blockSize m breq ∧ breq ≤ blockSize m breq ∧
      (∀ k, 2 * m ≤ 2 ^ k → breq ≤ 2 ^ k → blockSize m breq ≤ 2 ^ k) ∧
      chunkLen m (blockSize m breq) + m = blockSize m breq + 1 ∧ m + 1 ≤ chunkLen m (blockSize m breq)

/-- R182: an `OLA_INIT` whose checks pass makes the context valid with the taps padded by zeros to the block size of R181, no
backlog and a tail of zeros, sets `RES0` = B and `RES1` = L, changes nothing else, and the context's `CTXV` bit then
reads 1. -/
def Obligations.OlaInitConstructsContext : Prop :=
  ∀ (s : State) (ctx : BitVec 4) (T : List Val), StateInv s → ctx.toNat < s.params.nctxOla → lenCount s ≠ 0 →
    lenCount s ≤ s.params.maxTaps → blockSize (lenCount s) (auxIndex s) ≤ s.params.maxBlock →
    rangeOK s.params (srcIndex s) (lenCount s) = true → readSrc s (lenCount s) = some T →
    let m := lenCount s
    let b := blockSize m (auxIndex s)
    ∃ u, exec (.olaInit ctx) s = .next u ∧
      u = { completed .ok s with ola := u.ola, res0 := u.res0, res1 := u.res1 } ∧
      u.ola = s.ola.set ctx.toNat
        { valid := true, m := m, b := b, l := b - m + 1, taps := T ++ List.replicate (b - m) fpZero
          inbuf := List.replicate (b - m + 1) fpZero, fill := 0, tail := List.replicate (m - 1) fpZero } ∧
      T.length = m ∧ u.res0.toNat = b ∧ u.res1.toNat = b - m + 1 ∧ (ctxvWord u).getLsbD (16 + ctx.toNat) = true

/-- R188, R195: an `OLA_APPLY` of n samples on a valid context with backlog F writes the ⌊(F + n)/L⌋·L outputs of R187's loop at
`A_DST` on, returns that count in `RES0` and the new backlog (F + n) mod L in `RES1`, and changes nothing else but the
context's accumulation buffer, backlog and tail. -/
def Obligations.OlaApplyWritesCompletedChunks : Prop :=
  ∀ (s : State) (ctx : BitVec 4) (x : List Val), StateInv s → ctx.toNat < s.params.nctxOla →
    (olaCtx s ctx.toNat).valid = true → rangeOK s.params (srcIndex s) (lenCount s) = true →
    let c := olaCtx s ctx.toNat
    let out := (c.fill + lenCount s) / c.l * c.l
    rangeOK s.params (dstIndex s) out = true → readSrc s (lenCount s) = some x →
    let r := olaStream (fpArith s.params.fmt (nanDraws s)) (xconv s.params.fmt) 0 c x
    r.2.length = out ∧ r.1.fill = (c.fill + lenCount s) % c.l ∧
    r.1 = { c with inbuf := r.1.inbuf, fill := r.1.fill, tail := r.1.tail } ∧
    ∃ u, exec (.olaApply ctx) s = .next u ∧
      u = { completed .ok s with mem := u.mem, ola := s.ola.set ctx.toNat r.1, res0 := u.res0, res1 := u.res1 } ∧
      u.res0.toNat = out ∧ u.res1.toNat = (c.fill + lenCount s) % c.l ∧
      (∀ i, i < out → readElem s.params.fmt u.mem (dstIndex s + i) = r.2[i]?) ∧
      (∀ a, ¬ElemBytes s.params.fmt (dstIndex s) out a → memGet u.mem a = memGet s.mem a)

/-- R184 to R187: the sample that completes a chunk emits the first L values of the transform-domain convolution of the padded
taps and the padded chunk, the carried tail added to the first M − 1 of them; its last M − 1 values become the new tail,
and the backlog is empty. Any other sample emits nothing and joins the backlog. Nothing else of the context changes. -/
def Obligations.CompletedChunkAddsCarriedTail : Prop :=
  ∀ (f : Fmt) (nan : Nat → Nat → Val) (k : Nat) (p : Params) (c : OlaCtx Val) (x : Val),
    olaCtxOK p c = true → c.valid = true →
    let A := fpArith f nan
    let r := olaSample A (xconv f) k c x
    let chunk := c.inbuf.set c.fill x
    let blk := xconv f c.taps (chunk ++ List.replicate (c.b - c.l) fpZero)
    (c.fill + 1 = c.l →
      r.2.length = c.l ∧ r.1 = { c with inbuf := chunk, fill := 0, tail := blk.drop c.l } ∧
      r.1.tail.length = c.m - 1 ∧
      ∀ i, i < c.l → r.2.getD i fpZero =
        if i < c.m - 1 then fpAdd f (nan k (2 * i + 1)) (blk.getD i fpZero) (c.tail.getD i fpZero)
        else blk.getD i fpZero) ∧
    (c.fill + 1 ≠ c.l → r = ({ c with inbuf := chunk, fill := c.fill + 1 }, []))

/-- R195: after a total of S samples applied since construction, in any calls, ⌊S/L⌋·L outputs have been written and the
backlog is S mod L. -/
def Obligations.OlaOutputCountAndBacklog : Prop :=
  ∀ (f : Fmt) (nans : Nat → Nat → Nat → Val) (T : List Val) (breq : Nat) (calls : List (List Val)), T ≠ [] →
    let b := blockSize T.length breq
    let l := b - T.length + 1
    let r := olaCalls f nans 0 (olaConstruct fpZero T b) calls
    r.2.length = calls.flatten.length / l * l ∧ r.1.fill = calls.flatten.length % l

/-- R196: splitting an input stream into consecutive `OLA_APPLY` calls changes no output, up to the payload of NaNs (drawn
afresh, D3, log 4), and not the context the calls leave. For inputs with an infinity or a NaN it rests on log 3 (DEDUCED):
`XCONV` answers the same for the same inputs. -/
def Obligations.OlaApplyIsChunkInvariant : Prop :=
  ∀ (f : Fmt) (nan : Nat → Nat → Val) (nans : Nat → Nat → Nat → Val) (q : Nat) (T : List Val) (breq : Nat)
    (before : List (List Val)) (calls : List (List Val)), T ≠ [] →
    let c := (olaCalls f nans 0 (olaConstruct fpZero T (blockSize T.length breq)) before).1
    let one := olaStream (fpArith f nan) (xconv f) 0 c calls.flatten
    let many := olaCalls f nans q c calls
    one.1 = many.1 ∧ List.Forall₂ (SameValue f) one.2 many.2

/-- R190: for finite taps and a finite chunk every output of `XCONV` is within the rule's bound of the exact circular
convolution, wherever some finite value of the format is (log 3). Both sides are in units of 2^(−2·scale). -/
def Obligations.XconvMeetsTolerance : Prop :=
  ∀ (f : Fmt) (T P : List Val) (n : Nat), T.all (fpIsFinite f) = true → P.all (fpIsFinite f) = true →
    let Ti := T.map (fpInt f)
    let Pi := P.map (fpInt f)
    let near (r : Val) : Prop := fpIsFinite f r = true ∧
      (fpInt f r * 2 ^ f.scale - circConv Ti Pi n).natAbs * toleranceInv f ≤ sumAbs Ti * maxAbs Pi
    (∃ r, near r) → near (xconvAt f T P n)

/-- R192: with taps padded by zeros to B = M + L − 1 and a chunk of L values padded by zeros to B, the exact circular convolution
is the linear convolution of the taps with the chunk: it does not wrap around. -/
def Obligations.CircularConvolutionDoesNotWrap : Prop :=
  ∀ (T chunk : List Int) (n : Nat), T ≠ [] → chunk ≠ [] → n < T.length + chunk.length - 1 →
    circConv (T ++ List.replicate (chunk.length - 1) 0) (chunk ++ List.replicate (T.length - 1) 0) n =
      ((List.range T.length).map fun j =>
        if j ≤ n ∧ n - j < chunk.length then T.getD j 0 * chunk.getD (n - j) 0 else 0).sum

/-- R193, for one stream (its splits into calls are `OlaApplyIsChunkInvariant`'s): with an exact transform-domain convolution and
exact arithmetic, the outputs of the overlap-add engine's loop on a stream are those of the direct engine's loop on the
same taps and stream, as far as chunks have completed: the first ⌊S/L⌋·L of them. -/
def Obligations.OverlapAddMatchesDirectExactly : Prop :=
  ∀ (T stream : List Int) (breq : Nat), T ≠ [] →
    let b := blockSize T.length breq
    let l := b - T.length + 1
    (olaStream intArith exactConv 0 (olaConstruct 0 T b) stream).2 =
      (dirStream intArith 0 (dirConstruct 0 T) stream).2.take (stream.length / l * l)
end

