-- ==== Sys2Proof/Laws/State.lean ====
section
/-! SUPPORT. What every field of the state holds after each update of the shared operations: one lemma per field per
update, so that no proof unfolds a record update. -/

namespace Sys2Proof.Machine

/-! ### `refreshIrq` -/

@[simp] theorem refreshIrq_ctrlIe (s : State) : (refreshIrq s).ctrlIe = s.ctrlIe := rfl
@[simp] theorem refreshIrq_statusBusy (s : State) : (refreshIrq s).statusBusy = s.statusBusy := rfl
@[simp] theorem refreshIrq_statusDone (s : State) : (refreshIrq s).statusDone = s.statusDone := rfl
@[simp] theorem refreshIrq_statusHaz (s : State) : (refreshIrq s).statusHaz = s.statusHaz := rfl
@[simp] theorem refreshIrq_statusErr (s : State) : (refreshIrq s).statusErr = s.statusErr := rfl
@[simp] theorem refreshIrq_cmd (s : State) : (refreshIrq s).cmd = s.cmd := rfl
@[simp] theorem refreshIrq_aSrc (s : State) : (refreshIrq s).aSrc = s.aSrc := rfl
@[simp] theorem refreshIrq_aDst (s : State) : (refreshIrq s).aDst = s.aDst := rfl
@[simp] theorem refreshIrq_aLen (s : State) : (refreshIrq s).aLen = s.aLen := rfl
@[simp] theorem refreshIrq_aAux (s : State) : (refreshIrq s).aAux = s.aAux := rfl
@[simp] theorem refreshIrq_aWlen (s : State) : (refreshIrq s).aWlen = s.aWlen := rfl
@[simp] theorem refreshIrq_res0 (s : State) : (refreshIrq s).res0 = s.res0 := rfl
@[simp] theorem refreshIrq_res1 (s : State) : (refreshIrq s).res1 = s.res1 := rfl
@[simp] theorem refreshIrq_mem (s : State) : (refreshIrq s).mem = s.mem := rfl
@[simp] theorem refreshIrq_dir (s : State) : (refreshIrq s).dir = s.dir := rfl
@[simp] theorem refreshIrq_ola (s : State) : (refreshIrq s).ola = s.ola := rfl
@[simp] theorem refreshIrq_irq (s : State) : (refreshIrq s).irq = (s.ctrlIe && s.statusDone) := rfl
@[simp] theorem refreshIrq_params (s : State) : (refreshIrq s).params = s.params := rfl
@[simp] theorem refreshIrq_host (s : State) : (refreshIrq s).host = s.host := rfl
@[simp] theorem refreshIrq_responses (s : State) : (refreshIrq s).responses = s.responses := rfl
@[simp] theorem refreshIrq_draws (s : State) : (refreshIrq s).draws = s.draws := rfl

/-! ### `completeFlags` -/

@[simp] theorem completeFlags_ctrlIe (e : ErrCode) (s : State) : (completeFlags e s).ctrlIe = s.ctrlIe := rfl
@[simp] theorem completeFlags_statusBusy (e : ErrCode) (s : State) : (completeFlags e s).statusBusy = false := rfl
@[simp] theorem completeFlags_statusDone (e : ErrCode) (s : State) : (completeFlags e s).statusDone = true := rfl
@[simp] theorem completeFlags_statusHaz (e : ErrCode) (s : State) : (completeFlags e s).statusHaz = s.statusHaz := rfl
@[simp] theorem completeFlags_statusErr (e : ErrCode) (s : State) : (completeFlags e s).statusErr = e := rfl
@[simp] theorem completeFlags_cmd (e : ErrCode) (s : State) : (completeFlags e s).cmd = s.cmd := rfl
@[simp] theorem completeFlags_aSrc (e : ErrCode) (s : State) : (completeFlags e s).aSrc = s.aSrc := rfl
@[simp] theorem completeFlags_aDst (e : ErrCode) (s : State) : (completeFlags e s).aDst = s.aDst := rfl
@[simp] theorem completeFlags_aLen (e : ErrCode) (s : State) : (completeFlags e s).aLen = s.aLen := rfl
@[simp] theorem completeFlags_aAux (e : ErrCode) (s : State) : (completeFlags e s).aAux = s.aAux := rfl
@[simp] theorem completeFlags_aWlen (e : ErrCode) (s : State) : (completeFlags e s).aWlen = s.aWlen := rfl
@[simp] theorem completeFlags_res0 (e : ErrCode) (s : State) : (completeFlags e s).res0 = s.res0 := rfl
@[simp] theorem completeFlags_res1 (e : ErrCode) (s : State) : (completeFlags e s).res1 = s.res1 := rfl
@[simp] theorem completeFlags_mem (e : ErrCode) (s : State) : (completeFlags e s).mem = s.mem := rfl
@[simp] theorem completeFlags_dir (e : ErrCode) (s : State) : (completeFlags e s).dir = s.dir := rfl
@[simp] theorem completeFlags_ola (e : ErrCode) (s : State) : (completeFlags e s).ola = s.ola := rfl
@[simp] theorem completeFlags_irq (e : ErrCode) (s : State) : (completeFlags e s).irq = (s.ctrlIe && true) := rfl
@[simp] theorem completeFlags_params (e : ErrCode) (s : State) : (completeFlags e s).params = s.params := rfl
@[simp] theorem completeFlags_host (e : ErrCode) (s : State) : (completeFlags e s).host = s.host := rfl
@[simp] theorem completeFlags_responses (e : ErrCode) (s : State) : (completeFlags e s).responses = s.responses := rfl
@[simp] theorem completeFlags_draws (e : ErrCode) (s : State) : (completeFlags e s).draws = s.draws + 1 := rfl

/-! ### `completed` -/

@[simp] theorem completed_ctrlIe (e : ErrCode) (s : State) : (completed e s).ctrlIe = s.ctrlIe := rfl
@[simp] theorem completed_statusBusy (e : ErrCode) (s : State) : (completed e s).statusBusy = false := rfl
@[simp] theorem completed_statusDone (e : ErrCode) (s : State) : (completed e s).statusDone = true := rfl
@[simp] theorem completed_statusHaz (e : ErrCode) (s : State) : (completed e s).statusHaz = s.statusHaz := rfl
@[simp] theorem completed_statusErr (e : ErrCode) (s : State) : (completed e s).statusErr = e := rfl
@[simp] theorem completed_cmd (e : ErrCode) (s : State) : (completed e s).cmd = s.cmd := rfl
@[simp] theorem completed_aSrc (e : ErrCode) (s : State) : (completed e s).aSrc = s.aSrc := rfl
@[simp] theorem completed_aDst (e : ErrCode) (s : State) : (completed e s).aDst = s.aDst := rfl
@[simp] theorem completed_aLen (e : ErrCode) (s : State) : (completed e s).aLen = s.aLen := rfl
@[simp] theorem completed_aAux (e : ErrCode) (s : State) : (completed e s).aAux = s.aAux := rfl
@[simp] theorem completed_aWlen (e : ErrCode) (s : State) : (completed e s).aWlen = s.aWlen := rfl
@[simp] theorem completed_res0 (e : ErrCode) (s : State) : (completed e s).res0 = s.res0 := rfl
@[simp] theorem completed_res1 (e : ErrCode) (s : State) : (completed e s).res1 = s.res1 := rfl
@[simp] theorem completed_mem (e : ErrCode) (s : State) : (completed e s).mem = s.mem := rfl
@[simp] theorem completed_dir (e : ErrCode) (s : State) : (completed e s).dir = s.dir := rfl
@[simp] theorem completed_ola (e : ErrCode) (s : State) : (completed e s).ola = s.ola := rfl
@[simp] theorem completed_irq (e : ErrCode) (s : State) : (completed e s).irq = s.ctrlIe := rfl
@[simp] theorem completed_params (e : ErrCode) (s : State) : (completed e s).params = s.params := rfl
@[simp] theorem completed_host (e : ErrCode) (s : State) : (completed e s).host = s.host := rfl
@[simp] theorem completed_responses (e : ErrCode) (s : State) : (completed e s).responses = s.responses := rfl
@[simp] theorem completed_draws (e : ErrCode) (s : State) : (completed e s).draws = s.draws + 1 := rfl

/-! ### `acceptFlags` -/

@[simp] theorem acceptFlags_ctrlIe (s : State) : (acceptFlags s).ctrlIe = s.ctrlIe := rfl
@[simp] theorem acceptFlags_statusBusy (s : State) : (acceptFlags s).statusBusy = true := rfl
@[simp] theorem acceptFlags_statusDone (s : State) : (acceptFlags s).statusDone = false := rfl
@[simp] theorem acceptFlags_statusHaz (s : State) : (acceptFlags s).statusHaz = s.statusHaz := rfl
@[simp] theorem acceptFlags_statusErr (s : State) : (acceptFlags s).statusErr = .ok := rfl
@[simp] theorem acceptFlags_cmd (s : State) : (acceptFlags s).cmd = s.cmd := rfl
@[simp] theorem acceptFlags_aSrc (s : State) : (acceptFlags s).aSrc = s.aSrc := rfl
@[simp] theorem acceptFlags_aDst (s : State) : (acceptFlags s).aDst = s.aDst := rfl
@[simp] theorem acceptFlags_aLen (s : State) : (acceptFlags s).aLen = s.aLen := rfl
@[simp] theorem acceptFlags_aAux (s : State) : (acceptFlags s).aAux = s.aAux := rfl
@[simp] theorem acceptFlags_aWlen (s : State) : (acceptFlags s).aWlen = s.aWlen := rfl
@[simp] theorem acceptFlags_res0 (s : State) : (acceptFlags s).res0 = s.res0 := rfl
@[simp] theorem acceptFlags_res1 (s : State) : (acceptFlags s).res1 = s.res1 := rfl
@[simp] theorem acceptFlags_mem (s : State) : (acceptFlags s).mem = s.mem := rfl
@[simp] theorem acceptFlags_dir (s : State) : (acceptFlags s).dir = s.dir := rfl
@[simp] theorem acceptFlags_ola (s : State) : (acceptFlags s).ola = s.ola := rfl
@[simp] theorem acceptFlags_irq (s : State) : (acceptFlags s).irq = s.irq := rfl
@[simp] theorem acceptFlags_params (s : State) : (acceptFlags s).params = s.params := rfl
@[simp] theorem acceptFlags_host (s : State) : (acceptFlags s).host = s.host := rfl
@[simp] theorem acceptFlags_responses (s : State) : (acceptFlags s).responses = s.responses := rfl
@[simp] theorem acceptFlags_draws (s : State) : (acceptFlags s).draws = s.draws := rfl

/-! ### `dropWrite` -/

@[simp] theorem dropWrite_ctrlIe (s : State) : (dropWrite s).ctrlIe = s.ctrlIe := rfl
@[simp] theorem dropWrite_statusBusy (s : State) : (dropWrite s).statusBusy = s.statusBusy := rfl
@[simp] theorem dropWrite_statusDone (s : State) : (dropWrite s).statusDone = s.statusDone := rfl
@[simp] theorem dropWrite_statusHaz (s : State) : (dropWrite s).statusHaz = true := rfl
@[simp] theorem dropWrite_statusErr (s : State) : (dropWrite s).statusErr = s.statusErr := rfl
@[simp] theorem dropWrite_cmd (s : State) : (dropWrite s).cmd = s.cmd := rfl
@[simp] theorem dropWrite_aSrc (s : State) : (dropWrite s).aSrc = s.aSrc := rfl
@[simp] theorem dropWrite_aDst (s : State) : (dropWrite s).aDst = s.aDst := rfl
@[simp] theorem dropWrite_aLen (s : State) : (dropWrite s).aLen = s.aLen := rfl
@[simp] theorem dropWrite_aAux (s : State) : (dropWrite s).aAux = s.aAux := rfl
@[simp] theorem dropWrite_aWlen (s : State) : (dropWrite s).aWlen = s.aWlen := rfl
@[simp] theorem dropWrite_res0 (s : State) : (dropWrite s).res0 = s.res0 := rfl
@[simp] theorem dropWrite_res1 (s : State) : (dropWrite s).res1 = s.res1 := rfl
@[simp] theorem dropWrite_mem (s : State) : (dropWrite s).mem = s.mem := rfl
@[simp] theorem dropWrite_dir (s : State) : (dropWrite s).dir = s.dir := rfl
@[simp] theorem dropWrite_ola (s : State) : (dropWrite s).ola = s.ola := rfl
@[simp] theorem dropWrite_irq (s : State) : (dropWrite s).irq = s.irq := rfl
@[simp] theorem dropWrite_params (s : State) : (dropWrite s).params = s.params := rfl
@[simp] theorem dropWrite_host (s : State) : (dropWrite s).host = s.host := rfl
@[simp] theorem dropWrite_responses (s : State) : (dropWrite s).responses = s.responses := rfl
@[simp] theorem dropWrite_draws (s : State) : (dropWrite s).draws = s.draws := rfl

/-! ### `statusWrite` -/

@[simp] theorem statusWrite_ctrlIe (v : Word) (s : State) : (statusWrite v s).ctrlIe = s.ctrlIe := rfl
@[simp] theorem statusWrite_statusBusy (v : Word) (s : State) : (statusWrite v s).statusBusy = s.statusBusy := rfl
@[simp] theorem statusWrite_statusDone (v : Word) (s : State) : (statusWrite v s).statusDone = (s.statusDone && !v.getLsbD 1) := rfl
@[simp] theorem statusWrite_statusHaz (v : Word) (s : State) : (statusWrite v s).statusHaz = (s.statusHaz && !v.getLsbD 2) := rfl
@[simp] theorem statusWrite_statusErr (v : Word) (s : State) : (statusWrite v s).statusErr = s.statusErr := rfl
@[simp] theorem statusWrite_cmd (v : Word) (s : State) : (statusWrite v s).cmd = s.cmd := rfl
@[simp] theorem statusWrite_aSrc (v : Word) (s : State) : (statusWrite v s).aSrc = s.aSrc := rfl
@[simp] theorem statusWrite_aDst (v : Word) (s : State) : (statusWrite v s).aDst = s.aDst := rfl
@[simp] theorem statusWrite_aLen (v : Word) (s : State) : (statusWrite v s).aLen = s.aLen := rfl
@[simp] theorem statusWrite_aAux (v : Word) (s : State) : (statusWrite v s).aAux = s.aAux := rfl
@[simp] theorem statusWrite_aWlen (v : Word) (s : State) : (statusWrite v s).aWlen = s.aWlen := rfl
@[simp] theorem statusWrite_res0 (v : Word) (s : State) : (statusWrite v s).res0 = s.res0 := rfl
@[simp] theorem statusWrite_res1 (v : Word) (s : State) : (statusWrite v s).res1 = s.res1 := rfl
@[simp] theorem statusWrite_mem (v : Word) (s : State) : (statusWrite v s).mem = s.mem := rfl
@[simp] theorem statusWrite_dir (v : Word) (s : State) : (statusWrite v s).dir = s.dir := rfl
@[simp] theorem statusWrite_ola (v : Word) (s : State) : (statusWrite v s).ola = s.ola := rfl
@[simp] theorem statusWrite_irq (v : Word) (s : State) : (statusWrite v s).irq = s.irq := rfl
@[simp] theorem statusWrite_params (v : Word) (s : State) : (statusWrite v s).params = s.params := rfl
@[simp] theorem statusWrite_host (v : Word) (s : State) : (statusWrite v s).host = s.host := rfl
@[simp] theorem statusWrite_responses (v : Word) (s : State) : (statusWrite v s).responses = s.responses := rfl
@[simp] theorem statusWrite_draws (v : Word) (s : State) : (statusWrite v s).draws = s.draws := rfl

/-! ### `ctrlWrite` -/

@[simp] theorem ctrlWrite_ctrlIe (v : Word) (s : State) : (ctrlWrite v s).ctrlIe = v.getLsbD 0 := rfl
@[simp] theorem ctrlWrite_statusBusy (v : Word) (s : State) : (ctrlWrite v s).statusBusy = s.statusBusy := rfl
@[simp] theorem ctrlWrite_statusDone (v : Word) (s : State) : (ctrlWrite v s).statusDone = s.statusDone := rfl
@[simp] theorem ctrlWrite_statusHaz (v : Word) (s : State) : (ctrlWrite v s).statusHaz = s.statusHaz := rfl
@[simp] theorem ctrlWrite_statusErr (v : Word) (s : State) : (ctrlWrite v s).statusErr = s.statusErr := rfl
@[simp] theorem ctrlWrite_cmd (v : Word) (s : State) : (ctrlWrite v s).cmd = s.cmd := rfl
@[simp] theorem ctrlWrite_aSrc (v : Word) (s : State) : (ctrlWrite v s).aSrc = s.aSrc := rfl
@[simp] theorem ctrlWrite_aDst (v : Word) (s : State) : (ctrlWrite v s).aDst = s.aDst := rfl
@[simp] theorem ctrlWrite_aLen (v : Word) (s : State) : (ctrlWrite v s).aLen = s.aLen := rfl
@[simp] theorem ctrlWrite_aAux (v : Word) (s : State) : (ctrlWrite v s).aAux = s.aAux := rfl
@[simp] theorem ctrlWrite_aWlen (v : Word) (s : State) : (ctrlWrite v s).aWlen = s.aWlen := rfl
@[simp] theorem ctrlWrite_res0 (v : Word) (s : State) : (ctrlWrite v s).res0 = s.res0 := rfl
@[simp] theorem ctrlWrite_res1 (v : Word) (s : State) : (ctrlWrite v s).res1 = s.res1 := rfl
@[simp] theorem ctrlWrite_mem (v : Word) (s : State) : (ctrlWrite v s).mem = s.mem := rfl
@[simp] theorem ctrlWrite_dir (v : Word) (s : State) : (ctrlWrite v s).dir = s.dir := rfl
@[simp] theorem ctrlWrite_ola (v : Word) (s : State) : (ctrlWrite v s).ola = s.ola := rfl
@[simp] theorem ctrlWrite_irq (v : Word) (s : State) : (ctrlWrite v s).irq = s.irq := rfl
@[simp] theorem ctrlWrite_params (v : Word) (s : State) : (ctrlWrite v s).params = s.params := rfl
@[simp] theorem ctrlWrite_host (v : Word) (s : State) : (ctrlWrite v s).host = s.host := rfl
@[simp] theorem ctrlWrite_responses (v : Word) (s : State) : (ctrlWrite v s).responses = s.responses := rfl
@[simp] theorem ctrlWrite_draws (v : Word) (s : State) : (ctrlWrite v s).draws = s.draws := rfl

/-! ### `setDir` -/

@[simp] theorem setDir_ctrlIe (d : Nat) (c : DirCtx Val) (s : State) : (setDir d c s).ctrlIe = s.ctrlIe := rfl
@[simp] theorem setDir_statusBusy (d : Nat) (c : DirCtx Val) (s : State) : (setDir d c s).statusBusy = s.statusBusy := rfl
@[simp] theorem setDir_statusDone (d : Nat) (c : DirCtx Val) (s : State) : (setDir d c s).statusDone = s.statusDone := rfl
@[simp] theorem setDir_statusHaz (d : Nat) (c : DirCtx Val) (s : State) : (setDir d c s).statusHaz = s.statusHaz := rfl
@[simp] theorem setDir_statusErr (d : Nat) (c : DirCtx Val) (s : State) : (setDir d c s).statusErr = s.statusErr := rfl
@[simp] theorem setDir_cmd (d : Nat) (c : DirCtx Val) (s : State) : (setDir d c s).cmd = s.cmd := rfl
@[simp] theorem setDir_aSrc (d : Nat) (c : DirCtx Val) (s : State) : (setDir d c s).aSrc = s.aSrc := rfl
@[simp] theorem setDir_aDst (d : Nat) (c : DirCtx Val) (s : State) : (setDir d c s).aDst = s.aDst := rfl
@[simp] theorem setDir_aLen (d : Nat) (c : DirCtx Val) (s : State) : (setDir d c s).aLen = s.aLen := rfl
@[simp] theorem setDir_aAux (d : Nat) (c : DirCtx Val) (s : State) : (setDir d c s).aAux = s.aAux := rfl
@[simp] theorem setDir_aWlen (d : Nat) (c : DirCtx Val) (s : State) : (setDir d c s).aWlen = s.aWlen := rfl
@[simp] theorem setDir_res0 (d : Nat) (c : DirCtx Val) (s : State) : (setDir d c s).res0 = s.res0 := rfl
@[simp] theorem setDir_res1 (d : Nat) (c : DirCtx Val) (s : State) : (setDir d c s).res1 = s.res1 := rfl
@[simp] theorem setDir_mem (d : Nat) (c : DirCtx Val) (s : State) : (setDir d c s).mem = s.mem := rfl
@[simp] theorem setDir_dir (d : Nat) (c : DirCtx Val) (s : State) : (setDir d c s).dir = s.dir.set d c := rfl
@[simp] theorem setDir_ola (d : Nat) (c : DirCtx Val) (s : State) : (setDir d c s).ola = s.ola := rfl
@[simp] theorem setDir_irq (d : Nat) (c : DirCtx Val) (s : State) : (setDir d c s).irq = s.irq := rfl
@[simp] theorem setDir_params (d : Nat) (c : DirCtx Val) (s : State) : (setDir d c s).params = s.params := rfl
@[simp] theorem setDir_host (d : Nat) (c : DirCtx Val) (s : State) : (setDir d c s).host = s.host := rfl
@[simp] theorem setDir_responses (d : Nat) (c : DirCtx Val) (s : State) : (setDir d c s).responses = s.responses := rfl
@[simp] theorem setDir_draws (d : Nat) (c : DirCtx Val) (s : State) : (setDir d c s).draws = s.draws := rfl

/-! ### `setOla` -/

@[simp] theorem setOla_ctrlIe (o : Nat) (c : OlaCtx Val) (s : State) : (setOla o c s).ctrlIe = s.ctrlIe := rfl
@[simp] theorem setOla_statusBusy (o : Nat) (c : OlaCtx Val) (s : State) : (setOla o c s).statusBusy = s.statusBusy := rfl
@[simp] theorem setOla_statusDone (o : Nat) (c : OlaCtx Val) (s : State) : (setOla o c s).statusDone = s.statusDone := rfl
@[simp] theorem setOla_statusHaz (o : Nat) (c : OlaCtx Val) (s : State) : (setOla o c s).statusHaz = s.statusHaz := rfl
@[simp] theorem setOla_statusErr (o : Nat) (c : OlaCtx Val) (s : State) : (setOla o c s).statusErr = s.statusErr := rfl
@[simp] theorem setOla_cmd (o : Nat) (c : OlaCtx Val) (s : State) : (setOla o c s).cmd = s.cmd := rfl
@[simp] theorem setOla_aSrc (o : Nat) (c : OlaCtx Val) (s : State) : (setOla o c s).aSrc = s.aSrc := rfl
@[simp] theorem setOla_aDst (o : Nat) (c : OlaCtx Val) (s : State) : (setOla o c s).aDst = s.aDst := rfl
@[simp] theorem setOla_aLen (o : Nat) (c : OlaCtx Val) (s : State) : (setOla o c s).aLen = s.aLen := rfl
@[simp] theorem setOla_aAux (o : Nat) (c : OlaCtx Val) (s : State) : (setOla o c s).aAux = s.aAux := rfl
@[simp] theorem setOla_aWlen (o : Nat) (c : OlaCtx Val) (s : State) : (setOla o c s).aWlen = s.aWlen := rfl
@[simp] theorem setOla_res0 (o : Nat) (c : OlaCtx Val) (s : State) : (setOla o c s).res0 = s.res0 := rfl
@[simp] theorem setOla_res1 (o : Nat) (c : OlaCtx Val) (s : State) : (setOla o c s).res1 = s.res1 := rfl
@[simp] theorem setOla_mem (o : Nat) (c : OlaCtx Val) (s : State) : (setOla o c s).mem = s.mem := rfl
@[simp] theorem setOla_dir (o : Nat) (c : OlaCtx Val) (s : State) : (setOla o c s).dir = s.dir := rfl
@[simp] theorem setOla_ola (o : Nat) (c : OlaCtx Val) (s : State) : (setOla o c s).ola = s.ola.set o c := rfl
@[simp] theorem setOla_irq (o : Nat) (c : OlaCtx Val) (s : State) : (setOla o c s).irq = s.irq := rfl
@[simp] theorem setOla_params (o : Nat) (c : OlaCtx Val) (s : State) : (setOla o c s).params = s.params := rfl
@[simp] theorem setOla_host (o : Nat) (c : OlaCtx Val) (s : State) : (setOla o c s).host = s.host := rfl
@[simp] theorem setOla_responses (o : Nat) (c : OlaCtx Val) (s : State) : (setOla o c s).responses = s.responses := rfl
@[simp] theorem setOla_draws (o : Nat) (c : OlaCtx Val) (s : State) : (setOla o c s).draws = s.draws := rfl

/-! ### `setMem` -/

@[simp] theorem setMem_ctrlIe (m : Memory) (s : State) : (setMem m s).ctrlIe = s.ctrlIe := rfl
@[simp] theorem setMem_statusBusy (m : Memory) (s : State) : (setMem m s).statusBusy = s.statusBusy := rfl
@[simp] theorem setMem_statusDone (m : Memory) (s : State) : (setMem m s).statusDone = s.statusDone := rfl
@[simp] theorem setMem_statusHaz (m : Memory) (s : State) : (setMem m s).statusHaz = s.statusHaz := rfl
@[simp] theorem setMem_statusErr (m : Memory) (s : State) : (setMem m s).statusErr = s.statusErr := rfl
@[simp] theorem setMem_cmd (m : Memory) (s : State) : (setMem m s).cmd = s.cmd := rfl
@[simp] theorem setMem_aSrc (m : Memory) (s : State) : (setMem m s).aSrc = s.aSrc := rfl
@[simp] theorem setMem_aDst (m : Memory) (s : State) : (setMem m s).aDst = s.aDst := rfl
@[simp] theorem setMem_aLen (m : Memory) (s : State) : (setMem m s).aLen = s.aLen := rfl
@[simp] theorem setMem_aAux (m : Memory) (s : State) : (setMem m s).aAux = s.aAux := rfl
@[simp] theorem setMem_aWlen (m : Memory) (s : State) : (setMem m s).aWlen = s.aWlen := rfl
@[simp] theorem setMem_res0 (m : Memory) (s : State) : (setMem m s).res0 = s.res0 := rfl
@[simp] theorem setMem_res1 (m : Memory) (s : State) : (setMem m s).res1 = s.res1 := rfl
@[simp] theorem setMem_mem (m : Memory) (s : State) : (setMem m s).mem = m := rfl
@[simp] theorem setMem_dir (m : Memory) (s : State) : (setMem m s).dir = s.dir := rfl
@[simp] theorem setMem_ola (m : Memory) (s : State) : (setMem m s).ola = s.ola := rfl
@[simp] theorem setMem_irq (m : Memory) (s : State) : (setMem m s).irq = s.irq := rfl
@[simp] theorem setMem_params (m : Memory) (s : State) : (setMem m s).params = s.params := rfl
@[simp] theorem setMem_host (m : Memory) (s : State) : (setMem m s).host = s.host := rfl
@[simp] theorem setMem_responses (m : Memory) (s : State) : (setMem m s).responses = s.responses := rfl
@[simp] theorem setMem_draws (m : Memory) (s : State) : (setMem m s).draws = s.draws := rfl

/-! ### `writeDst` -/

@[simp] theorem writeDst_ctrlIe (vs : List Val) (s : State) : (writeDst vs s).ctrlIe = s.ctrlIe := rfl
@[simp] theorem writeDst_statusBusy (vs : List Val) (s : State) : (writeDst vs s).statusBusy = s.statusBusy := rfl
@[simp] theorem writeDst_statusDone (vs : List Val) (s : State) : (writeDst vs s).statusDone = s.statusDone := rfl
@[simp] theorem writeDst_statusHaz (vs : List Val) (s : State) : (writeDst vs s).statusHaz = s.statusHaz := rfl
@[simp] theorem writeDst_statusErr (vs : List Val) (s : State) : (writeDst vs s).statusErr = s.statusErr := rfl
@[simp] theorem writeDst_cmd (vs : List Val) (s : State) : (writeDst vs s).cmd = s.cmd := rfl
@[simp] theorem writeDst_aSrc (vs : List Val) (s : State) : (writeDst vs s).aSrc = s.aSrc := rfl
@[simp] theorem writeDst_aDst (vs : List Val) (s : State) : (writeDst vs s).aDst = s.aDst := rfl
@[simp] theorem writeDst_aLen (vs : List Val) (s : State) : (writeDst vs s).aLen = s.aLen := rfl
@[simp] theorem writeDst_aAux (vs : List Val) (s : State) : (writeDst vs s).aAux = s.aAux := rfl
@[simp] theorem writeDst_aWlen (vs : List Val) (s : State) : (writeDst vs s).aWlen = s.aWlen := rfl
@[simp] theorem writeDst_res0 (vs : List Val) (s : State) : (writeDst vs s).res0 = s.res0 := rfl
@[simp] theorem writeDst_res1 (vs : List Val) (s : State) : (writeDst vs s).res1 = s.res1 := rfl
@[simp] theorem writeDst_mem (vs : List Val) (s : State) : (writeDst vs s).mem = memWrite s.params.fmt s.mem (dstIndex s) vs := rfl
@[simp] theorem writeDst_dir (vs : List Val) (s : State) : (writeDst vs s).dir = s.dir := rfl
@[simp] theorem writeDst_ola (vs : List Val) (s : State) : (writeDst vs s).ola = s.ola := rfl
@[simp] theorem writeDst_irq (vs : List Val) (s : State) : (writeDst vs s).irq = s.irq := rfl
@[simp] theorem writeDst_params (vs : List Val) (s : State) : (writeDst vs s).params = s.params := rfl
@[simp] theorem writeDst_host (vs : List Val) (s : State) : (writeDst vs s).host = s.host := rfl
@[simp] theorem writeDst_responses (vs : List Val) (s : State) : (writeDst vs s).responses = s.responses := rfl
@[simp] theorem writeDst_draws (vs : List Val) (s : State) : (writeDst vs s).draws = s.draws := rfl

/-! ### `respond` -/

@[simp] theorem respond_ctrlIe (x : Word) (b : Bool) (s : State) : (respond x b s).ctrlIe = s.ctrlIe := rfl
@[simp] theorem respond_statusBusy (x : Word) (b : Bool) (s : State) : (respond x b s).statusBusy = s.statusBusy := rfl
@[simp] theorem respond_statusDone (x : Word) (b : Bool) (s : State) : (respond x b s).statusDone = s.statusDone := rfl
@[simp] theorem respond_statusHaz (x : Word) (b : Bool) (s : State) : (respond x b s).statusHaz = s.statusHaz := rfl
@[simp] theorem respond_statusErr (x : Word) (b : Bool) (s : State) : (respond x b s).statusErr = s.statusErr := rfl
@[simp] theorem respond_cmd (x : Word) (b : Bool) (s : State) : (respond x b s).cmd = s.cmd := rfl
@[simp] theorem respond_aSrc (x : Word) (b : Bool) (s : State) : (respond x b s).aSrc = s.aSrc := rfl
@[simp] theorem respond_aDst (x : Word) (b : Bool) (s : State) : (respond x b s).aDst = s.aDst := rfl
@[simp] theorem respond_aLen (x : Word) (b : Bool) (s : State) : (respond x b s).aLen = s.aLen := rfl
@[simp] theorem respond_aAux (x : Word) (b : Bool) (s : State) : (respond x b s).aAux = s.aAux := rfl
@[simp] theorem respond_aWlen (x : Word) (b : Bool) (s : State) : (respond x b s).aWlen = s.aWlen := rfl
@[simp] theorem respond_res0 (x : Word) (b : Bool) (s : State) : (respond x b s).res0 = s.res0 := rfl
@[simp] theorem respond_res1 (x : Word) (b : Bool) (s : State) : (respond x b s).res1 = s.res1 := rfl
@[simp] theorem respond_mem (x : Word) (b : Bool) (s : State) : (respond x b s).mem = s.mem := rfl
@[simp] theorem respond_dir (x : Word) (b : Bool) (s : State) : (respond x b s).dir = s.dir := rfl
@[simp] theorem respond_ola (x : Word) (b : Bool) (s : State) : (respond x b s).ola = s.ola := rfl
@[simp] theorem respond_irq (x : Word) (b : Bool) (s : State) : (respond x b s).irq = s.irq := rfl
@[simp] theorem respond_params (x : Word) (b : Bool) (s : State) : (respond x b s).params = s.params := rfl
@[simp] theorem respond_host (x : Word) (b : Bool) (s : State) : (respond x b s).host = s.host := rfl
@[simp] theorem respond_responses (x : Word) (b : Bool) (s : State) : (respond x b s).responses = { data := x, error := b } :: s.responses := rfl
@[simp] theorem respond_draws (x : Word) (b : Bool) (s : State) : (respond x b s).draws = s.draws := rfl

/-! ### `issueCommand` -/

@[simp] theorem issueCommand_ctrlIe (w : Word) (s : State) : (issueCommand w s).ctrlIe = s.ctrlIe := rfl
@[simp] theorem issueCommand_statusBusy (w : Word) (s : State) : (issueCommand w s).statusBusy = true := rfl
@[simp] theorem issueCommand_statusDone (w : Word) (s : State) : (issueCommand w s).statusDone = false := rfl
@[simp] theorem issueCommand_statusHaz (w : Word) (s : State) : (issueCommand w s).statusHaz = s.statusHaz := rfl
@[simp] theorem issueCommand_statusErr (w : Word) (s : State) : (issueCommand w s).statusErr = .ok := rfl
@[simp] theorem issueCommand_cmd (w : Word) (s : State) : (issueCommand w s).cmd = w := rfl
@[simp] theorem issueCommand_aSrc (w : Word) (s : State) : (issueCommand w s).aSrc = s.aSrc := rfl
@[simp] theorem issueCommand_aDst (w : Word) (s : State) : (issueCommand w s).aDst = s.aDst := rfl
@[simp] theorem issueCommand_aLen (w : Word) (s : State) : (issueCommand w s).aLen = s.aLen := rfl
@[simp] theorem issueCommand_aAux (w : Word) (s : State) : (issueCommand w s).aAux = s.aAux := rfl
@[simp] theorem issueCommand_aWlen (w : Word) (s : State) : (issueCommand w s).aWlen = s.aWlen := rfl
@[simp] theorem issueCommand_res0 (w : Word) (s : State) : (issueCommand w s).res0 = s.res0 := rfl
@[simp] theorem issueCommand_res1 (w : Word) (s : State) : (issueCommand w s).res1 = s.res1 := rfl
@[simp] theorem issueCommand_mem (w : Word) (s : State) : (issueCommand w s).mem = s.mem := rfl
@[simp] theorem issueCommand_dir (w : Word) (s : State) : (issueCommand w s).dir = s.dir := rfl
@[simp] theorem issueCommand_ola (w : Word) (s : State) : (issueCommand w s).ola = s.ola := rfl
@[simp] theorem issueCommand_irq (w : Word) (s : State) : (issueCommand w s).irq = (s.ctrlIe && false) := rfl
@[simp] theorem issueCommand_params (w : Word) (s : State) : (issueCommand w s).params = s.params := rfl
@[simp] theorem issueCommand_host (w : Word) (s : State) : (issueCommand w s).host = s.host := rfl
@[simp] theorem issueCommand_responses (w : Word) (s : State) : (issueCommand w s).responses = s.responses := rfl
@[simp] theorem issueCommand_draws (w : Word) (s : State) : (issueCommand w s).draws = s.draws := rfl

end Sys2Proof.Machine
end

