-- ==== Sys2Proof/Laws/Numbers.lean ====
section
/-! SUPPORT. The arithmetic of `NUMFMT` on patterns (R9, D3): what a packed pattern is, what every operation answers in width, that
a NaN stays a NaN whatever is drawn for it, and how signs pass through products and quotients. -/

namespace Sys2Proof.Machine

/-! ### Patterns -/

theorem infBits_lt (f : Fmt) : f.infBits < 2 ^ f.signBit := by cases f <;> decide

theorem infBits_add_lt (f : Fmt) : f.infBits + 2 ^ (f.prec - 2) + 2 ^ (f.prec - 2) ≤ 2 ^ f.signBit := by
  cases f <;> decide

theorem width_le (f : Fmt) : 2 ^ (f.signBit + 1) ≤ 2 ^ 64 := by cases f <;> decide

theorem fpPack_toNat (f : Fmt) (neg : Bool) {m : Nat} (h : m < 2 ^ f.signBit) :
    (fpPack f neg m).toNat = m + if neg then 2 ^ f.signBit else 0 := by
  have hw := width_le f
  have h2 : 2 ^ (f.signBit + 1) = 2 ^ f.signBit + 2 ^ f.signBit := by rw [Nat.pow_succ]; omega
  rw [fpPack, BitVec.toNat_ofNat, Nat.mod_eq_of_lt]
  split <;> omega

theorem fpAbs_pack (f : Fmt) (neg : Bool) {m : Nat} (h : m < 2 ^ f.signBit) : fpAbs f (fpPack f neg m) = m := by
  rw [fpAbs, fpPack_toNat f neg h]
  split
  · rw [Nat.add_mod_right, Nat.mod_eq_of_lt h]
  · rw [Nat.add_zero, Nat.mod_eq_of_lt h]

/-- The sign bit as a number. -/
theorem fpSign_eq (f : Fmt) (v : Val) : fpSign f v = decide (v.toNat / 2 ^ f.signBit % 2 = 1) := by
  rw [fpSign, BitVec.getLsbD, Nat.testBit_eq_decide_div_mod_eq]

theorem fpSign_pack (f : Fmt) (neg : Bool) {m : Nat} (h : m < 2 ^ f.signBit) : fpSign f (fpPack f neg m) = neg := by
  rw [fpSign_eq, fpPack_toNat f neg h]
  cases neg
  · simp [Nat.div_eq_of_lt h]
  · simp [Nat.add_div_right _ (Nat.two_pow_pos _), Nat.div_eq_of_lt h]

theorem fpInWidth_pack (f : Fmt) (neg : Bool) {m : Nat} (h : m < 2 ^ f.signBit) :
    fpInWidth f (fpPack f neg m) = true := by
  have h2 : 2 ^ (f.signBit + 1) = 2 ^ f.signBit + 2 ^ f.signBit := by rw [Nat.pow_succ]; omega
  rw [fpInWidth, fpPack_toNat f neg h, decide_eq_true_iff]
  split <;> omega

theorem fpAbs_lt (f : Fmt) (v : Val) : fpAbs f v < 2 ^ f.signBit := Nat.mod_lt _ (Nat.two_pow_pos _)

/-- A pattern of the format is its sign and its other bits. -/
theorem fpPack_sign_abs {f : Fmt} {v : Val} (h : fpInWidth f v = true) : fpPack f (fpSign f v) (fpAbs f v) = v := by
  have h2 : 2 ^ (f.signBit + 1) = 2 ^ f.signBit * 2 := Nat.pow_succ ..
  rw [fpInWidth, decide_eq_true_iff, h2] at h
  apply BitVec.eq_of_toNat_eq
  rw [fpPack_toNat f _ (fpAbs_lt f v), fpSign_eq, fpAbs]
  have hd := Nat.div_add_mod v.toNat (2 ^ f.signBit)
  have hq : v.toNat / 2 ^ f.signBit < 2 := Nat.div_lt_of_lt_mul h
  generalize v.toNat / 2 ^ f.signBit = q at hd hq ⊢
  have hq' : q = 0 ∨ q = 1 := by omega
  rcases hq' with rfl | rfl
  · simpa using hd
  · simp only [Nat.mul_one] at hd
    simp only [Nat.one_mod, decide_true, if_true]
    omega

theorem eq_of_sign_abs {f : Fmt} {v w : Val} (hv : fpInWidth f v = true) (hw : fpInWidth f w = true)
    (hs : fpSign f v = fpSign f w) (ha : fpAbs f v = fpAbs f w) : v = w := by
  rw [← fpPack_sign_abs hv, ← fpPack_sign_abs hw, hs, ha]

theorem fpMask_inWidth (f : Fmt) (v : Val) : fpInWidth f (fpMask f v) = true := by
  have hw := width_le f
  have := Nat.mod_lt v.toNat (Nat.two_pow_pos (f.signBit + 1))
  rw [fpInWidth, decide_eq_true_iff, fpMask, BitVec.toNat_ofNat, Nat.mod_eq_of_lt (by omega)]
  exact this

theorem fpMask_of_inWidth {f : Fmt} {v : Val} (h : fpInWidth f v = true) : fpMask f v = v := by
  rw [fpInWidth, decide_eq_true_iff] at h
  rw [fpMask, Nat.mod_eq_of_lt h, BitVec.ofNat_toNat, BitVec.setWidth_eq]

theorem fpZero_inWidth (f : Fmt) : fpInWidth f fpZero = true := by
  simp [fpInWidth, fpZero]

@[simp] theorem fpAbs_zero (f : Fmt) : fpAbs f fpZero = 0 := by simp [fpAbs, fpZero]

/-! ### NaNs -/

/-- A drawn NaN, its bits below the sign. -/
theorem fpAbs_nan (f : Fmt) (d : Val) :
    fpAbs f (fpNaN f d) = f.infBits + 2 ^ (f.prec - 2) + d.toNat % 2 ^ (f.prec - 2) := by
  have h1 := infBits_add_lt f
  have h2 := Nat.mod_lt d.toNat (Nat.two_pow_pos (f.prec - 2))
  exact fpAbs_pack f _ (by omega)

theorem fpIsNaN_nan (f : Fmt) (d : Val) : fpIsNaN f (fpNaN f d) = true := by
  have := Nat.two_pow_pos (f.prec - 2)
  rw [fpIsNaN, fpAbs_nan, decide_eq_true_iff]
  omega

theorem fpInWidth_nan (f : Fmt) (d : Val) : fpInWidth f (fpNaN f d) = true := by
  have h1 := infBits_add_lt f
  have h2 := Nat.mod_lt d.toNat (Nat.two_pow_pos (f.prec - 2))
  exact fpInWidth_pack f _ (by omega)

theorem roundMag_le (f : Fmt) (n d : Nat) : roundMag f n d ≤ f.infBits := Nat.min_le_right _ _

/-- A pattern no larger than an infinity's is not a NaN. -/
theorem fpIsNaN_pack {f : Fmt} {neg : Bool} {m : Nat} (h : m ≤ f.infBits) : fpIsNaN f (fpPack f neg m) = false := by
  have := infBits_lt f
  rw [fpIsNaN, fpAbs_pack f _ (by omega), decide_eq_false_iff_not]
  omega

theorem fpInWidth_pack_le {f : Fmt} {neg : Bool} {m : Nat} (h : m ≤ f.infBits) :
    fpInWidth f (fpPack f neg m) = true := by
  have := infBits_lt f
  exact fpInWidth_pack f _ (by omega)

theorem fpAbs_pack_le {f : Fmt} {neg : Bool} {m : Nat} (h : m ≤ f.infBits) : fpAbs f (fpPack f neg m) = m := by
  have := infBits_lt f
  exact fpAbs_pack f _ (by omega)

theorem fpSign_pack_le {f : Fmt} {neg : Bool} {m : Nat} (h : m ≤ f.infBits) : fpSign f (fpPack f neg m) = neg := by
  have := infBits_lt f
  exact fpSign_pack f _ (by omega)

/-- A finite value is no NaN. -/
theorem not_nan_of_finite {f : Fmt} {v : Val} (h : fpIsFinite f v = true) : fpIsNaN f v = false := by
  rw [fpIsFinite, decide_eq_true_iff] at h
  rw [fpIsNaN, decide_eq_false_iff_not]
  omega

/-! ### Every operation: a NaN that does not depend on anything but the draw, or a value that does not depend on the draw -/

/-- The shape every operation's answer has: the drawn NaN where `nan` holds, else the packed pattern. -/
theorem fpOfInt_eq_pack (f : Fmt) (z : Bool) (x : Int) :
    ∃ neg m, m ≤ f.infBits ∧ fpOfInt f z x = fpPack f neg m := by
  unfold fpOfInt
  split
  · exact ⟨z, 0, Nat.zero_le _, rfl⟩
  · exact ⟨_, _, roundMag_le _ _ _, rfl⟩

/-- `⊕` draws a NaN, or answers a value the draw does not enter. -/
theorem fpAdd_cases (f : Fmt) (a b : Val) :
    (∀ d, fpAdd f d a b = fpNaN f d) ∨
    (fpIsNaN f a = false ∧ fpIsNaN f b = false ∧ ∃ neg m, m ≤ f.infBits ∧ ∀ d, fpAdd f d a b = fpPack f neg m) := by
  unfold fpAdd
  split
  · exact .inl fun _ => rfl
  · rename_i hn
    rw [Bool.or_eq_true, not_or, Bool.not_eq_true, Bool.not_eq_true] at hn
    split
    · split
      · exact .inl fun _ => rfl
      · exact .inr ⟨hn.1, hn.2, _, _, le_refl _, fun _ => rfl⟩
    · split
      · exact .inr ⟨hn.1, hn.2, _, _, le_refl _, fun _ => rfl⟩
      · obtain ⟨neg, m, hm, h⟩ := fpOfInt_eq_pack f (fpSign f a && fpSign f b) (fpInt f a + fpInt f b)
        exact .inr ⟨hn.1, hn.2, neg, m, hm, fun _ => h⟩

/-- `⊗` draws a NaN, or answers a value the draw does not enter. -/
theorem fpMul_cases (f : Fmt) (a b : Val) :
    (∀ d, fpMul f d a b = fpNaN f d) ∨
    (fpIsNaN f a = false ∧ fpIsNaN f b = false ∧
      ∃ m, m ≤ f.infBits ∧ ∀ d, fpMul f d a b = fpPack f (fpSign f a != fpSign f b) m) := by
  unfold fpMul
  simp only
  split
  · exact .inl fun _ => rfl
  · rename_i hn
    rw [Bool.or_eq_true, not_or, Bool.not_eq_true, Bool.not_eq_true] at hn
    split
    · split
      · exact .inl fun _ => rfl
      · exact .inr ⟨hn.1, hn.2, _, le_refl _, fun _ => rfl⟩
    · exact .inr ⟨hn.1, hn.2, _, roundMag_le _ _ _, fun _ => rfl⟩

/-- `⊘` draws a NaN, or answers a value the draw does not enter. -/
theorem fpDiv_cases (f : Fmt) (a b : Val) :
    (∀ d, fpDiv f d a b = fpNaN f d) ∨
    (fpIsNaN f a = false ∧ fpIsNaN f b = false ∧
      ∃ m, m ≤ f.infBits ∧ ∀ d, fpDiv f d a b = fpPack f (fpSign f a != fpSign f b) m) := by
  unfold fpDiv
  simp only
  split
  · exact .inl fun _ => rfl
  · rename_i hn
    rw [Bool.or_eq_true, not_or, Bool.not_eq_true, Bool.not_eq_true] at hn
    split
    · split
      · exact .inl fun _ => rfl
      · exact .inr ⟨hn.1, hn.2, _, le_refl _, fun _ => rfl⟩
    · split
      · exact .inr ⟨hn.1, hn.2, _, Nat.zero_le _, fun _ => rfl⟩
      · split
        · split
          · exact .inl fun _ => rfl
          · exact .inr ⟨hn.1, hn.2, _, le_refl _, fun _ => rfl⟩
        · exact .inr ⟨hn.1, hn.2, _, roundMag_le _ _ _, fun _ => rfl⟩

theorem fpAdd_inWidth (f : Fmt) (d a b : Val) : fpInWidth f (fpAdd f d a b) = true := by
  rcases fpAdd_cases f a b with h | ⟨_, _, neg, m, hm, h⟩
  · rw [h]; exact fpInWidth_nan f d
  · rw [h]; exact fpInWidth_pack_le hm

theorem fpMul_inWidth (f : Fmt) (d a b : Val) : fpInWidth f (fpMul f d a b) = true := by
  rcases fpMul_cases f a b with h | ⟨_, _, m, hm, h⟩
  · rw [h]; exact fpInWidth_nan f d
  · rw [h]; exact fpInWidth_pack_le hm

theorem fpDiv_inWidth (f : Fmt) (d a b : Val) : fpInWidth f (fpDiv f d a b) = true := by
  rcases fpDiv_cases f a b with h | ⟨_, _, m, hm, h⟩
  · rw [h]; exact fpInWidth_nan f d
  · rw [h]; exact fpInWidth_pack_le hm

theorem fpOfRatio_inWidth (f : Fmt) (neg : Bool) (n d : Nat) : fpInWidth f (fpOfRatio f neg n d) = true :=
  fpInWidth_pack_le (roundMag_le _ _ _)

theorem fpNeg_inWidth (f : Fmt) (v : Val) : fpInWidth f (fpNeg f v) = true := fpInWidth_pack f _ (fpAbs_lt f v)

/-! ### A NaN operand gives a NaN -/

theorem fpAdd_nan_left {f : Fmt} {a : Val} (d b : Val) (h : fpIsNaN f a = true) : fpIsNaN f (fpAdd f d a b) = true := by
  simp [fpAdd, h, fpIsNaN_nan]

theorem fpAdd_nan_right {f : Fmt} {b : Val} (d a : Val) (h : fpIsNaN f b = true) : fpIsNaN f (fpAdd f d a b) = true := by
  simp [fpAdd, h, fpIsNaN_nan]

theorem fpMul_nan_left {f : Fmt} {a : Val} (d b : Val) (h : fpIsNaN f a = true) : fpIsNaN f (fpMul f d a b) = true := by
  simp [fpMul, h, fpIsNaN_nan]

theorem fpMul_nan_right {f : Fmt} {b : Val} (d a : Val) (h : fpIsNaN f b = true) : fpIsNaN f (fpMul f d a b) = true := by
  simp [fpMul, h, fpIsNaN_nan]

theorem fpDiv_nan_left {f : Fmt} {a : Val} (d b : Val) (h : fpIsNaN f a = true) : fpIsNaN f (fpDiv f d a b) = true := by
  simp [fpDiv, h, fpIsNaN_nan]

theorem fpDiv_nan_right {f : Fmt} {b : Val} (d a : Val) (h : fpIsNaN f b = true) : fpIsNaN f (fpDiv f d a b) = true := by
  simp [fpDiv, h, fpIsNaN_nan]

/-! ### Negation -/

@[simp] theorem fpAbs_neg (f : Fmt) (v : Val) : fpAbs f (fpNeg f v) = fpAbs f v := fpAbs_pack f _ (fpAbs_lt f v)

@[simp] theorem fpSign_neg (f : Fmt) (v : Val) : fpSign f (fpNeg f v) = !fpSign f v := fpSign_pack f _ (fpAbs_lt f v)

@[simp] theorem fpIsNaN_neg (f : Fmt) (v : Val) : fpIsNaN f (fpNeg f v) = fpIsNaN f v := by simp [fpIsNaN]

@[simp] theorem fpIsInf_neg (f : Fmt) (v : Val) : fpIsInf f (fpNeg f v) = fpIsInf f v := by simp [fpIsInf]

@[simp] theorem fpIsZero_neg (f : Fmt) (v : Val) : fpIsZero f (fpNeg f v) = fpIsZero f v := by simp [fpIsZero]

@[simp] theorem fpIsFinite_neg (f : Fmt) (v : Val) : fpIsFinite f (fpNeg f v) = fpIsFinite f v := by simp [fpIsFinite]

@[simp] theorem fpMag_neg (f : Fmt) (v : Val) : fpMag f (fpNeg f v) = fpMag f v := by simp [fpMag]

theorem fpNeg_neg {f : Fmt} {v : Val} (h : fpInWidth f v = true) : fpNeg f (fpNeg f v) = v := by
  refine eq_of_sign_abs (fpNeg_inWidth _ _) h ?_ ?_ <;> simp

theorem fpNeg_pack {f : Fmt} {neg : Bool} {m : Nat} (h : m ≤ f.infBits) :
    fpNeg f (fpPack f neg m) = fpPack f (!neg) m := by
  rw [fpNeg, fpSign_pack_le h, fpAbs_pack_le h]

/-! ### Equal up to the payload of a NaN -/

theorem SameValue.rfl' {f : Fmt} (a : Val) : SameValue f a a := .inl rfl

theorem SameValue.eq_of_not_nan {f : Fmt} {a b : Val} (h : SameValue f a b) (hn : fpIsNaN f a = false) : a = b := by
  rcases h with h | ⟨h, _⟩
  · exact h
  · rw [hn] at h; cases h

theorem SameValue.eq_of_finite {f : Fmt} {a b : Val} (h : SameValue f a b) (hf : fpIsFinite f a = true) : a = b :=
  h.eq_of_not_nan (not_nan_of_finite hf)

theorem SameValue.comm {f : Fmt} {a b : Val} (h : SameValue f a b) : SameValue f b a := by
  rcases h with h | ⟨h1, h2⟩
  · exact .inl h.symm
  · exact .inr ⟨h2, h1⟩

theorem SameValue.isNaN {f : Fmt} {a b : Val} (h : SameValue f a b) : fpIsNaN f a = fpIsNaN f b := by
  rcases h with h | ⟨h1, h2⟩
  · rw [h]
  · rw [h1, h2]

theorem SameValue.trans {f : Fmt} {a b c : Val} (h : SameValue f a b) (h' : SameValue f b c) : SameValue f a c := by
  rcases h with rfl | ⟨h1, h2⟩
  · exact h'
  · exact .inr ⟨h1, by rw [← h'.isNaN]; exact h2⟩

theorem SameValue.isFinite {f : Fmt} {a b : Val} (h : SameValue f a b) : fpIsFinite f a = fpIsFinite f b := by
  rcases h with h | ⟨h1, h2⟩
  · rw [h]
  · have e : ∀ v, fpIsNaN f v = true → fpIsFinite f v = false := fun v hv => by
      by_contra hc
      rw [Bool.not_eq_false] at hc
      rw [not_nan_of_finite hc] at hv
      cases hv
    rw [e a h1, e b h2]

theorem SameValue.isZero {f : Fmt} {a b : Val} (h : SameValue f a b) : fpIsZero f a = fpIsZero f b := by
  rcases h with h | ⟨h1, h2⟩
  · rw [h]
  · have e : ∀ v, fpIsNaN f v = true → fpIsZero f v = false := fun v hv => by
      rw [fpIsNaN, decide_eq_true_iff] at hv
      rw [fpIsZero, decide_eq_false_iff_not]
      omega
    rw [e a h1, e b h2]

theorem sameValue_add {f : Fmt} {a a' b b' : Val} (d d' : Val) (ha : SameValue f a a') (hb : SameValue f b b') :
    SameValue f (fpAdd f d a b) (fpAdd f d' a' b') := by
  rcases ha with rfl | ⟨h1, h2⟩
  · rcases hb with rfl | ⟨h1, h2⟩
    · rcases fpAdd_cases f a b with h | ⟨_, _, neg, m, _, h⟩
      · rw [h, h]; exact .inr ⟨fpIsNaN_nan f d, fpIsNaN_nan f d'⟩
      · rw [h, h]; exact .inl rfl
    · exact .inr ⟨fpAdd_nan_right d a h1, fpAdd_nan_right d' a h2⟩
  · exact .inr ⟨fpAdd_nan_left d b h1, fpAdd_nan_left d' b' h2⟩

theorem sameValue_mul {f : Fmt} {a a' b b' : Val} (d d' : Val) (ha : SameValue f a a') (hb : SameValue f b b') :
    SameValue f (fpMul f d a b) (fpMul f d' a' b') := by
  rcases ha with rfl | ⟨h1, h2⟩
  · rcases hb with rfl | ⟨h1, h2⟩
    · rcases fpMul_cases f a b with h | ⟨_, _, m, _, h⟩
      · rw [h, h]; exact .inr ⟨fpIsNaN_nan f d, fpIsNaN_nan f d'⟩
      · rw [h, h]; exact .inl rfl
    · exact .inr ⟨fpMul_nan_right d a h1, fpMul_nan_right d' a h2⟩
  · exact .inr ⟨fpMul_nan_left d b h1, fpMul_nan_left d' b' h2⟩

theorem sameValue_div {f : Fmt} {a a' b b' : Val} (d d' : Val) (ha : SameValue f a a') (hb : SameValue f b b') :
    SameValue f (fpDiv f d a b) (fpDiv f d' a' b') := by
  rcases ha with rfl | ⟨h1, h2⟩
  · rcases hb with rfl | ⟨h1, h2⟩
    · rcases fpDiv_cases f a b with h | ⟨_, _, m, _, h⟩
      · rw [h, h]; exact .inr ⟨fpIsNaN_nan f d, fpIsNaN_nan f d'⟩
      · rw [h, h]; exact .inl rfl
    · exact .inr ⟨fpDiv_nan_right d a h1, fpDiv_nan_right d' a h2⟩
  · exact .inr ⟨fpDiv_nan_left d b h1, fpDiv_nan_left d' b' h2⟩

theorem sameValue_neg {f : Fmt} {a a' : Val} (h : SameValue f a a') : SameValue f (fpNeg f a) (fpNeg f a') := by
  rcases h with rfl | ⟨h1, h2⟩
  · exact .inl rfl
  · exact .inr ⟨by rw [fpIsNaN_neg]; exact h1, by rw [fpIsNaN_neg]; exact h2⟩

theorem sameValue_sub {f : Fmt} {a a' b b' : Val} (d d' : Val) (ha : SameValue f a a') (hb : SameValue f b b') :
    SameValue f (fpSub f d a b) (fpSub f d' a' b') :=
  sameValue_add d d' ha (sameValue_neg hb)

/-! ### Signs through products and quotients -/

/-- A product's size does not depend on its operands' signs. -/
theorem fpMul_neg_right (f : Fmt) (d d' a b : Val) :
    SameValue f (fpMul f d a (fpNeg f b)) (fpNeg f (fpMul f d' a b)) := by
  by_cases hn : fpIsNaN f (fpMul f d' a b) = true
  · refine .inr ⟨?_, by rw [fpIsNaN_neg]; exact hn⟩
    revert hn
    simp only [fpMul, fpIsNaN_neg, fpIsInf_neg, fpIsZero_neg, fpMag_neg]
    split_ifs <;> simp [fpIsNaN_nan, fpIsNaN_pack, roundMag_le]
  · left
    revert hn
    simp only [fpMul, fpIsNaN_neg, fpIsInf_neg, fpIsZero_neg, fpMag_neg, fpSign_neg]
    split_ifs <;> simp [fpIsNaN_nan, fpNeg_pack, roundMag_le]

/-- A quotient of two negated operands is the quotient (R140). -/
theorem fpDiv_neg_neg (f : Fmt) (d d' a b : Val) :
    SameValue f (fpDiv f d (fpNeg f a) (fpNeg f b)) (fpDiv f d' a b) := by
  have h : fpDiv f d (fpNeg f a) (fpNeg f b) = fpDiv f d a b := by
    simp only [fpDiv, fpIsNaN_neg, fpIsInf_neg, fpIsZero_neg, fpMag_neg, fpSign_neg]
    cases fpSign f a <;> cases fpSign f b <;> rfl
  rw [h]
  exact sameValue_div d d' (.inl rfl) (.inl rfl)

end Sys2Proof.Machine
end

