-- ==== Sys2Proof/Laws/Engines.lean ====
section
/-! SUPPORT. The engines' loops over any arithmetic: what a sample does to a context, what stays, how many outputs there are, and
that a loop over two streams is the loop over the first and then the second. -/

namespace Sys2Proof.Machine

variable {α : Type}

/-! ### The direct engine -/

/-- The lengths and the cursor of a valid direct context (R41). -/
structure DirShape (c : DirCtx α) : Prop where
  one_le : 1 ≤ c.m
  taps : c.taps.length = c.m
  ring : c.ring.length = c.m - 1
  cursor : c.cursor ≤ c.m - 2

theorem dirShape_of_ok {p : Params} {c : DirCtx Val} (h : dirCtxOK p c = true) (hv : c.valid = true) : DirShape c := by
  simp only [dirCtxOK, hv, Bool.not_true, Bool.false_or, Bool.and_eq_true, decide_eq_true_eq] at h
  exact ⟨h.1.1.1.1.1.1, h.1.1.1.1.2, h.1.1.1.2, h.1.1.2⟩

theorem dirShape_construct (zero : α) {T : List α} (h : T ≠ []) : DirShape (dirConstruct zero T) :=
  ⟨List.length_pos_iff.2 h, rfl, by simp [dirConstruct], Nat.zero_le _⟩

@[simp] theorem pushSample_valid (c : DirCtx α) (x : α) : (pushSample c x).valid = c.valid := by
  unfold pushSample; split <;> rfl

@[simp] theorem pushSample_m (c : DirCtx α) (x : α) : (pushSample c x).m = c.m := by
  unfold pushSample; split <;> rfl

@[simp] theorem pushSample_taps (c : DirCtx α) (x : α) : (pushSample c x).taps = c.taps := by
  unfold pushSample; split <;> rfl

theorem dirShape_push {c : DirCtx α} (h : DirShape c) (x : α) : DirShape (pushSample c x) := by
  refine ⟨by simpa using h.one_le, by simpa using h.taps, ?_, ?_⟩
  · unfold pushSample
    split
    · simpa using h.ring
    · exact h.ring
  · unfold pushSample
    split
    · have := Nat.mod_lt (c.cursor + 1) (by omega : 0 < c.m - 1)
      show (c.cursor + 1) % (c.m - 1) ≤ c.m - 2
      omega
    · exact h.cursor

@[simp] theorem history_length (zero : α) (c : DirCtx α) : (history zero c).length = c.m - 1 := by simp [history]

theorem history_getD (zero : α) (c : DirCtx α) {i : Nat} (hi : i < c.m - 1) :
    (history zero c).getD i zero = c.ring.getD ((c.cursor + i) % (c.m - 1)) zero := by
  simp [history, List.getD_eq_getElem?_getD, hi]

/-- `Past(d, j)` is a sample of the logical history (R42, R162). -/
theorem pastSample_eq (A : Arith α) (c : DirCtx α) {j : Nat} (h1 : 1 ≤ j) (h2 : j ≤ c.m - 1) :
    pastSample A c j = (history A.zero c).getD (c.m - 1 - j) A.zero := by
  rw [history_getD _ _ (by omega), pastSample]
  congr 2
  omega

/-- The history of a construction is all zeros (R161). -/
theorem history_construct (zero : α) (T : List α) :
    history zero (dirConstruct zero T) = List.replicate (T.length - 1) zero := by
  apply List.ext_getElem (by simp [dirConstruct])
  intro i h1 h2
  have h : i < T.length - 1 := by simpa [dirConstruct] using h1
  simp [history, dirConstruct, List.getD_eq_getElem?_getD]

/-- A sample joins the history and the oldest leaves it (R164). -/
theorem history_push (zero : α) {c : DirCtx α} (h : DirShape c) (x : α) :
    history zero (pushSample c x) = (history zero c ++ [x]).drop 1 := by
  by_cases hm : 2 ≤ c.m
  · have hr : 0 < c.m - 1 := by omega
    have hcur : c.cursor < c.m - 1 := by have := h.cursor; omega
    have e : pushSample c x = { c with ring := c.ring.set c.cursor x, cursor := (c.cursor + 1) % (c.m - 1) } := by
      rw [pushSample, if_pos hm]
    rw [e]
    apply List.ext_getElem
    · simp
    · intro i h1 h2
      have hi : i < c.m - 1 := by simpa using h1
      have hlen := h.ring
      by_cases hl : i + 1 < c.m - 1
      · have hne : ¬c.cursor = (c.cursor + (i + 1)) % (c.m - 1) := by
          intro he
          by_cases hw : c.cursor + (i + 1) < c.m - 1
          · rw [Nat.mod_eq_of_lt hw] at he; omega
          · rw [Nat.mod_eq_sub_mod (by omega), Nat.mod_eq_of_lt (by omega)] at he; omega
        have hx : (1 + i) < (history zero c).length := by rw [history_length]; omega
        simp only [history, List.getElem_map, List.getElem_range, List.getElem_drop, Nat.mod_add_mod]
        rw [List.getElem_append_left (by simpa using by omega)]
        simp only [List.getElem_map, List.getElem_range, List.getD_eq_getElem?_getD]
        have ei : c.cursor + 1 + i = c.cursor + (i + 1) := by omega
        have ei' : c.cursor + (1 + i) = c.cursor + (i + 1) := by omega
        rw [ei, ei', List.getElem?_set_ne hne]
      · have hii : i = c.m - 1 - 1 := by omega
        have e2 : (c.cursor + 1 + i) % (c.m - 1) = c.cursor := by
          have : c.cursor + 1 + i = c.cursor + (c.m - 1) := by omega
          rw [this, Nat.add_mod_right, Nat.mod_eq_of_lt hcur]
        simp only [history, List.getElem_map, List.getElem_range, List.getElem_drop, Nat.mod_add_mod]
        rw [List.getElem_append_right (by simp; omega), e2]
        have hc' : c.cursor < c.ring.length := by omega
        simp [List.getD_eq_getElem?_getD, hc']
  · have e0 : c.m - 1 = 0 := by omega
    have e : pushSample c x = c := by rw [pushSample, if_neg hm]
    rw [e]
    simp [history, e0]

/-- The context after a stream: the samples pushed in order (R165). No arithmetic enters it. -/
theorem dirStream_fst (A : Arith α) (k : Nat) (c : DirCtx α) (xs : List α) :
    (dirStream A k c xs).1 = xs.foldl pushSample c := by
  induction xs generalizing k c with
  | nil => rfl
  | cons x xs ih => exact ih (k + 1) (pushSample c x)

/-- As many outputs as inputs (R165, D49). -/
@[simp] theorem dirStream_length (A : Arith α) (k : Nat) (c : DirCtx α) (xs : List α) :
    (dirStream A k c xs).2.length = xs.length := by
  induction xs generalizing k c with
  | nil => rfl
  | cons x xs ih => simp [dirStream, ih]

/-- A stream in two parts (R168). -/
theorem dirStream_append (A : Arith α) (k : Nat) (c : DirCtx α) (xs ys : List α) :
    dirStream A k c (xs ++ ys) =
      ((dirStream A (k + xs.length) (dirStream A k c xs).1 ys).1,
        (dirStream A k c xs).2 ++ (dirStream A (k + xs.length) (dirStream A k c xs).1 ys).2) := by
  induction xs generalizing k c with
  | nil => simp [dirStream]
  | cons x xs ih =>
    have e : k + (xs.length + 1) = k + 1 + xs.length := by omega
    simp [dirStream, ih, e]

theorem pushAll_keeps (xs : List α) (c : DirCtx α) :
    (xs.foldl pushSample c).valid = c.valid ∧ (xs.foldl pushSample c).m = c.m ∧
      (xs.foldl pushSample c).taps = c.taps := by
  induction xs generalizing c with
  | nil => exact ⟨rfl, rfl, rfl⟩
  | cons x xs ih => simpa using ih (pushSample c x)

theorem dirShape_pushAll {c : DirCtx α} (h : DirShape c) (xs : List α) : DirShape (xs.foldl pushSample c) := by
  induction xs generalizing c with
  | nil => exact h
  | cons x xs ih => exact ih (dirShape_push h x)

/-- The history after a stream (R42, R160). -/
theorem history_pushAll (zero : α) {c : DirCtx α} (h : DirShape c) (xs : List α) :
    history zero (xs.foldl pushSample c) = lastValues (c.m - 1) (history zero c ++ xs) := by
  induction xs generalizing c with
  | nil => simp [lastValues]
  | cons x xs ih =>
    rw [List.foldl_cons, ih (dirShape_push h x), history_push zero h, pushSample_m, lastValues, lastValues]
    have e : (history zero c ++ [x]).drop 1 ++ xs = (history zero c ++ x :: xs).drop 1 := by
      have : history zero c ++ x :: xs = (history zero c ++ [x]) ++ xs := by simp
      rw [this, List.drop_append_of_le_length (l₂ := xs) (by rw [List.length_append]; simp)]
    rw [e, List.drop_drop]
    congr 1
    simp
    omega

/-! ### The overlap-add engine -/

/-- The lengths and cursors of a valid overlap-add context (R43, R44). -/
structure OlaShape (c : OlaCtx α) : Prop where
  one_le : 1 ≤ c.m
  twice : 2 * c.m ≤ c.b
  chunk : c.l = c.b - c.m + 1
  taps : c.taps.length = c.b
  inbuf : c.inbuf.length = c.l
  fill : c.fill < c.l
  tail : c.tail.length = c.m - 1

theorem olaShape_of_ok {p : Params} {c : OlaCtx Val} (h : olaCtxOK p c = true) (hv : c.valid = true) : OlaShape c := by
  simp only [olaCtxOK, hv, Bool.not_true, Bool.false_or, Bool.and_eq_true, decide_eq_true_eq] at h
  obtain ⟨⟨⟨⟨⟨⟨⟨⟨⟨⟨⟨⟨⟨h1, _⟩, _⟩, h4⟩, _⟩, h6⟩, h7⟩, _⟩, h9⟩, h10⟩, h11⟩, _⟩, _⟩, _⟩ := h
  exact ⟨h1, h4, h6, h7, h9, h10, h11⟩

theorem olaShape_construct (zero : α) {T : List α} {b : Nat} (h : T ≠ []) (hb : 2 * T.length ≤ b) :
    OlaShape (olaConstruct zero T b) := by
  have := List.length_pos_iff.2 h
  refine ⟨this, hb, rfl, ?_, ?_, ?_, ?_⟩
  · simp [olaConstruct]; omega
  · simp [olaConstruct]
  · simp [olaConstruct, chunkLen]
  · simp [olaConstruct]

@[simp] theorem addTail_length (A : Arith α) (k i : Nat) (blk tail : List α) :
    (addTail A k i blk tail).length = blk.length := by
  induction blk generalizing i tail with
  | nil => cases tail <;> rfl
  | cons x blk ih => cases tail with
    | nil => rfl
    | cons t tail => simp [addTail, ih]

/-- One value of a block with the tail added (R185). -/
theorem addTail_getElem? (A : Arith α) (k i : Nat) (blk tail : List α) (n : Nat) :
    (addTail A k i blk tail)[n]? =
      match blk[n]?, tail[n]? with
      | some x, some t => some (A.add k (i + n) x t)
      | x, _ => x := by
  induction blk generalizing i tail n with
  | nil => cases tail <;> simp [addTail]
  | cons x blk ih =>
    cases tail with
    | nil => simp [addTail]
    | cons t tail =>
      cases n with
      | zero => simp [addTail]
      | succ n =>
        simp only [addTail, List.getElem?_cons_succ, ih]
        have e : i + 1 + n = i + (n + 1) := by omega
        rw [e]

/-- Beyond the tail a block is not touched (R186). -/
theorem addTail_drop (A : Arith α) (k i : Nat) (blk tail : List α) {n : Nat} (h : tail.length ≤ n) :
    (addTail A k i blk tail).drop n = blk.drop n := by
  apply List.ext_getElem?
  intro j
  rw [List.getElem?_drop, List.getElem?_drop, addTail_getElem?]
  rw [List.getElem?_eq_none (l := tail) (by omega)]
  cases blk[n + j]? <;> rfl

@[simp] theorem xconv_length (f : Fmt) (T P : List Val) : (xconv f T P).length = T.length := by simp [xconv]

@[simp] theorem exactConv_length (T P : List Int) : (exactConv T P).length = T.length := by simp [exactConv]

/-- A sample that does not complete its chunk (R187). -/
theorem olaSample_buffer (A : Arith α) (conv : List α → List α → List α) (k : Nat) {c : OlaCtx α} (x : α)
    (h : c.fill + 1 < c.l) :
    olaSample A conv k c x = ({ c with inbuf := c.inbuf.set c.fill x, fill := c.fill + 1 }, []) := by
  rw [olaSample, if_pos h]

/-- The sample that completes a chunk (R185 to R187). -/
theorem olaSample_chunk (A : Arith α) (conv : List α → List α → List α) (hconv : ∀ T P, (conv T P).length = T.length)
    (k : Nat) {c : OlaCtx α} (hs : OlaShape c) (x : α) (h : c.fill + 1 = c.l) :
    olaSample A conv k c x =
      ({ c with
          inbuf := c.inbuf.set c.fill x
          fill := 0
          tail := (conv c.taps (c.inbuf.set c.fill x ++ List.replicate (c.b - c.l) A.zero)).drop c.l },
        (chunkBlock A conv k c (c.inbuf.set c.fill x)).take c.l) := by
  have h1 := hs.chunk
  have h2 := hs.twice
  have h3 := hs.one_le
  rw [olaSample, if_neg (by omega)]
  simp only
  rw [List.take_of_length_le (by simp [chunkBlock, hconv, hs.taps]), chunkBlock,
    addTail_drop A k 0 _ _ (by rw [hs.tail]; omega)]

theorem olaSample_shape (A : Arith α) (conv : List α → List α → List α) (hconv : ∀ T P, (conv T P).length = T.length)
    (k : Nat) {c : OlaCtx α} (hs : OlaShape c) (x : α) :
    OlaShape (olaSample A conv k c x).1 ∧ (olaSample A conv k c x).1.valid = c.valid ∧
      (olaSample A conv k c x).1.m = c.m ∧ (olaSample A conv k c x).1.b = c.b ∧
      (olaSample A conv k c x).1.l = c.l ∧ (olaSample A conv k c x).1.taps = c.taps ∧
      (olaSample A conv k c x).1.fill = (c.fill + 1) % c.l ∧
      (olaSample A conv k c x).2.length = (c.fill + 1) / c.l * c.l := by
  have hf := hs.fill
  by_cases h : c.fill + 1 < c.l
  · rw [olaSample_buffer A conv k x h]
    refine ⟨⟨hs.one_le, hs.twice, hs.chunk, hs.taps, by simpa using hs.inbuf, h, hs.tail⟩, rfl, rfl, rfl, rfl, rfl, ?_, ?_⟩
    · exact (Nat.mod_eq_of_lt h).symm
    · simp [Nat.div_eq_of_lt h]
  · have he : c.fill + 1 = c.l := by omega
    have h1 := hs.chunk
    have h2 := hs.twice
    have h3 := hs.one_le
    rw [olaSample_chunk A conv hconv k hs x he]
    refine ⟨⟨hs.one_le, hs.twice, hs.chunk, hs.taps, by simpa using hs.inbuf, by show 0 < c.l; omega, ?_⟩,
      rfl, rfl, rfl, rfl, rfl, ?_, ?_⟩
    · show (List.drop _ _).length = c.m - 1
      rw [List.length_drop, hconv, hs.taps]; omega
    · rw [he, Nat.mod_self]
    · rw [he, Nat.div_self (by omega), List.length_take]
      simp only [chunkBlock, addTail_length, hconv, hs.taps]
      omega

/-- The output count and the backlog of a stream (R188, R195). -/
theorem olaStream_shape (A : Arith α) (conv : List α → List α → List α) (hconv : ∀ T P, (conv T P).length = T.length)
    (k : Nat) {c : OlaCtx α} (hs : OlaShape c) (xs : List α) :
    OlaShape (olaStream A conv k c xs).1 ∧ (olaStream A conv k c xs).1.valid = c.valid ∧
      (olaStream A conv k c xs).1.m = c.m ∧ (olaStream A conv k c xs).1.b = c.b ∧
      (olaStream A conv k c xs).1.l = c.l ∧ (olaStream A conv k c xs).1.taps = c.taps ∧
      (olaStream A conv k c xs).1.fill = (c.fill + xs.length) % c.l ∧
      (olaStream A conv k c xs).2.length = (c.fill + xs.length) / c.l * c.l := by
  induction xs generalizing k c with
  | nil =>
    have hf := hs.fill
    refine ⟨hs, rfl, rfl, rfl, rfl, rfl, ?_, ?_⟩
    · simpa [olaStream] using (Nat.mod_eq_of_lt hf).symm
    · simp [olaStream, Nat.div_eq_of_lt hf]
  | cons x xs ih =>
    obtain ⟨s1, s2, s3, s4, s5, s6, s7, s8⟩ := olaSample_shape A conv hconv k hs x
    obtain ⟨t1, t2, t3, t4, t5, t6, t7, t8⟩ := ih (k + 1) s1
    have hf := hs.fill
    have hl : 0 < c.l := by omega
    refine ⟨t1, t2.trans s2, t3.trans s3, t4.trans s4, t5.trans s5, t6.trans s6, ?_, ?_⟩
    · show (olaStream A conv (k + 1) _ xs).1.fill = _
      rw [t7, s5, s7, Nat.mod_add_mod, List.length_cons]
      congr 1
      omega
    · show (_ ++ _ : List α).length = _
      rw [List.length_append, t8, s8, s5, s7, ← Nat.add_mul, List.length_cons]
      congr 1
      have e : c.fill + (xs.length + 1) = c.fill + 1 + xs.length := by omega
      rw [e]
      conv_rhs => rw [← Nat.div_add_mod (c.fill + 1) c.l, Nat.add_assoc, Nat.mul_add_div hl]

/-- A stream in two parts (R196). -/
theorem olaStream_append (A : Arith α) (conv : List α → List α → List α) (k : Nat) (c : OlaCtx α) (xs ys : List α) :
    olaStream A conv k c (xs ++ ys) =
      ((olaStream A conv (k + xs.length) (olaStream A conv k c xs).1 ys).1,
        (olaStream A conv k c xs).2 ++ (olaStream A conv (k + xs.length) (olaStream A conv k c xs).1 ys).2) := by
  induction xs generalizing k c with
  | nil => simp [olaStream]
  | cons x xs ih =>
    have e : k + (xs.length + 1) = k + 1 + xs.length := by omega
    simp [olaStream, ih, e]

/-! ### Block size -/

/-- `nextPow2` is the least power of two that is at least its argument (R181). -/
theorem nextPow2_spec (n : Nat) : (∃ k, nextPow2 n = 2 ^ k) ∧ n ≤ nextPow2 n ∧ ∀ k, n ≤ 2 ^ k → nextPow2 n ≤ 2 ^ k := by
  unfold nextPow2
  split
  · exact ⟨⟨0, rfl⟩, by omega, fun k _ => Nat.one_le_two_pow⟩
  · refine ⟨⟨_, rfl⟩, ?_, fun k hk => ?_⟩
    · have := @Nat.lt_log2_self (n - 1)
      omega
    · refine Nat.pow_le_pow_right (by omega) ?_
      have : n - 1 < 2 ^ k := by omega
      have := (Nat.log2_lt (by omega)).2 this
      omega

theorem isPow2_two_pow (k : Nat) : isPow2 (2 ^ k) = true := by simp [isPow2, Nat.log2_two_pow]

end Sys2Proof.Machine
end

