-- ==== Sys2Proof/Laws/Memory.lean ====
section
/-! SUPPORT. What the operations on DMEM do: read after write, what a write leaves alone, and the canonical and whole-word
form they keep. -/

namespace Sys2Proof.Machine

/-! ### Bytes -/

@[simp] theorem memGet_nil (a : Nat) : memGet [] a = none := rfl

/-- Reading after a byte write: the written byte at its address, what stood there before anywhere else. -/
theorem memGet_memSet (m : Memory) (a b : Nat) (v : Byte) :
    memGet (memSet m a v) b = if b = a then some v else memGet m b := by
  induction m with
  | nil => simp only [memSet, memGet, eq_comm]
  | cons c m ih =>
    obtain ⟨k, x⟩ := c
    rw [memSet]
    by_cases hlt : a < k
    · rw [if_pos hlt, memGet]
      simp only [eq_comm]
    · rw [if_neg hlt]
      by_cases hak : a = k
      · subst hak
        rw [if_pos rfl, memGet, memGet]
        by_cases hab : a = b <;> simp [hab, eq_comm]
      · rw [if_neg hak, memGet, memGet, ih]
        by_cases hkb : k = b
        · rw [if_pos hkb, if_pos hkb, if_neg (by omega)]
        · rw [if_neg hkb, if_neg hkb]

theorem memGet_memSet_same (m : Memory) (a : Nat) (v : Byte) : memGet (memSet m a v) a = some v := by
  simp [memGet_memSet]

theorem memGet_memSet_other (m : Memory) {a b : Nat} (v : Byte) (h : b ≠ a) :
    memGet (memSet m a v) b = memGet m b := by
  simp [memGet_memSet, h]

/-- The head of a memory after a byte write has no lower address than the old head or the written address. -/
theorem memSet_head_le (m : Memory) (a k : Nat) (v : Byte) (hk : k < a) (hm : ∀ c ∈ m, k < c.1) :
    ∀ c ∈ memSet m a v, k < c.1 := by
  induction m with
  | nil => simpa [memSet] using hk
  | cons c m ih =>
    obtain ⟨j, x⟩ := c
    have hj : k < j := hm (j, x) (by simp)
    have hrest : ∀ c ∈ m, k < c.1 := fun c hc => hm c (by simp [hc])
    by_cases hlt : a < j
    · simp only [memSet, hlt, if_true]
      intro c hc
      rcases List.mem_cons.1 hc with rfl | hc
      · exact hk
      · exact hm c hc
    · by_cases haj : a = j
      · simp only [memSet, haj, if_true, if_false, lt_irrefl]
        intro c hc
        rcases List.mem_cons.1 hc with rfl | hc
        · exact hj
        · exact hrest c hc
      · simp only [memSet, hlt, haj, if_false]
        intro c hc
        rcases List.mem_cons.1 hc with rfl | hc
        · exact hj
        · exact ih hrest c hc

/-- A memory is sorted exactly when its head lies below all the rest and the rest is sorted. -/
theorem memSorted_cons (k : Nat) (b : Byte) (m : Memory) :
    memSorted ((k, b) :: m) = true ↔ (∀ c ∈ m, k < c.1) ∧ memSorted m = true := by
  induction m generalizing k b with
  | nil => simp [memSorted]
  | cons c m ih =>
    obtain ⟨j, x⟩ := c
    constructor
    · intro h
      simp only [memSorted, Bool.and_eq_true, decide_eq_true_eq] at h
      refine ⟨?_, h.2⟩
      intro c hc
      rcases List.mem_cons.1 hc with rfl | hc
      · exact h.1
      · exact lt_trans h.1 (((ih j x).1 h.2).1 c hc)
    · intro h
      simp only [memSorted, Bool.and_eq_true, decide_eq_true_eq]
      exact ⟨h.1 (j, x) (by simp), h.2⟩

/-- A byte write keeps the canonical form. -/
theorem memSorted_memSet (m : Memory) (a : Nat) (v : Byte) (h : memSorted m = true) :
    memSorted (memSet m a v) = true := by
  induction m with
  | nil => rfl
  | cons c m ih =>
    obtain ⟨k, x⟩ := c
    have hc := (memSorted_cons k x m).1 h
    by_cases hlt : a < k
    · simp only [memSet, hlt, if_true]
      refine (memSorted_cons a v _).2 ⟨?_, h⟩
      intro c hmem
      rcases List.mem_cons.1 hmem with rfl | hmem
      · exact hlt
      · exact lt_trans hlt (hc.1 c hmem)
    · by_cases hak : a = k
      · simp only [memSet, hak, if_true, if_false, lt_irrefl]
        exact (memSorted_cons k v m).2 hc
      · simp only [memSet, hlt, hak, if_false]
        refine (memSorted_cons k x _).2 ⟨memSet_head_le m a k v (by omega) hc.1, ih hc.2⟩

/-- Every cell after a byte write is the written one or an old one. -/
theorem mem_memSet (m : Memory) (a : Nat) (v : Byte) {c : Host.Cell} (h : c ∈ memSet m a v) :
    c = (a, v) ∨ c ∈ m := by
  induction m with
  | nil => simpa [memSet] using h
  | cons d m ih =>
    obtain ⟨k, x⟩ := d
    by_cases hlt : a < k
    · simp only [memSet, hlt, if_true] at h
      simpa using h
    · by_cases hak : a = k
      · simp only [memSet, hak, if_true, if_false, lt_irrefl] at h
        subst hak
        rcases List.mem_cons.1 h with h | h
        · exact Or.inl h
        · exact Or.inr (by simp [h])
      · simp only [memSet, hlt, hak, if_false] at h
        rcases List.mem_cons.1 h with h | h
        · exact Or.inr (by simp [h])
        · rcases ih h with h | h
          · exact Or.inl h
          · exact Or.inr (by simp [h])

/-- A listed address reads as written. -/
theorem memGet_isSome_of_mem (m : Memory) {c : Host.Cell} (h : c ∈ m) : (memGet m c.1).isSome = true := by
  induction m with
  | nil => simp at h
  | cons d m ih =>
    obtain ⟨k, x⟩ := d
    by_cases hk : k = c.1
    · simp [memGet, hk]
    · rcases List.mem_cons.1 h with h | h
      · exact absurd (by rw [h]) hk
      · simpa [memGet, hk] using ih h

/-- An address that reads as written is listed. -/
theorem mem_of_memGet_isSome (m : Memory) (a : Nat) (h : (memGet m a).isSome = true) : ∃ c ∈ m, c.1 = a := by
  induction m with
  | nil => simp at h
  | cons d m ih =>
    obtain ⟨k, x⟩ := d
    by_cases hk : k = a
    · exact ⟨(k, x), by simp, hk⟩
    · obtain ⟨c, hc, hca⟩ := ih (by simpa [memGet, hk] using h)
      exact ⟨c, by simp [hc], hca⟩

/-! ### Words -/

/-- The bytes after a word write. -/
theorem memGet_writeWord (m : Memory) (a b : Nat) (w : Word) :
    memGet (writeWord m a w) b =
      if b = a then some (w.extractLsb' 0 8)
      else if b = a + 1 then some (w.extractLsb' 8 8)
      else if b = a + 2 then some (w.extractLsb' 16 8)
      else if b = a + 3 then some (w.extractLsb' 24 8)
      else memGet m b := by
  simp only [writeWord, memGet_memSet]
  by_cases h3 : b = a + 3
  · subst h3; simp
  · by_cases h2 : b = a + 2
    · subst h2; simp
    · by_cases h1 : b = a + 1
      · subst h1; simp
      · by_cases h0 : b = a <;> simp [h0, h1, h2, h3]

theorem memGet_writeWord_other (m : Memory) {a b : Nat} (w : Word) (h : ¬(a ≤ b ∧ b < a + 4)) :
    memGet (writeWord m a w) b = memGet m b := by
  rw [memGet_writeWord]
  rw [if_neg (by omega), if_neg (by omega), if_neg (by omega), if_neg (by omega)]

/-- The bytes of a word put together are the word. -/
theorem wordOfBytes_bytes (w : Word) :
    wordOfBytes (w.extractLsb' 0 8) (w.extractLsb' 8 8) (w.extractLsb' 16 8) (w.extractLsb' 24 8) = w := by
  apply BitVec.eq_of_getLsbD_eq
  intro i hi
  simp only [wordOfBytes, BitVec.getLsbD_append, BitVec.getLsbD_extractLsb']
  split_ifs with h0 h1 h2
  · simp [h0]
  · have : i - 8 < 8 := by omega
    have e : 8 + (i - 8) = i := by omega
    simp [this, e]
  · have : i - 8 - 8 < 8 := by omega
    have e : 16 + (i - 8 - 8) = i := by omega
    simp [this, e]
  · have : i - 8 - 8 - 8 < 8 := by omega
    have e : 24 + (i - 8 - 8 - 8) = i := by omega
    simp [this, e]

theorem readWord_writeWord_same (m : Memory) (a : Nat) (w : Word) : readWord (writeWord m a w) a = some w := by
  simp [readWord, memGet_writeWord, wordOfBytes_bytes]

/-- A word read looks at its four bytes alone. -/
theorem readWord_congr {m m' : Memory} {a : Nat} (h : ∀ k, k < 4 → memGet m (a + k) = memGet m' (a + k)) :
    readWord m a = readWord m' a := by
  have h0 := h 0 (by omega)
  have h1 := h 1 (by omega)
  have h2 := h 2 (by omega)
  have h3 := h 3 (by omega)
  simp only [Nat.add_zero] at h0
  simp [readWord, h0, h1, h2, h3]

theorem readWord_writeWord_other (m : Memory) {a b : Nat} (w : Word) (h : b + 4 ≤ a ∨ a + 4 ≤ b) :
    readWord (writeWord m a w) b = readWord m b :=
  readWord_congr fun _ hk => memGet_writeWord_other m w (by omega)

/-- A word reads as written exactly when its four bytes do. -/
theorem readWord_isSome_iff (m : Memory) (a : Nat) :
    (readWord m a).isSome = true ↔ ∀ k, k < 4 → (memGet m (a + k)).isSome = true := by
  constructor
  · intro h k hk
    unfold readWord at h
    split at h
    · rename_i h0 h1 h2 h3
      have : k = 0 ∨ k = 1 ∨ k = 2 ∨ k = 3 := by omega
      rcases this with rfl | rfl | rfl | rfl <;> simp [*]
    · simp at h
  · intro h
    have h0 := h 0 (by omega)
    have h1 := h 1 (by omega)
    have h2 := h 2 (by omega)
    have h3 := h 3 (by omega)
    simp only [Nat.add_zero] at h0
    obtain ⟨b0, e0⟩ := Option.isSome_iff_exists.1 h0
    obtain ⟨b1, e1⟩ := Option.isSome_iff_exists.1 h1
    obtain ⟨b2, e2⟩ := Option.isSome_iff_exists.1 h2
    obtain ⟨b3, e3⟩ := Option.isSome_iff_exists.1 h3
    simp [readWord, e0, e1, e2, e3]

theorem memSorted_writeWord (m : Memory) (a : Nat) (w : Word) (h : memSorted m = true) :
    memSorted (writeWord m a w) = true := by
  simp only [writeWord]
  exact memSorted_memSet _ _ _ (memSorted_memSet _ _ _ (memSorted_memSet _ _ _ (memSorted_memSet _ _ _ h)))

/-- What `memWhole` says of an address: a written byte lies in the window and its word is written whole. -/
theorem memWhole_iff (p : Params) (m : Memory) :
    memWhole p m = true ↔
      ∀ a, (memGet m a).isSome = true →
        dmemBase ≤ a ∧ a < dmemEnd p ∧ (readWord m (a / 4 * 4)).isSome = true := by
  simp only [memWhole, List.all_eq_true, Bool.and_eq_true, decide_eq_true_eq, and_assoc]
  constructor
  · intro h a ha
    obtain ⟨c, hc, rfl⟩ := mem_of_memGet_isSome m a ha
    exact h c hc
  · intro h c hc
    exact h c.1 (memGet_isSome_of_mem m hc)

/-- A word write at a multiple of 4 in the window keeps DMEM in its window and its words whole. -/
theorem memWhole_writeWord (p : Params) (m : Memory) (a : Nat) (w : Word) (h4 : a % 4 = 0) (hlo : dmemBase ≤ a)
    (hhi : a + 4 ≤ dmemEnd p) (h : memWhole p m = true) : memWhole p (writeWord m a w) = true := by
  rw [memWhole_iff] at h ⊢
  intro b hb
  by_cases hin : a ≤ b ∧ b < a + 4
  · have e : b / 4 * 4 = a := by omega
    refine ⟨by omega, by omega, ?_⟩
    rw [e, readWord_writeWord_same]
    rfl
  · rw [memGet_writeWord_other m w hin] at hb
    obtain ⟨h1, h2, h3⟩ := h b hb
    refine ⟨h1, h2, ?_⟩
    rw [readWord_writeWord_other m w (by omega)]
    exact h3

/-! ### Elements -/

/-- The element width is a multiple of 4 (R6). -/
theorem ew_mod4 (f : Fmt) : f.ew % 4 = 0 := by cases f <;> rfl

theorem ew_pos (f : Fmt) : 4 ≤ f.ew := by cases f <;> decide

theorem elemAddr_mod4 (f : Fmt) (e : Nat) : elemAddr f e % 4 = 0 := by
  cases f <;> simp [elemAddr, dmemBase, Fmt.ew, Nat.add_mod, Nat.mul_mod]

theorem elemAddr_succ (f : Fmt) (e : Nat) : elemAddr f (e + 1) = elemAddr f e + f.ew := by
  simp [elemAddr, Nat.succ_mul, Nat.add_assoc]

theorem elemAddr_le {f : Fmt} {e e' : Nat} (h : e ≤ e') : elemAddr f e ≤ elemAddr f e' := by
  unfold elemAddr
  exact Nat.add_le_add_left (Nat.mul_le_mul_right _ h) _

/-- The bytes an element write leaves alone. -/
theorem memGet_writeElem_other (f : Fmt) (m : Memory) {e a : Nat} (v : Val) (h : ¬ElemBytes f e 1 a) :
    memGet (writeElem f m e v) a = memGet m a := by
  unfold ElemBytes at h
  rw [elemAddr_succ] at h
  cases f with
  | binary32 => exact memGet_writeWord_other m _ (by simpa [Fmt.ew] using h)
  | binary64 =>
    simp only [Fmt.ew] at h
    simp only [writeElem]
    rw [memGet_writeWord_other _ _ (by omega), memGet_writeWord_other _ _ (by omega)]

/-- Two 32-bit halves of a pattern put together are the pattern. -/
theorem halves_append (v : Val) : (v.extractLsb' 32 32 ++ v.extractLsb' 0 32 : BitVec (32 + 32)) = v := by
  apply BitVec.eq_of_getLsbD_eq
  intro i hi
  simp only [BitVec.getLsbD_append, BitVec.getLsbD_extractLsb']
  split_ifs with h
  · simp [h]
  · have h1 : i - 32 < 32 := by omega
    have h2 : 32 + (i - 32) = i := by omega
    simp [h1, h2]

/-- The low half of a binary32 pattern is the pattern. -/
theorem lowHalf_zeroExtend (v : Val) (h : v.toNat < 2 ^ 32) : BitVec.zeroExtend 64 (v.extractLsb' 0 32) = v := by
  apply BitVec.eq_of_toNat_eq
  simp [BitVec.extractLsb'_toNat]
  omega

/-- An element read back after its write: the value, when it is a pattern of the format. -/
theorem readElem_writeElem_same (f : Fmt) (m : Memory) (e : Nat) (v : Val) (h : fpInWidth f v = true) :
    readElem f (writeElem f m e v) e = some v := by
  cases f with
  | binary32 =>
    have hv : v.toNat < 2 ^ 32 := of_decide_eq_true h
    simp only [readElem, writeElem, readWord_writeWord_same, Option.map_some]
    rw [lowHalf_zeroExtend v hv]
  | binary64 =>
    simp only [readElem, writeElem]
    rw [readWord_writeWord_other _ _ (by omega), readWord_writeWord_same, readWord_writeWord_same]
    simp only [halves_append]

/-- An element read looks at the element's bytes alone. -/
theorem readElem_congr {f : Fmt} {m m' : Memory} {e : Nat}
    (h : ∀ a, ElemBytes f e 1 a → memGet m a = memGet m' a) : readElem f m e = readElem f m' e := by
  unfold ElemBytes at h
  rw [elemAddr_succ] at h
  cases f with
  | binary32 =>
    simp only [readElem]
    rw [readWord_congr fun k hk => h _ (by simp only [Fmt.ew]; omega)]
  | binary64 =>
    simp only [readElem]
    rw [readWord_congr fun k hk => h _ (by simp only [Fmt.ew]; omega),
      readWord_congr fun k hk => h _ (by simp only [Fmt.ew]; omega)]

theorem readElem_writeElem_other (f : Fmt) (m : Memory) {e e' : Nat} (v : Val) (h : e' ≠ e) :
    readElem f (writeElem f m e v) e' = readElem f m e' := by
  refine readElem_congr fun a ha => memGet_writeElem_other f m v fun hin => ?_
  unfold ElemBytes at ha hin
  rcases Nat.lt_or_gt_of_ne h with hlt | hlt
  · have := elemAddr_le (f := f) (show _ + 1 ≤ _ from hlt)
    omega
  · have := elemAddr_le (f := f) (show _ + 1 ≤ _ from hlt)
    omega

/-- What is read from an element is a pattern of the format. -/
theorem readElem_inWidth {f : Fmt} {m : Memory} {e : Nat} {v : Val} (h : readElem f m e = some v) :
    fpInWidth f v = true := by
  cases f with
  | binary32 =>
    simp only [readElem, Option.map_eq_some_iff] at h
    obtain ⟨w, -, rfl⟩ := h
    have := w.isLt
    simp only [fpInWidth, Fmt.signBit, decide_eq_true_eq, BitVec.truncate_eq_setWidth, BitVec.toNat_setWidth]
    omega
  | binary64 => simp [fpInWidth, Fmt.signBit, v.isLt]

theorem memSorted_writeElem (f : Fmt) (m : Memory) (e : Nat) (v : Val) (h : memSorted m = true) :
    memSorted (writeElem f m e v) = true := by
  cases f with
  | binary32 => exact memSorted_writeWord _ _ _ h
  | binary64 => exact memSorted_writeWord _ _ _ (memSorted_writeWord _ _ _ h)

/-- The last byte of an element of DMEM lies in the window. -/
theorem elemAddr_in_window {p : Params} {e : Nat} (h : e < p.dmemWords) :
    elemAddr p.fmt e + p.fmt.ew ≤ dmemEnd p := by
  have := elemAddr_le (f := p.fmt) (Nat.succ_le_of_lt h)
  rw [elemAddr_succ] at this
  simpa [dmemEnd, elemAddr] using this

theorem memWhole_writeElem (p : Params) (m : Memory) (e : Nat) (v : Val) (he : e < p.dmemWords)
    (h : memWhole p m = true) : memWhole p (writeElem p.fmt m e v) = true := by
  have h4 := elemAddr_mod4 p.fmt e
  have hw := elemAddr_in_window he
  have hlo : dmemBase ≤ elemAddr p.fmt e := Nat.le_add_right _ _
  cases hf : p.fmt with
  | binary32 =>
    rw [hf] at h4 hw hlo
    simp only [Fmt.ew] at hw
    exact memWhole_writeWord p m _ _ h4 hlo (by omega) h
  | binary64 =>
    rw [hf] at h4 hw hlo
    simp only [Fmt.ew] at hw
    exact memWhole_writeWord p _ _ _ (by omega) (by omega) (by omega)
      (memWhole_writeWord p m _ _ h4 hlo (by omega) h)

/-! ### Sequences -/

theorem memRead_length {f : Fmt} {m : Memory} {n : Nat} {base : Nat} {vs : List Val}
    (h : memRead f m base n = some vs) : vs.length = n := by
  induction n generalizing base vs with
  | zero => simp [memRead] at h; simp [← h]
  | succ n ih =>
    unfold memRead at h
    split at h
    · rename_i v vs' _ hr
      simp only [Option.some.injEq] at h
      rw [← h, List.length_cons, ih hr]
    · simp at h

/-- What a sequence read holds at each index. -/
theorem memRead_getElem {f : Fmt} {m : Memory} {n : Nat} {base : Nat} {vs : List Val}
    (h : memRead f m base n = some vs) (i : Nat) (hi : i < n) : vs[i]? = readElem f m (base + i) := by
  induction n generalizing base vs i with
  | zero => omega
  | succ n ih =>
    unfold memRead at h
    split at h
    · rename_i v vs' hv hr
      simp only [Option.some.injEq] at h
      subst h
      cases i with
      | zero => simp [hv]
      | succ i =>
        rw [List.getElem?_cons_succ, ih hr i (by omega)]
        congr 1
        omega
    · simp at h

/-- A sequence read has a value exactly when each of its elements has. -/
theorem memRead_isSome_iff (f : Fmt) (m : Memory) (n base : Nat) :
    (memRead f m base n).isSome = true ↔ ∀ i, i < n → (readElem f m (base + i)).isSome = true := by
  induction n generalizing base with
  | zero => simp [memRead]
  | succ n ih =>
    constructor
    · intro h i hi
      unfold memRead at h
      split at h
      · rename_i v vs' hv hr
        cases i with
        | zero => simp [hv]
        | succ i =>
          have := (ih (base + 1)).1 (by simp [hr]) i (by omega)
          rwa [show base + 1 + i = base + (i + 1) by omega] at this
      · simp at h
    · intro h
      have h0 := h 0 (by omega)
      have hr := (ih (base + 1)).2 fun i hi => by
        have := h (i + 1) (by omega)
        rwa [show base + (i + 1) = base + 1 + i by omega] at this
      obtain ⟨v, hv⟩ := Option.isSome_iff_exists.1 h0
      obtain ⟨vs, hvs⟩ := Option.isSome_iff_exists.1 hr
      simp only [Nat.add_zero] at hv
      simp [memRead, hv, hvs]

/-- A sequence read looks at its elements alone. -/
theorem memRead_congr {f : Fmt} {m m' : Memory} {n base : Nat}
    (h : ∀ i, i < n → readElem f m (base + i) = readElem f m' (base + i)) :
    memRead f m base n = memRead f m' base n := by
  induction n generalizing base with
  | zero => rfl
  | succ n ih =>
    have h0 := h 0 (by omega)
    simp only [Nat.add_zero] at h0
    have hr : memRead f m (base + 1) n = memRead f m' (base + 1) n := ih fun i hi => by
      have := h (i + 1) (by omega)
      rwa [show base + (i + 1) = base + 1 + i by omega] at this
    simp [memRead, h0, hr]

/-- What a sequence read returns is patterns of the format. -/
theorem memRead_allInWidth {f : Fmt} {m : Memory} {n base : Nat} {vs : List Val} (h : memRead f m base n = some vs) :
    allInWidth f vs = true := by
  induction n generalizing base vs with
  | zero =>
    simp only [memRead, Option.some.injEq] at h
    rw [← h]
    rfl
  | succ n ih =>
    unfold memRead at h
    split at h
    · rename_i v vs' hv hr
      simp only [Option.some.injEq] at h
      have := ih hr
      simp only [allInWidth] at this
      simp [← h, allInWidth, readElem_inWidth hv, this]
    · simp at h

/-- The bytes a sequence write leaves alone. -/
theorem memGet_memWrite_other (f : Fmt) (m : Memory) {base a : Nat} (vs : List Val)
    (h : ¬ElemBytes f base vs.length a) : memGet (memWrite f m base vs) a = memGet m a := by
  induction vs generalizing m base with
  | nil => rfl
  | cons v vs ih =>
    unfold ElemBytes at h
    rw [List.length_cons] at h
    have h1 := elemAddr_le (f := f) (show base ≤ base + 1 by omega)
    have h2 := elemAddr_le (f := f) (show base + 1 ≤ base + 1 + vs.length by omega)
    rw [show base + (vs.length + 1) = base + 1 + vs.length by omega] at h
    simp only [memWrite]
    rw [ih, memGet_writeElem_other]
    · unfold ElemBytes; omega
    · unfold ElemBytes; omega

/-- The elements a sequence write leaves alone. -/
theorem readElem_memWrite_other (f : Fmt) (m : Memory) {base e : Nat} (vs : List Val)
    (h : e < base ∨ base + vs.length ≤ e) : readElem f (memWrite f m base vs) e = readElem f m e := by
  induction vs generalizing m base with
  | nil => rfl
  | cons v vs ih =>
    simp only [memWrite]
    rw [List.length_cons] at h
    rw [ih _ (by omega), readElem_writeElem_other _ _ _ (by omega)]

/-- A sequence read back after its write. -/
theorem readElem_memWrite (f : Fmt) (m : Memory) (base : Nat) (vs : List Val) (hw : allInWidth f vs = true) (i : Nat)
    (hi : i < vs.length) : readElem f (memWrite f m base vs) (base + i) = vs[i]? := by
  induction vs generalizing m base i with
  | nil => simp at hi
  | cons v vs ih =>
    simp only [allInWidth, List.all_cons, Bool.and_eq_true] at hw
    simp only [memWrite]
    cases i with
    | zero =>
      rw [readElem_memWrite_other _ _ _ (by omega), Nat.add_zero, readElem_writeElem_same _ _ _ _ hw.1]
      simp
    | succ i =>
      rw [List.getElem?_cons_succ, ← ih (writeElem f m base v) (base + 1) hw.2 i (by simpa using hi)]
      congr 1
      omega

theorem memSorted_memWrite (f : Fmt) (m : Memory) (base : Nat) (vs : List Val) (h : memSorted m = true) :
    memSorted (memWrite f m base vs) = true := by
  induction vs generalizing m base with
  | nil => exact h
  | cons v vs ih => exact ih _ _ (memSorted_writeElem f m base v h)

theorem memWhole_memWrite (p : Params) (m : Memory) (base : Nat) (vs : List Val)
    (hr : vs = [] ∨ base + vs.length ≤ p.dmemWords) (h : memWhole p m = true) :
    memWhole p (memWrite p.fmt m base vs) = true := by
  induction vs generalizing m base with
  | nil => exact h
  | cons v vs ih =>
    have hb : base + (vs.length + 1) ≤ p.dmemWords := by simpa using hr
    exact ih _ _ (Or.inr (by omega)) (memWhole_writeElem p m base v (by omega) h)

end Sys2Proof.Machine
end

