-- ==== Sys2Proof/Laws/Contexts.lean ====
section
/-! SUPPORT. The legal values of contexts (R41, R43, R44) through construction and through a stream. -/

namespace Sys2Proof.Machine

/-! ### Widths -/

theorem nearestFinite_inWidth (f : Fmt) (c : Int) : fpInWidth f (nearestFinite f c) = true := by
  refine fpInWidth_pack_le (le_trans (Nat.min_le_right _ _) (Nat.sub_le _ _))

theorem xconvAt_inWidth (f : Fmt) (T P : List Val) (n : Nat) : fpInWidth f (xconvAt f T P n) = true := by
  unfold xconvAt
  simp only
  split_ifs
  · exact fpMask_inWidth _ _
  · exact nearestFinite_inWidth _ _
  · exact fpMask_inWidth _ _
  · exact fpMask_inWidth _ _

theorem xconv_inWidth (f : Fmt) (T P : List Val) : allInWidth f (xconv f T P) = true := by
  simp [allInWidth, xconv, xconvAt_inWidth]

theorem allInWidth_iff (f : Fmt) (vs : List Val) : allInWidth f vs = true ↔ ∀ v ∈ vs, fpInWidth f v = true := by
  simp [allInWidth]

theorem allInWidth_replicate (f : Fmt) (n : Nat) : allInWidth f (List.replicate n fpZero) = true := by
  simp [allInWidth, fpZero_inWidth]

theorem allInWidth_append (f : Fmt) (xs ys : List Val) :
    allInWidth f (xs ++ ys) = (allInWidth f xs && allInWidth f ys) := by
  simp [allInWidth]

theorem allInWidth_set {f : Fmt} {vs : List Val} {x : Val} (i : Nat) (h : allInWidth f vs = true)
    (hx : fpInWidth f x = true) : allInWidth f (vs.set i x) = true := by
  rw [allInWidth_iff] at h ⊢
  intro v hv
  rcases List.mem_or_eq_of_mem_set hv with hv | rfl
  · exact h v hv
  · exact hx

theorem allInWidth_drop {f : Fmt} {vs : List Val} (n : Nat) (h : allInWidth f vs = true) :
    allInWidth f (vs.drop n) = true := by
  rw [allInWidth_iff] at h ⊢
  exact fun v hv => h v (List.mem_of_mem_drop hv)

theorem getD_inWidth {f : Fmt} {vs : List Val} (i : Nat) (h : allInWidth f vs = true) :
    fpInWidth f (vs.getD i fpZero) = true := by
  rw [allInWidth_iff] at h
  rw [List.getD_eq_getElem?_getD]
  cases hi : vs[i]? with
  | none => exact fpZero_inWidth f
  | some v => exact h v (List.mem_of_getElem? hi)

/-- The outputs of the direct engine are patterns of the format. -/
theorem dirStream_inWidth (f : Fmt) (nan : Nat → Nat → Val) (k : Nat) (c : DirCtx Val) (xs : List Val) :
    allInWidth f (dirStream (fpArith f nan) k c xs).2 = true := by
  induction xs generalizing k c with
  | nil => rfl
  | cons x xs ih =>
    have hs : fpInWidth f (firSample (fpArith f nan) k c x) = true := by
      unfold firSample
      generalize (List.range (c.m - 1)).map (· + 1) = js
      have : ∀ acc, fpInWidth f acc = true → fpInWidth f (js.foldl (fun acc j => (fpArith f nan).add k j acc
          ((fpArith f nan).mul k j (c.taps.getD j (fpArith f nan).zero) (pastSample (fpArith f nan) c j))) acc) = true := by
        induction js with
        | nil => exact fun acc h => h
        | cons j js ih => exact fun acc _ => ih _ (fpAdd_inWidth _ _ _ _)
      exact this _ (fpMul_inWidth _ _ _ _)
    have := ih (k + 1) (pushSample c x)
    simp only [allInWidth] at this ⊢
    simp [dirStream, hs, this]

theorem addTail_inWidth {f : Fmt} (nan : Nat → Nat → Val) (k i : Nat) {blk tail : List Val}
    (h : allInWidth f blk = true) : allInWidth f (addTail (fpArith f nan) k i blk tail) = true := by
  induction blk generalizing i tail with
  | nil => cases tail <;> exact h
  | cons x blk ih =>
    cases tail with
    | nil => exact h
    | cons t tail =>
      have hb : allInWidth f blk = true := by
        simp only [allInWidth, List.all_cons, Bool.and_eq_true] at h ⊢
        exact h.2
      have := ih (i + 1) (tail := tail) hb
      simp only [allInWidth] at this ⊢
      rw [addTail, List.all_cons, this, Bool.and_true]
      exact fpAdd_inWidth _ _ _ _

theorem olaSample_inWidth (f : Fmt) (nan : Nat → Nat → Val) (k : Nat) (c : OlaCtx Val) (x : Val) :
    allInWidth f (olaSample (fpArith f nan) (xconv f) k c x).2 = true := by
  unfold olaSample
  split
  · rfl
  · rw [allInWidth_iff]
    intro v hv
    exact (allInWidth_iff _ _).1 (addTail_inWidth nan k 0 (xconv_inWidth f _ _)) v (List.mem_of_mem_take hv)

/-- The outputs of the overlap-add engine are patterns of the format. -/
theorem olaStream_inWidth (f : Fmt) (nan : Nat → Nat → Val) (k : Nat) (c : OlaCtx Val) (xs : List Val) :
    allInWidth f (olaStream (fpArith f nan) (xconv f) k c xs).2 = true := by
  induction xs generalizing k c with
  | nil => rfl
  | cons x xs ih =>
    show allInWidth f (_ ++ _) = true
    rw [allInWidth_append, olaSample_inWidth, ih]
    rfl

/-! ### Legal values -/

theorem dirCtxOK_construct {p : Params} {T : List Val} (h1 : 1 ≤ T.length) (h2 : T.length ≤ p.maxTaps)
    (hw : allInWidth p.fmt T = true) : dirCtxOK p (dirConstruct fpZero T) = true := by
  simp [dirCtxOK, dirConstruct, h1, h2, hw, allInWidth_replicate]

theorem dirCtxOK_push {p : Params} {c : DirCtx Val} {x : Val} (h : dirCtxOK p c = true) (hv : c.valid = true)
    (hx : fpInWidth p.fmt x = true) : dirCtxOK p (pushSample c x) = true := by
  have hs := dirShape_push (dirShape_of_ok h hv) x
  simp only [dirCtxOK, hv, Bool.not_true, Bool.false_or, Bool.and_eq_true, decide_eq_true_eq] at h
  simp only [dirCtxOK, pushSample_valid, hv, Bool.not_true, Bool.false_or, Bool.and_eq_true, decide_eq_true_eq]
  refine ⟨⟨⟨⟨⟨⟨hs.one_le, ?_⟩, hs.taps⟩, hs.ring⟩, hs.cursor⟩, ?_⟩, ?_⟩
  · simpa using h.1.1.1.1.1.2
  · simpa using h.1.2
  · unfold pushSample
    split
    · exact allInWidth_set _ h.2 hx
    · exact h.2

theorem dirCtxOK_pushAll {p : Params} {c : DirCtx Val} {xs : List Val} (h : dirCtxOK p c = true) (hv : c.valid = true)
    (hx : allInWidth p.fmt xs = true) : dirCtxOK p (xs.foldl pushSample c) = true := by
  induction xs generalizing c with
  | nil => exact h
  | cons x xs ih =>
    simp only [allInWidth, List.all_cons, Bool.and_eq_true] at hx
    exact ih (dirCtxOK_push h hv hx.1) (by simpa using hv) hx.2

theorem olaCtxOK_construct {p : Params} {T : List Val} {breq : Nat} (h1 : 1 ≤ T.length) (h2 : T.length ≤ p.maxTaps)
    (hb : blockSize T.length breq ≤ p.maxBlock) (hw : allInWidth p.fmt T = true) :
    olaCtxOK p (olaConstruct fpZero T (blockSize T.length breq)) = true := by
  obtain ⟨⟨k, hk⟩, hle, _⟩ := nextPow2_spec (max (2 * T.length) breq)
  have h2m : 2 * T.length ≤ blockSize T.length breq := le_trans (Nat.le_max_left _ _) hle
  have hp : isPow2 (blockSize T.length breq) = true := by
    rw [blockSize, hk]; exact isPow2_two_pow k
  generalize blockSize T.length breq = b at hb h2m hp
  have e1 : T.length + (b - T.length) = b := by omega
  simp [olaCtxOK, olaConstruct, chunkLen, h1, h2, hb, h2m, hp, e1, allInWidth_append, hw, allInWidth_replicate]

theorem olaCtxOK_sample {p : Params} (nan : Nat → Nat → Val) (k : Nat) {c : OlaCtx Val} {x : Val}
    (h : olaCtxOK p c = true) (hv : c.valid = true) (hx : fpInWidth p.fmt x = true) :
    olaCtxOK p (olaSample (fpArith p.fmt nan) (xconv p.fmt) k c x).1 = true := by
  have hs := olaShape_of_ok h hv
  have s := (olaSample_shape (fpArith p.fmt nan) (xconv p.fmt) (xconv_length p.fmt) k hs x).1
  simp only [olaCtxOK, hv, Bool.not_true, Bool.false_or, Bool.and_eq_true, decide_eq_true_eq] at h
  obtain ⟨⟨⟨⟨⟨⟨⟨⟨⟨⟨⟨⟨⟨h1, h2⟩, h3⟩, h4⟩, h5⟩, h6⟩, h7⟩, h8⟩, h9⟩, h10⟩, h11⟩, h12⟩, h13⟩, h14⟩ := h
  by_cases hf : c.fill + 1 < c.l
  · rw [olaSample_buffer _ _ _ _ hf] at s ⊢
    simp only [olaCtxOK, hv, Bool.not_true, Bool.false_or, Bool.and_eq_true, decide_eq_true_eq]
    exact ⟨⟨⟨⟨⟨⟨⟨⟨⟨⟨⟨⟨⟨h1, h2⟩, h3⟩, h4⟩, h5⟩, h6⟩, h7⟩, h8⟩, s.inbuf⟩, s.fill⟩, h11⟩, h12⟩, allInWidth_set _ h13 hx⟩, h14⟩
  · rw [olaSample_chunk _ _ (xconv_length p.fmt) _ hs _ (by omega)] at s ⊢
    simp only [olaCtxOK, hv, Bool.not_true, Bool.false_or, Bool.and_eq_true, decide_eq_true_eq]
    exact ⟨⟨⟨⟨⟨⟨⟨⟨⟨⟨⟨⟨⟨h1, h2⟩, h3⟩, h4⟩, h5⟩, h6⟩, h7⟩, h8⟩, s.inbuf⟩, s.fill⟩, s.tail⟩, h12⟩, allInWidth_set _ h13 hx⟩,
      allInWidth_drop _ (xconv_inWidth _ _ _)⟩

theorem olaCtxOK_stream {p : Params} (nan : Nat → Nat → Val) (k : Nat) {c : OlaCtx Val} {xs : List Val}
    (h : olaCtxOK p c = true) (hv : c.valid = true) (hx : allInWidth p.fmt xs = true) :
    olaCtxOK p (olaStream (fpArith p.fmt nan) (xconv p.fmt) k c xs).1 = true := by
  induction xs generalizing k c with
  | nil => exact h
  | cons x xs ih =>
    simp only [allInWidth, List.all_cons, Bool.and_eq_true] at hx
    have hv' := (olaSample_shape (fpArith p.fmt nan) (xconv p.fmt) (xconv_length p.fmt) k (olaShape_of_ok h hv) x).2.1
    exact ih (k + 1) (olaCtxOK_sample nan k h hv hx.1) (hv'.trans hv) hx.2

end Sys2Proof.Machine
end

