-- ==== Sys2Proof/Laws/Design.lean ====
section
/-! SUPPORT. The designer's numeric rules (R120 to R132): lengths and widths, and that the NaNs drawn change no tap that is not a
NaN. -/

namespace Sys2Proof.Machine

@[simp] theorem windowedTaps_length (f : Fmt) (sin : Val → Val) (nan : Nat → Nat → Val) (t : FilterType) (n : Nat)
    (w fc : List Val) : (windowedTaps f sin nan t n w fc).length = n := by
  simp [windowedTaps]

theorem windowedTaps_getD (f : Fmt) (sin : Val → Val) (nan : Nat → Nat → Val) (t : FilterType) (n : Nat)
    (w fc : List Val) {i : Nat} (hi : i < n) :
    (windowedTaps f sin nan t n w fc).getD i fpZero =
      fpMul f (nan i 0) (idealTap f sin (nan i 0) t n fc i) (w.getD i fpZero) := by
  simp [windowedTaps, List.getD_eq_getElem?_getD, hi]

@[simp] theorem normalizedTaps_length (f : Fmt) (nan : Nat → Nat → Val) (S : Val) (v : List Val) :
    (normalizedTaps f nan S v).length = v.length := by
  simp [normalizedTaps]

theorem normalizedTaps_getD (f : Fmt) (nan : Nat → Nat → Val) (S : Val) (v : List Val) {i : Nat} (hi : i < v.length) :
    (normalizedTaps f nan S v).getD i fpZero = fpDiv f (nan i 2) (v.getD i fpZero) S := by
  simp [normalizedTaps, List.getD_eq_getElem?_getD, hi]

theorem finiteTaps_eq_some_iff (f : Fmt) (v u : List Val) :
    finiteTaps f v = some u ↔ v.all (fpIsFinite f) = true ∧ u = v := by
  unfold finiteTaps
  split
  · rename_i h; simp only [h, true_and, Option.some.injEq, eq_comm]
  · rename_i h; simp [h]

/-- Everything a design's numeric part can answer (R120, R132). -/
theorem designTaps_eq_some_iff (f : Fmt) (sin : Val → Val) (nan : Nat → Nat → Val) (t : FilterType) (norm : Bool) (n : Nat)
    (w fc v : List Val) :
    designTaps f sin nan t norm n w fc = some v ↔
      v.all (fpIsFinite f) = true ∧
        (norm = false ∧ v = windowedTaps f sin nan t n w fc ∨
          norm = true ∧ fpIsZero f (divisor f nan t n (windowedTaps f sin nan t n w fc)) = false ∧
            v = normalizedTaps f nan (divisor f nan t n (windowedTaps f sin nan t n w fc))
              (windowedTaps f sin nan t n w fc)) := by
  unfold designTaps
  cases norm with
  | false =>
    simp only [Bool.false_eq_true, if_false, finiteTaps_eq_some_iff, true_and, false_and, or_false]
    constructor
    · rintro ⟨h, rfl⟩; exact ⟨h, rfl⟩
    · rintro ⟨h, rfl⟩; exact ⟨h, rfl⟩
  | true =>
    simp only [if_true, Bool.true_eq_false, false_and, false_or, true_and]
    split
    · rename_i hz
      simp [hz]
    · rename_i hz
      rw [finiteTaps_eq_some_iff]
      rw [Bool.not_eq_true] at hz
      constructor
      · rintro ⟨h, rfl⟩; exact ⟨h, hz, rfl⟩
      · rintro ⟨h, _, rfl⟩; exact ⟨h, rfl⟩

/-- N taps, each a pattern of the format (R133). -/
theorem designTaps_shape {f : Fmt} {sin : Val → Val} {nan : Nat → Nat → Val} {t : FilterType} {norm : Bool} {n : Nat}
    {w fc v : List Val} (h : designTaps f sin nan t norm n w fc = some v) : v.length = n ∧ allInWidth f v = true := by
  rcases ((designTaps_eq_some_iff ..).1 h).2 with ⟨_, rfl⟩ | ⟨_, _, rfl⟩
  · exact ⟨windowedTaps_length .., by simp [allInWidth, windowedTaps, fpMul_inWidth]⟩
  · refine ⟨by simp, ?_⟩
    rw [allInWidth_iff]
    intro x hx
    rw [normalizedTaps, List.mem_mapIdx] at hx
    obtain ⟨i, _, rfl⟩ := hx
    exact fpDiv_inWidth _ _ _ _

/-! ### The draws -/

theorem sincF_draw (f : Fmt) (sin : Val → Val) (d d' : Val) {x x' : Val} (hx : SameValue f x x') :
    SameValue f (sincF f sin d x) (sincF f sin d' x') := by
  unfold sincF
  rw [hx.isZero]
  split
  · exact .inl rfl
  · have ha := sameValue_mul d d' (SameValue.rfl' (fpPi f)) hx
    rcases ha with ha | ⟨h1, h2⟩
    · rw [← ha]
      exact sameValue_div d d' (.inl rfl) (.inl rfl)
    · exact .inr ⟨fpDiv_nan_right _ _ h1, fpDiv_nan_right _ _ h2⟩

theorem lowpassTerm_draw (f : Fmt) (sin : Val → Val) (d d' c k : Val) :
    SameValue f (lowpassTerm f sin d c k) (lowpassTerm f sin d' c k) := by
  have h := sameValue_mul (f := f) d d' (SameValue.rfl' (fpTwo f)) (SameValue.rfl' c)
  exact sameValue_mul d d' h (sincF_draw f sin d d' (sameValue_mul d d' h (SameValue.rfl' k)))

theorem idealTap_draw (f : Fmt) (sin : Val → Val) (d d' : Val) (t : FilterType) (n : Nat) (fc : List Val) (i : Nat) :
    SameValue f (idealTap f sin d t n fc i) (idealTap f sin d' t n fc i) := by
  have h := fun c => lowpassTerm_draw f sin d d' c (tapOffset f n i)
  cases t with
  | lp => exact h _
  | hp => exact sameValue_sub d d' (SameValue.rfl' _) (h _)
  | bp => exact sameValue_sub d d' (h _) (h _)
  | bs => exact sameValue_sub d d' (SameValue.rfl' _) (sameValue_sub d d' (h _) (h _))

theorem divisor_draw (f : Fmt) (nan nan' : Nat → Nat → Val) (t : FilterType) (n : Nat) {v v' : List Val}
    (h : ∀ i, i < n → SameValue f (v.getD i fpZero) (v'.getD i fpZero)) (hn : 0 < n) :
    SameValue f (divisor f nan t n v) (divisor f nan' t n v') := by
  have start : SameValue f (divisorStart f t n v) (divisorStart f t n v') := by
    have h0 := h 0 hn
    cases t <;> simp only [divisorStart] <;> first | exact h0 | (split; exact h0; exact sameValue_neg h0)
  unfold divisor
  have all : ∀ j ∈ (List.range (n - 1)).map (· + 1), j < n := by
    intro j hj
    simp only [List.mem_map, List.mem_range] at hj
    obtain ⟨a, ha, rfl⟩ := hj
    omega
  generalize (List.range (n - 1)).map (· + 1) = js at all
  generalize divisorStart f t n v = a at start
  generalize divisorStart f t n v' = a' at start
  induction js generalizing a a' with
  | nil => exact start
  | cons j js ih =>
    refine ih (fun i hi => all i (List.mem_cons_of_mem _ hi)) _ _ ?_
    have hj := h j (all j List.mem_cons_self)
    cases t <;> simp only [divisorStep] <;>
      first
      | exact sameValue_add _ _ start hj
      | (split; exact sameValue_add _ _ start hj; exact sameValue_sub _ _ start hj)

/-- The taps of a design do not depend on the NaNs drawn (R138): a NaN that enters a tap makes it a NaN, which R132 rejects. -/
theorem designTaps_draw (f : Fmt) (sin : Val → Val) (nan nan' : Nat → Nat → Val) (t : FilterType) (norm : Bool) (n : Nat)
    (w fc : List Val) (hn : 0 < n) : designTaps f sin nan t norm n w fc = designTaps f sin nan' t norm n w fc := by
  have key : ∀ nan nan' v, designTaps f sin nan t norm n w fc = some v → designTaps f sin nan' t norm n w fc = some v := by
    intro nan nan' v h
    rw [designTaps_eq_some_iff] at h ⊢
    obtain ⟨hf, h⟩ := h
    have hwt : ∀ i, i < n → SameValue f ((windowedTaps f sin nan t n w fc).getD i fpZero)
        ((windowedTaps f sin nan' t n w fc).getD i fpZero) := by
      intro i hi
      rw [windowedTaps_getD _ _ _ _ _ _ _ hi, windowedTaps_getD _ _ _ _ _ _ _ hi]
      exact sameValue_mul _ _ (idealTap_draw ..) (SameValue.rfl' _)
    have fin : ∀ i, i < v.length → fpIsFinite f (v.getD i fpZero) = true := by
      intro i hi
      rw [List.all_eq_true] at hf
      rw [List.getD_eq_getElem?_getD, List.getElem?_eq_getElem hi]
      exact hf _ (List.getElem_mem hi)
    have ext : ∀ u : List Val, u.length = v.length →
        (∀ i, i < v.length → SameValue f (v.getD i fpZero) (u.getD i fpZero)) → v = u := by
      intro u hu hs
      apply List.ext_getElem hu.symm
      intro i h1 h2
      have := (hs i h1).eq_of_finite (fin i h1)
      simpa [List.getD_eq_getElem?_getD, h1, h2] using this
    refine ⟨hf, ?_⟩
    rcases h with ⟨hno, rfl⟩ | ⟨hno, hz, rfl⟩
    · exact .inl ⟨hno, ext _ (by simp) fun i hi => hwt i (by simpa using hi)⟩
    · have hd := divisor_draw f nan nan' t n hwt hn
      refine .inr ⟨hno, by rw [← hd.isZero]; exact hz, ext _ (by simp) fun i hi => ?_⟩
      have hi' : i < n := by simpa using hi
      rw [normalizedTaps_getD _ _ _ _ (by simpa using hi'), normalizedTaps_getD _ _ _ _ (by simpa using hi')]
      exact sameValue_div _ _ (hwt i hi') hd
  cases h : designTaps f sin nan t norm n w fc with
  | some v => exact (key _ _ _ h).symm
  | none =>
    cases h' : designTaps f sin nan' t norm n w fc with
    | none => rfl
    | some v => rw [key _ _ _ h'] at h; cases h

/-! ### The sine -/

theorem sinF_inWidth (f : Fmt) (a : Val) : fpInWidth f (sinF f a) = true := by
  unfold sinF
  split
  · exact fpNeg_inWidth _ _
  · exact fpMask_inWidth _ _

/-! ### The cutoffs -/

/-- R121's bound 0.5 as a number of units. -/
theorem fpInt_half (f : Fmt) : 2 * fpInt f (fpHalf f) = (2 ^ f.scale : Nat) ∧ fpIsNaN f (fpHalf f) = false := by
  cases f <;> decide +kernel

/-- The check of a design's cutoffs is R121 on their values. -/
theorem cutoffsOK_eq (f : Fmt) (t : FilterType) (fc : List Val) : cutoffsOK f t fc = cutoffsLegal f t fc := by
  have h := fpInt_half f
  have z : fpIsNaN f fpZero = false ∧ fpInt f fpZero = 0 := by cases f <;> decide +kernel
  have one : ∀ c, cutoffInRange f c =
      (!fpIsNaN f c && decide (0 < fpInt f c) && decide (2 * fpInt f c < (2 ^ f.scale : Nat))) := by
    intro c
    rw [← h.1]
    have : (2 * fpInt f c < 2 * fpInt f (fpHalf f)) = (fpInt f c < fpInt f (fpHalf f)) := by
      apply propext; omega
    simp only [cutoffInRange, fpLt, z, h.2, this]
    cases fpIsNaN f c <;> simp
  cases t <;> simp only [cutoffsOK, cutoffsLegal, one]
  all_goals
    simp only [fpLt]
    cases fpIsNaN f (fc.getD 0 fpZero) <;> cases fpIsNaN f (fc.getD 1 fpZero) <;> simp

end Sys2Proof.Machine
end

