-- ==== Sys2Proof/Laws/Encoding.lean ====
section
/-! SUPPORT. The fields of command words (R90): what they are as numbers, that a word is its fields, and the fields of an
encoding. -/

namespace Sys2Proof

theorem fieldOp_toNat (w : Word) : (fieldOp w).toNat = w.toNat % 256 := by
  simp [fieldOp, BitVec.extractLsb'_toNat]

theorem fieldCtx_toNat (w : Word) : (fieldCtx w).toNat = w.toNat / 256 % 16 := by
  simp [fieldCtx, BitVec.extractLsb'_toNat, Nat.shiftRight_eq_div_pow]

theorem fieldNorm_toNat (w : Word) : (fieldNorm w).toNat = w.toNat / 4096 % 2 := by
  simp only [fieldNorm, BitVec.getLsbD, Nat.testBit_eq_decide_div_mod_eq]
  rcases Nat.mod_two_eq_zero_or_one (w.toNat / 2 ^ 12) with h | h <;> simp_all

theorem fieldReserved_toNat (w : Word) : (fieldReserved w).toNat = w.toNat / 8192 := by
  have := w.isLt
  simp only [fieldReserved, BitVec.extractLsb'_toNat, Nat.shiftRight_eq_div_pow]
  omega

/-- A word is its fields. -/
theorem word_eq_iff_fields (v w : Word) :
    v = w ↔ fieldReserved v = fieldReserved w ∧ fieldNorm v = fieldNorm w ∧ fieldCtx v = fieldCtx w ∧
      fieldOp v = fieldOp w := by
  constructor
  · rintro rfl
    exact ⟨rfl, rfl, rfl, rfl⟩
  · rintro ⟨h1, h2, h3, h4⟩
    apply BitVec.eq_of_toNat_eq
    have e1 := fieldReserved_toNat v
    have e2 := fieldNorm_toNat v
    have e3 := fieldCtx_toNat v
    have e4 := fieldOp_toNat v
    rw [h1, fieldReserved_toNat] at e1
    rw [h2, fieldNorm_toNat] at e2
    rw [h3, fieldCtx_toNat] at e3
    rw [h4, fieldOp_toNat] at e4
    omega

/-- The fields of four fields put together (R90). -/
theorem fields_of_append (n : Bool) (c : BitVec 4) (o : BitVec 8) (w : Word)
    (hw : w = (0#19 ++ BitVec.ofBool n ++ c ++ o : BitVec (19 + 1 + 4 + 8))) :
    fieldReserved w = 0 ∧ fieldNorm w = n ∧ fieldCtx w = c ∧ fieldOp w = o := by
  subst hw
  refine ⟨?_, ?_, ?_, ?_⟩
  · apply BitVec.eq_of_getLsbD_eq
    intro i hi
    simp only [fieldReserved, BitVec.getLsbD_extractLsb', BitVec.getLsbD_append, hi]
    rw [if_neg (by omega), if_neg (by omega), if_neg (by omega)]
    simp
  · simp only [fieldNorm, BitVec.getLsbD_append]
    rw [if_neg (by omega), if_neg (by omega), if_pos (by omega)]
    simp
  · apply BitVec.eq_of_getLsbD_eq
    intro i hi
    simp only [fieldCtx, BitVec.getLsbD_extractLsb', BitVec.getLsbD_append, hi]
    rw [if_neg (by omega), if_pos (by omega)]
    simp
  · apply BitVec.eq_of_getLsbD_eq
    intro i hi
    simp only [fieldOp, BitVec.getLsbD_extractLsb', BitVec.getLsbD_append, hi]
    rw [if_pos (by omega)]
    simp

/-- The fields of an encoding (R90). -/
theorem encode_fields (i : Instr) :
    fieldReserved (encode i) = 0 ∧ fieldNorm (encode i) = i.normField ∧ fieldCtx (encode i) = i.ctxField ∧
      fieldOp (encode i) = i.op :=
  fields_of_append _ _ _ _ rfl

/-- The decoder on fields answers a command exactly when they are its fields (R95, R102). -/
theorem decodeFields_eq_some_iff (o : BitVec 8) (c : BitVec 4) (n : Bool) (i : Instr) :
    decodeFields o c n = some i ↔ n = i.normField ∧ c = i.ctxField ∧ o = i.op := by
  constructor
  · intro h
    unfold decodeFields at h
    by_cases ho : o = 0x00
    · rw [if_pos ho] at h
      by_cases h' : c = 0 ∧ n = false
      · rw [if_pos h'] at h
        obtain rfl := Option.some.inj h
        exact ⟨h'.2, h'.1, ho⟩
      · rw [if_neg h'] at h
        cases h
    rw [if_neg ho] at h
    clear ho
    by_cases ho : o = 0x01
    · rw [if_pos ho] at h
      by_cases h' : c = 0
      · rw [if_pos h'] at h
        obtain rfl := Option.some.inj h
        exact ⟨rfl, h', ho⟩
      · rw [if_neg h'] at h
        cases h
    rw [if_neg ho] at h
    clear ho
    by_cases ho : o = 0x02
    · rw [if_pos ho] at h
      by_cases h' : c = 0
      · rw [if_pos h'] at h
        obtain rfl := Option.some.inj h
        exact ⟨rfl, h', ho⟩
      · rw [if_neg h'] at h
        cases h
    rw [if_neg ho] at h
    clear ho
    by_cases ho : o = 0x03
    · rw [if_pos ho] at h
      by_cases h' : c = 0
      · rw [if_pos h'] at h
        obtain rfl := Option.some.inj h
        exact ⟨rfl, h', ho⟩
      · rw [if_neg h'] at h
        cases h
    rw [if_neg ho] at h
    clear ho
    by_cases ho : o = 0x04
    · rw [if_pos ho] at h
      by_cases h' : c = 0
      · rw [if_pos h'] at h
        obtain rfl := Option.some.inj h
        exact ⟨rfl, h', ho⟩
      · rw [if_neg h'] at h
        cases h
    rw [if_neg ho] at h
    clear ho
    by_cases ho : o = 0x10
    · rw [if_pos ho] at h
      by_cases h' : n = false
      · rw [if_pos h'] at h
        obtain rfl := Option.some.inj h
        exact ⟨h', rfl, ho⟩
      · rw [if_neg h'] at h
        cases h
    rw [if_neg ho] at h
    clear ho
    by_cases ho : o = 0x11
    · rw [if_pos ho] at h
      by_cases h' : n = false
      · rw [if_pos h'] at h
        obtain rfl := Option.some.inj h
        exact ⟨h', rfl, ho⟩
      · rw [if_neg h'] at h
        cases h
    rw [if_neg ho] at h
    clear ho
    by_cases ho : o = 0x12
    · rw [if_pos ho] at h
      by_cases h' : n = false
      · rw [if_pos h'] at h
        obtain rfl := Option.some.inj h
        exact ⟨h', rfl, ho⟩
      · rw [if_neg h'] at h
        cases h
    rw [if_neg ho] at h
    clear ho
    by_cases ho : o = 0x20
    · rw [if_pos ho] at h
      by_cases h' : n = false
      · rw [if_pos h'] at h
        obtain rfl := Option.some.inj h
        exact ⟨h', rfl, ho⟩
      · rw [if_neg h'] at h
        cases h
    rw [if_neg ho] at h
    clear ho
    by_cases ho : o = 0x21
    · rw [if_pos ho] at h
      by_cases h' : n = false
      · rw [if_pos h'] at h
        obtain rfl := Option.some.inj h
        exact ⟨h', rfl, ho⟩
      · rw [if_neg h'] at h
        cases h
    rw [if_neg ho] at h
    clear ho
    by_cases ho : o = 0x22
    · rw [if_pos ho] at h
      by_cases h' : n = false
      · rw [if_pos h'] at h
        obtain rfl := Option.some.inj h
        exact ⟨h', rfl, ho⟩
      · rw [if_neg h'] at h
        cases h
    rw [if_neg ho] at h
    clear ho
    cases h
  · rintro ⟨rfl, rfl, rfl⟩
    cases i <;> rfl

end Sys2Proof
end

