-- ==== Sys2Proof/Laws/Ops.lean ====
section
/-! SUPPORT. Once for each shared operation and each meaning: what it answers. Later proofs cite these and unfold no meaning. -/

namespace Sys2Proof.Machine

/-! ### Completion -/

theorem completeFlags_eq (e : ErrCode) (s : State) : completeFlags e s = completed e s := by
  simp [completeFlags, completed, refreshIrq]

theorem raiseError_eq (e : ErrCode) (s : State) : raiseError e s = .next (completed e s) := by
  rw [raiseError, completeFlags_eq]

theorem doneKeep_eq (s : State) : doneKeep s = .next (completed .ok s) := by
  rw [doneKeep, completeFlags_eq]

theorem doneWith_eq (r0 r1 : Nat) (s : State) :
    doneWith r0 r1 s =
      .next { completed .ok s with res0 := BitVec.ofNat 32 r0, res1 := BitVec.ofNat 32 r1 } := by
  rw [doneWith, doneKeep_eq]
  rfl

/-! ### Operands -/

theorem rangeOK_iff (p : Params) (base len : Nat) :
    rangeOK p base len = true ↔ base + len ≤ p.dmemWords ∨ len = 0 := by
  simp [rangeOK]

theorem designRangesOK_iff (s : State) (t : FilterType) :
    designRangesOK s t = true ↔
      rangeOK s.params (srcIndex s) (lenCount s) = true ∧ rangeOK s.params (auxIndex s) (cutoffCount t) = true ∧
        rangeOK s.params (dstIndex s) (lenCount s) = true := by
  simp [designRangesOK, and_assoc]

/-! ### Meanings: every outcome of each -/

/-- Everything a design command can do (R120). -/
inductive DesignOutcome (t : FilterType) (norm : Bool) (s : State) : Result → Prop
  | error (e : ErrCode) (he : e ≠ .ok) (hl : e ≠ .illegalCmd) : DesignOutcome t norm s (.next (completed e s))
  | uninit (h : readSrc s (lenCount s) = none ∨ readAux s (cutoffCount t) = none) :
      DesignOutcome t norm s (.fault .uninitRead)
  | success (w fc v : List Val) (hn : lenCount s ≠ 0) (hw : wlenCount s = lenCount s)
      (hr : designRangesOK s t = true) (hsrc : readSrc s (lenCount s) = some w)
      (haux : readAux s (cutoffCount t) = some fc) (hc : cutoffsOK s.params.fmt t fc = true)
      (hv : stateTaps s t norm w fc = some v) :
      DesignOutcome t norm s (.next
        { completed .ok s with
          mem := memWrite s.params.fmt s.mem (dstIndex s) v
          res0 := BitVec.ofNat 32 (lenCount s)
          res1 := BitVec.ofNat 32 0 })

theorem runDesign_outcome (t : FilterType) (norm : Bool) (s : State) :
    DesignOutcome t norm s (runDesign t norm s) := by
  unfold runDesign
  split_ifs with h1 h2 h3
  · rw [raiseError_eq]; exact .error _ (by decide) (by decide)
  · rw [raiseError_eq]; exact .error _ (by decide) (by decide)
  · split
    · rename_i w fc hw hfc
      split_ifs with h4
      · split
        · rename_i v hv
          rw [doneWith_eq]
          exact .success w fc v h1 (not_not.1 h2) ((designRangesOK_iff s t).2 h3) hw hfc h4 hv
        · rw [raiseError_eq]; exact .error _ (by decide) (by decide)
      · rw [raiseError_eq]; exact .error _ (by decide) (by decide)
    · rename_i hne
      refine .uninit ?_
      cases hw : readSrc s (lenCount s) with
      | none => exact Or.inl rfl
      | some w =>
        cases hfc : readAux s (cutoffCount t) with
        | none => exact Or.inr rfl
        | some fc => exact absurd hfc (hne w fc hw)
  · rw [raiseError_eq]; exact .error _ (by decide) (by decide)

/-- A design whose checks pass (R120, R226). -/
theorem runDesign_success (t : FilterType) (norm : Bool) (s : State) (w fc v : List Val) (hn : lenCount s ≠ 0)
    (hw : wlenCount s = lenCount s) (hr : designRangesOK s t = true) (hsrc : readSrc s (lenCount s) = some w)
    (haux : readAux s (cutoffCount t) = some fc) (hc : cutoffsOK s.params.fmt t fc = true)
    (hv : stateTaps s t norm w fc = some v) :
    runDesign t norm s = .next
      { completed .ok s with
        mem := memWrite s.params.fmt s.mem (dstIndex s) v
        res0 := BitVec.ofNat 32 (lenCount s)
        res1 := BitVec.ofNat 32 0 } := by
  unfold stateTaps at hv
  unfold runDesign
  rw [if_neg hn, if_neg (not_not.2 hw), if_neg (not_not.2 ((designRangesOK_iff s t).1 hr)), hsrc, haux]
  simp only [hc, if_true, hv]
  rw [doneWith_eq]
  rfl

theorem exec_designInstr (t : FilterType) (norm : Bool) (s : State) :
    exec (designInstr t norm) s = runDesign t norm s := by
  cases t <;> rfl

/-- Everything `DIR_INIT` can do (R161). -/
inductive DirInitOutcome (ctx : BitVec 4) (s : State) : Result → Prop
  | error (e : ErrCode) (he : e ≠ .ok) (hl : e = .illegalCmd → s.params.nctxDir ≤ ctx.toNat) :
      DirInitOutcome ctx s (.next (completed e s))
  | uninit (h : readSrc s (lenCount s) = none) : DirInitOutcome ctx s (.fault .uninitRead)
  | success (T : List Val) (hctx : ctx.toNat < s.params.nctxDir) (hn : lenCount s ≠ 0)
      (hcap : lenCount s ≤ s.params.maxTaps) (hr : rangeOK s.params (srcIndex s) (lenCount s) = true)
      (hT : readSrc s (lenCount s) = some T) :
      DirInitOutcome ctx s (.next
        { completed .ok s with
          dir := s.dir.set ctx.toNat (dirConstruct fpZero T)
          res0 := BitVec.ofNat 32 (lenCount s)
          res1 := BitVec.ofNat 32 0 })

theorem execDirInit_outcome (ctx : BitVec 4) (s : State) : DirInitOutcome ctx s (execDirInit ctx s) := by
  unfold execDirInit
  split_ifs with h1 h2 h3 h4
  · rw [raiseError_eq]; exact .error _ (by decide) fun _ => h1
  · rw [raiseError_eq]; exact .error _ (by decide) (by simp)
  · rw [raiseError_eq]; exact .error _ (by decide) (by simp)
  · split
    · rename_i T hT
      rw [doneWith_eq]
      exact .success T (by omega) h2 (by omega) h4 hT
    · rename_i hT
      exact .uninit hT
  · rw [raiseError_eq]; exact .error _ (by decide) (by simp)

theorem execDirInit_success (ctx : BitVec 4) (s : State) (T : List Val) (hctx : ctx.toNat < s.params.nctxDir)
    (hn : lenCount s ≠ 0) (hcap : lenCount s ≤ s.params.maxTaps)
    (hr : rangeOK s.params (srcIndex s) (lenCount s) = true) (hT : readSrc s (lenCount s) = some T) :
    execDirInit ctx s = .next
      { completed .ok s with
        dir := s.dir.set ctx.toNat (dirConstruct fpZero T)
        res0 := BitVec.ofNat 32 (lenCount s)
        res1 := BitVec.ofNat 32 0 } := by
  unfold execDirInit
  rw [if_neg (by omega), if_neg hn, if_neg (by omega), if_neg (not_not.2 hr), hT]
  exact doneWith_eq _ _ _

/-- Everything `DIR_APPLY` can do (R165). -/
inductive DirApplyOutcome (ctx : BitVec 4) (s : State) : Result → Prop
  | error (e : ErrCode) (he : e ≠ .ok) (hl : e = .illegalCmd → s.params.nctxDir ≤ ctx.toNat) :
      DirApplyOutcome ctx s (.next (completed e s))
  | uninit (h : readSrc s (lenCount s) = none) : DirApplyOutcome ctx s (.fault .uninitRead)
  | success (x : List Val) (hctx : ctx.toNat < s.params.nctxDir) (hv : (dirCtx s ctx.toNat).valid = true)
      (hr : rangeOK s.params (srcIndex s) (lenCount s) = true) (hd : rangeOK s.params (dstIndex s) (lenCount s) = true)
      (hx : readSrc s (lenCount s) = some x) :
      DirApplyOutcome ctx s (.next
        { completed .ok s with
          mem := memWrite s.params.fmt s.mem (dstIndex s)
            (dirStream (fpArith s.params.fmt (nanDraws s)) 0 (dirCtx s ctx.toNat) x).2
          dir := s.dir.set ctx.toNat (dirStream (fpArith s.params.fmt (nanDraws s)) 0 (dirCtx s ctx.toNat) x).1
          res0 := BitVec.ofNat 32 (lenCount s)
          res1 := BitVec.ofNat 32 0 })

theorem execDirApply_outcome (ctx : BitVec 4) (s : State) : DirApplyOutcome ctx s (execDirApply ctx s) := by
  unfold execDirApply
  split_ifs with h1 h2 h3
  · rw [raiseError_eq]; exact .error _ (by decide) fun _ => h1
  · split
    · rename_i x hx
      rw [doneWith_eq]
      exact .success x (by omega) h2 h3.1 h3.2 hx
    · rename_i hx
      exact .uninit hx
  · rw [raiseError_eq]; exact .error _ (by decide) (by simp)
  · rw [raiseError_eq]; exact .error _ (by decide) (by simp)

theorem execDirApply_success (ctx : BitVec 4) (s : State) (x : List Val) (hctx : ctx.toNat < s.params.nctxDir)
    (hv : (dirCtx s ctx.toNat).valid = true) (hr : rangeOK s.params (srcIndex s) (lenCount s) = true)
    (hd : rangeOK s.params (dstIndex s) (lenCount s) = true) (hx : readSrc s (lenCount s) = some x) :
    execDirApply ctx s = .next
      { completed .ok s with
        mem := memWrite s.params.fmt s.mem (dstIndex s)
          (dirStream (fpArith s.params.fmt (nanDraws s)) 0 (dirCtx s ctx.toNat) x).2
        dir := s.dir.set ctx.toNat (dirStream (fpArith s.params.fmt (nanDraws s)) 0 (dirCtx s ctx.toNat) x).1
        res0 := BitVec.ofNat 32 (lenCount s)
        res1 := BitVec.ofNat 32 0 } := by
  unfold execDirApply
  rw [if_neg (by omega), if_neg (not_not.2 hv), if_neg (not_not.2 ⟨hr, hd⟩), hx]
  exact doneWith_eq _ _ _

/-- `DIR_REL` (R166). -/
theorem execDirRel_eq (ctx : BitVec 4) (s : State) :
    execDirRel ctx s =
      if s.params.nctxDir ≤ ctx.toNat then .next (completed .illegalCmd s)
      else .next
        { completed .ok s with dir := s.dir.set ctx.toNat { dirCtx s ctx.toNat with valid := false } } := by
  unfold execDirRel
  rw [raiseError_eq, doneKeep_eq]
  rfl

/-- Everything `OLA_INIT` can do (R182). -/
inductive OlaInitOutcome (ctx : BitVec 4) (s : State) : Result → Prop
  | error (e : ErrCode) (he : e ≠ .ok) (hl : e = .illegalCmd → s.params.nctxOla ≤ ctx.toNat) :
      OlaInitOutcome ctx s (.next (completed e s))
  | uninit (h : readSrc s (lenCount s) = none) : OlaInitOutcome ctx s (.fault .uninitRead)
  | success (T : List Val) (hctx : ctx.toNat < s.params.nctxOla) (hn : lenCount s ≠ 0)
      (hcap : lenCount s ≤ s.params.maxTaps) (hb : blockSize (lenCount s) (auxIndex s) ≤ s.params.maxBlock)
      (hr : rangeOK s.params (srcIndex s) (lenCount s) = true) (hT : readSrc s (lenCount s) = some T) :
      OlaInitOutcome ctx s (.next
        { completed .ok s with
          ola := s.ola.set ctx.toNat (olaConstruct fpZero T (blockSize (lenCount s) (auxIndex s)))
          res0 := BitVec.ofNat 32 (blockSize (lenCount s) (auxIndex s))
          res1 := BitVec.ofNat 32 (chunkLen (lenCount s) (blockSize (lenCount s) (auxIndex s))) })

theorem execOlaInit_outcome (ctx : BitVec 4) (s : State) : OlaInitOutcome ctx s (execOlaInit ctx s) := by
  unfold execOlaInit
  split_ifs with h1 h2 h3 h4 h5
  · rw [raiseError_eq]; exact .error _ (by decide) fun _ => h1
  · rw [raiseError_eq]; exact .error _ (by decide) (by simp)
  · rw [raiseError_eq]; exact .error _ (by decide) (by simp)
  · rw [raiseError_eq]; exact .error _ (by decide) (by simp)
  · split
    · rename_i T hT
      rw [doneWith_eq]
      exact .success T (by omega) h2 (by omega) (by omega) h5 hT
    · rename_i hT
      exact .uninit hT
  · rw [raiseError_eq]; exact .error _ (by decide) (by simp)

theorem execOlaInit_success (ctx : BitVec 4) (s : State) (T : List Val) (hctx : ctx.toNat < s.params.nctxOla)
    (hn : lenCount s ≠ 0) (hcap : lenCount s ≤ s.params.maxTaps)
    (hb : blockSize (lenCount s) (auxIndex s) ≤ s.params.maxBlock)
    (hr : rangeOK s.params (srcIndex s) (lenCount s) = true) (hT : readSrc s (lenCount s) = some T) :
    execOlaInit ctx s = .next
      { completed .ok s with
        ola := s.ola.set ctx.toNat (olaConstruct fpZero T (blockSize (lenCount s) (auxIndex s)))
        res0 := BitVec.ofNat 32 (blockSize (lenCount s) (auxIndex s))
        res1 := BitVec.ofNat 32 (chunkLen (lenCount s) (blockSize (lenCount s) (auxIndex s))) } := by
  unfold execOlaInit
  rw [if_neg (by omega), if_neg hn, if_neg (by omega), if_neg (by omega), if_neg (not_not.2 hr), hT]
  exact doneWith_eq _ _ _

/-- Everything `OLA_APPLY` can do (R188). -/
inductive OlaApplyOutcome (ctx : BitVec 4) (s : State) : Result → Prop
  | error (e : ErrCode) (he : e ≠ .ok) (hl : e = .illegalCmd → s.params.nctxOla ≤ ctx.toNat) :
      OlaApplyOutcome ctx s (.next (completed e s))
  | uninit (h : readSrc s (lenCount s) = none) : OlaApplyOutcome ctx s (.fault .uninitRead)
  | success (x : List Val) (hctx : ctx.toNat < s.params.nctxOla) (hv : (olaCtx s ctx.toNat).valid = true)
      (hr : rangeOK s.params (srcIndex s) (lenCount s) = true)
      (hd : rangeOK s.params (dstIndex s) (olaOutCount (olaCtx s ctx.toNat) (lenCount s)) = true)
      (hx : readSrc s (lenCount s) = some x) :
      OlaApplyOutcome ctx s (.next
        { completed .ok s with
          mem := memWrite s.params.fmt s.mem (dstIndex s)
            (olaStream (fpArith s.params.fmt (nanDraws s)) (xconv s.params.fmt) 0 (olaCtx s ctx.toNat) x).2
          ola := s.ola.set ctx.toNat
            (olaStream (fpArith s.params.fmt (nanDraws s)) (xconv s.params.fmt) 0 (olaCtx s ctx.toNat) x).1
          res0 := BitVec.ofNat 32 (olaOutCount (olaCtx s ctx.toNat) (lenCount s))
          res1 := BitVec.ofNat 32
            (olaStream (fpArith s.params.fmt (nanDraws s)) (xconv s.params.fmt) 0 (olaCtx s ctx.toNat) x).1.fill })

theorem execOlaApply_outcome (ctx : BitVec 4) (s : State) : OlaApplyOutcome ctx s (execOlaApply ctx s) := by
  unfold execOlaApply
  split_ifs with h1 h2 h3
  · rw [raiseError_eq]; exact .error _ (by decide) fun _ => h1
  · split
    · rename_i x hx
      rw [doneWith_eq]
      exact .success x (by omega) h2 h3.1 h3.2 hx
    · rename_i hx
      exact .uninit hx
  · rw [raiseError_eq]; exact .error _ (by decide) (by simp)
  · rw [raiseError_eq]; exact .error _ (by decide) (by simp)

theorem execOlaApply_success (ctx : BitVec 4) (s : State) (x : List Val) (hctx : ctx.toNat < s.params.nctxOla)
    (hv : (olaCtx s ctx.toNat).valid = true) (hr : rangeOK s.params (srcIndex s) (lenCount s) = true)
    (hd : rangeOK s.params (dstIndex s) (olaOutCount (olaCtx s ctx.toNat) (lenCount s)) = true)
    (hx : readSrc s (lenCount s) = some x) :
    execOlaApply ctx s = .next
      { completed .ok s with
        mem := memWrite s.params.fmt s.mem (dstIndex s)
          (olaStream (fpArith s.params.fmt (nanDraws s)) (xconv s.params.fmt) 0 (olaCtx s ctx.toNat) x).2
        ola := s.ola.set ctx.toNat
          (olaStream (fpArith s.params.fmt (nanDraws s)) (xconv s.params.fmt) 0 (olaCtx s ctx.toNat) x).1
        res0 := BitVec.ofNat 32 (olaOutCount (olaCtx s ctx.toNat) (lenCount s))
        res1 := BitVec.ofNat 32
          (olaStream (fpArith s.params.fmt (nanDraws s)) (xconv s.params.fmt) 0 (olaCtx s ctx.toNat) x).1.fill } := by
  unfold execOlaApply
  rw [if_neg (by omega), if_neg (not_not.2 hv), if_neg (not_not.2 ⟨hr, hd⟩), hx]
  exact doneWith_eq _ _ _

/-- `OLA_REL` (R189). -/
theorem execOlaRel_eq (ctx : BitVec 4) (s : State) :
    execOlaRel ctx s =
      if s.params.nctxOla ≤ ctx.toNat then .next (completed .illegalCmd s)
      else .next
        { completed .ok s with ola := s.ola.set ctx.toNat { olaCtx s ctx.toNat with valid := false } } := by
  unfold execOlaRel
  rw [raiseError_eq, doneKeep_eq]
  rfl

/-- Every outcome of every command in one form: an error that changes nothing else, the model fault, or success with DMEM,
the contexts and the result registers written. -/
inductive CommandOutcome (i : Instr) (s : State) : Result → Prop
  | error (e : ErrCode) (he : e ≠ .ok) (hl : e = .illegalCmd → i.wellFormed s.params = false) :
      CommandOutcome i s (.next (completed e s))
  | uninit : CommandOutcome i s (.fault .uninitRead)
  | success (m : Memory) (dir : List (DirCtx Val)) (ola : List (OlaCtx Val)) (r0 r1 : Word) :
      CommandOutcome i s (.next { completed .ok s with mem := m, dir := dir, ola := ola, res0 := r0, res1 := r1 })

theorem exec_outcome (i : Instr) (s : State) : CommandOutcome i s (exec i s) := by
  have design : ∀ j t norm, CommandOutcome j s (runDesign t norm s) := by
    intro j t norm
    have h := runDesign_outcome t norm s
    generalize runDesign t norm s = r at h ⊢
    cases h with
    | error e he hl => exact .error e he fun h => absurd h hl
    | uninit => exact .uninit
    | success w fc v => exact .success _ s.dir s.ola _ _
  cases i with
  | nop =>
    show CommandOutcome .nop s (execNop s)
    rw [execNop, doneKeep_eq]
    exact .success s.mem s.dir s.ola s.res0 s.res1
  | dsgnLp norm => exact design _ .lp norm
  | dsgnHp norm => exact design _ .hp norm
  | dsgnBp norm => exact design _ .bp norm
  | dsgnBs norm => exact design _ .bs norm
  | dirInit ctx =>
    show CommandOutcome (.dirInit ctx) s (execDirInit ctx s)
    have h := execDirInit_outcome ctx s
    generalize execDirInit ctx s = r at h ⊢
    cases h with
    | error e he hl => exact .error e he fun h => by simpa [Instr.wellFormed] using hl h
    | uninit => exact .uninit
    | success T => exact .success s.mem _ s.ola _ _
  | dirApply ctx =>
    show CommandOutcome (.dirApply ctx) s (execDirApply ctx s)
    have h := execDirApply_outcome ctx s
    generalize execDirApply ctx s = r at h ⊢
    cases h with
    | error e he hl => exact .error e he fun h => by simpa [Instr.wellFormed] using hl h
    | uninit => exact .uninit
    | success x => exact .success _ _ s.ola _ _
  | dirRel ctx =>
    show CommandOutcome (.dirRel ctx) s (execDirRel ctx s)
    rw [execDirRel_eq]
    split_ifs with h
    · exact .error _ (by decide) fun _ => by simpa [Instr.wellFormed] using h
    · exact .success s.mem _ s.ola s.res0 s.res1
  | olaInit ctx =>
    show CommandOutcome (.olaInit ctx) s (execOlaInit ctx s)
    have h := execOlaInit_outcome ctx s
    generalize execOlaInit ctx s = r at h ⊢
    cases h with
    | error e he hl => exact .error e he fun h => by simpa [Instr.wellFormed] using hl h
    | uninit => exact .uninit
    | success T => exact .success s.mem s.dir _ _ _
  | olaApply ctx =>
    show CommandOutcome (.olaApply ctx) s (execOlaApply ctx s)
    have h := execOlaApply_outcome ctx s
    generalize execOlaApply ctx s = r at h ⊢
    cases h with
    | error e he hl => exact .error e he fun h => by simpa [Instr.wellFormed] using hl h
    | uninit => exact .uninit
    | success x => exact .success _ s.dir _ _ _
  | olaRel ctx =>
    show CommandOutcome (.olaRel ctx) s (execOlaRel ctx s)
    rw [execOlaRel_eq]
    split_ifs with h
    · exact .error _ (by decide) fun _ => by simpa [Instr.wellFormed] using h
    · exact .success s.mem s.dir _ s.res0 s.res1

/-! ### The environment's fields -/

/-- A state with other coming actions and another record of answers. -/
def atHost (host : List Action) (responses : List Response) (s : State) : State :=
  { s with host := host, responses := responses }

/-- The same of a result's next state. -/
def resultAtHost (host : List Action) (responses : List Response) : Result → Result
  | .next t => .next (atHost host responses t)
  | .fault x => .fault x
  | .refused r => .refused r

theorem resultAtHost_ite (host : List Action) (responses : List Response) {c : Prop} [Decidable c] (x y : Result) :
    resultAtHost host responses (if c then x else y) =
      if c then resultAtHost host responses x else resultAtHost host responses y := by
  split <;> rfl

/-- No command looks at the environment's coming actions or its record (logs 8, 11). -/
theorem exec_atHost (i : Instr) (host : List Action) (responses : List Response) (s : State) :
    exec i (atHost host responses s) = resultAtHost host responses (exec i s) := by
  have design : ∀ t norm,
      runDesign t norm (atHost host responses s) = resultAtHost host responses (runDesign t norm s) := by
    intro t norm
    unfold runDesign
    simp only [resultAtHost_ite]
    iterate 3 refine congr (congrArg _ rfl) ?_
    change (match readSrc s (lenCount s), readAux s (cutoffCount t) with
      | some w, some fc => _ | _, _ => _) = _
    cases readSrc s (lenCount s) <;> cases readAux s (cutoffCount t) <;> try rfl
    simp only [resultAtHost_ite]
    refine congr (congrArg _ ?_) rfl
    change (match designTaps s.params.fmt (sinF s.params.fmt) (nanDraws s) t norm (lenCount s) _ _ with
      | some v => _ | none => _) = _
    cases designTaps s.params.fmt (sinF s.params.fmt) (nanDraws s) t norm (lenCount s) _ _ <;> rfl
  cases i with
  | nop => rfl
  | dsgnLp norm => exact design .lp norm
  | dsgnHp norm => exact design .hp norm
  | dsgnBp norm => exact design .bp norm
  | dsgnBs norm => exact design .bs norm
  | dirInit ctx =>
    show execDirInit ctx (atHost host responses s) = resultAtHost host responses (execDirInit ctx s)
    unfold execDirInit
    simp only [resultAtHost_ite]
    iterate 4 refine congr (congrArg _ rfl) ?_
    change (match readSrc s (lenCount s) with | some w => _ | none => _) = _
    cases readSrc s (lenCount s) <;> rfl
  | dirApply ctx =>
    show execDirApply ctx (atHost host responses s) = resultAtHost host responses (execDirApply ctx s)
    unfold execDirApply
    simp only [resultAtHost_ite]
    iterate 3 refine congr (congrArg _ rfl) ?_
    change (match readSrc s (lenCount s) with | some w => _ | none => _) = _
    cases readSrc s (lenCount s) <;> rfl
  | dirRel ctx =>
    show execDirRel ctx (atHost host responses s) = resultAtHost host responses (execDirRel ctx s)
    unfold execDirRel
    simp only [resultAtHost_ite]
    rfl
  | olaInit ctx =>
    show execOlaInit ctx (atHost host responses s) = resultAtHost host responses (execOlaInit ctx s)
    unfold execOlaInit
    simp only [resultAtHost_ite]
    iterate 5 refine congr (congrArg _ rfl) ?_
    change (match readSrc s (lenCount s) with | some w => _ | none => _) = _
    cases readSrc s (lenCount s) <;> rfl
  | olaApply ctx =>
    show execOlaApply ctx (atHost host responses s) = resultAtHost host responses (execOlaApply ctx s)
    unfold execOlaApply
    simp only [resultAtHost_ite]
    iterate 3 refine congr (congrArg _ rfl) ?_
    change (match readSrc s (lenCount s) with | some w => _ | none => _) = _
    cases readSrc s (lenCount s) <;> rfl
  | olaRel ctx =>
    show execOlaRel ctx (atHost host responses s) = resultAtHost host responses (execOlaRel ctx s)
    unfold execOlaRel
    simp only [resultAtHost_ite]
    rfl

end Sys2Proof.Machine
end

