-- ==== Sys2Proof/Laws/PerInstr.lean ====
section
/-! SUPPORT. Statements for all instructions, one lemma per constructor. -/

namespace Sys2Proof.Laws.ReservedBitsZero

/-- R94: the reserved bits 31:13 of a command's word are zero. -/
def Statement (i : Instr) : Prop := fieldReserved (encode i) = 0

theorem nop : Statement .nop := (encode_fields _).1
theorem dsgnLp (norm : Bool) : Statement (.dsgnLp norm) := (encode_fields _).1
theorem dsgnHp (norm : Bool) : Statement (.dsgnHp norm) := (encode_fields _).1
theorem dsgnBp (norm : Bool) : Statement (.dsgnBp norm) := (encode_fields _).1
theorem dsgnBs (norm : Bool) : Statement (.dsgnBs norm) := (encode_fields _).1
theorem dirInit (ctx : BitVec 4) : Statement (.dirInit ctx) := (encode_fields _).1
theorem dirApply (ctx : BitVec 4) : Statement (.dirApply ctx) := (encode_fields _).1
theorem dirRel (ctx : BitVec 4) : Statement (.dirRel ctx) := (encode_fields _).1
theorem olaInit (ctx : BitVec 4) : Statement (.olaInit ctx) := (encode_fields _).1
theorem olaApply (ctx : BitVec 4) : Statement (.olaApply ctx) := (encode_fields _).1
theorem olaRel (ctx : BitVec 4) : Statement (.olaRel ctx) := (encode_fields _).1

end Sys2Proof.Laws.ReservedBitsZero
end

