-- ==== Sys2Proof/Laws/Port.lean ====
section
/-! SUPPORT. What a step does for each action of the environment (R211 to R214, R250). -/

namespace Sys2Proof.Machine

/-- The block's turn (R213). -/
theorem step_blocksTurn {s : State} {acts : List Action} (h : BlocksTurn s acts) :
    step s = blockTurn { s with host := acts } := by
  rcases h with ⟨h, rfl⟩ | h | ⟨rest, h, hb, rfl⟩
  · have e : { s with host := [] } = s := by rw [← h]
    unfold step
    rw [h, e]
  · unfold step
    rw [h]
  · have e : step s = blockTurn s := by
      unfold step
      rw [h]
      simp only [awaitsBlock, hb, decide_true, Bool.and_self, if_true]
    exact e

theorem step_read {s : State} {acts : List Action} {a : Word} {size : Nat} (h : s.host = .read a size :: acts) :
    step s = hostRead a size { s with host := acts } := by
  unfold step
  rw [h]

theorem step_write {s : State} {acts : List Action} {a v : Word} {size : Nat}
    (h : s.host = .write a size v :: acts) : step s = .next (hostWrite a size v { s with host := acts }) := by
  unfold step
  rw [h]

theorem step_reset {s : State} {acts : List Action} (h : s.host = .reset :: acts) :
    step s = .next (resetAction { s with host := acts }) := by
  unfold step
  rw [h]

/-- An `await` while `BUSY` is 0: one read of `STATUS`, and it is over (R106). -/
theorem step_await_idle {s : State} {n : Nat} {acts : List Action} (h : s.host = .await n :: acts)
    (hb : s.statusBusy = false) :
    step s = .next (atHost acts ({ data := statusWord s, error := false } :: s.responses) s) := by
  have ha : awaitsBlock n s = false := by simp [awaitsBlock, hb]
  have hnext : awaitNext n acts s = acts := by simp [awaitNext, hb]
  unfold step
  rw [h]
  simp only [ha, hnext, Bool.false_eq_true, if_false]
  rfl

/-- An `await` while `BUSY` is 1 with polls to come: one read of `STATUS`, and one poll less (R106). -/
theorem step_await_busy {s : State} {n : Nat} {acts : List Action} (h : s.host = .await n :: acts)
    (hb : s.statusBusy = true) (hn : n ≠ 0) :
    step s =
      .next (atHost (.await (n - 1) :: acts) ({ data := statusWord s, error := false } :: s.responses) s) := by
  have ha : awaitsBlock n s = false := by simp [awaitsBlock, hn]
  have hnext : awaitNext n acts s = .await (n - 1) :: acts := by simp [awaitNext, hb]
  unfold step
  rw [h]
  simp only [ha, hnext, Bool.false_eq_true, if_false]
  rfl

theorem accessLegal_iff (a : Word) (size : Nat) : accessLegal a size = true ↔ size = 32 ∧ a.toNat % 4 = 0 := by
  simp [accessLegal]

/-- A read that is a bus error (R66). -/
theorem hostRead_busError {s : State} {a : Word} {size : Nat}
    (h : size ≠ 32 ∨ a.toNat % 4 ≠ 0 ∨ dmemEnd s.params ≤ a.toNat) :
    hostRead a size s = .next (respond 0 true s) := by
  unfold hostRead
  split_ifs with h1 h2 h3 h4
  · have := (accessLegal_iff a size).1 h1
    have : dmemBase ≤ dmemEnd s.params := Nat.le_add_right _ _
    omega
  · have := (accessLegal_iff a size).1 h1
    omega
  · have := (accessLegal_iff a size).1 h1
    omega
  · rfl
  · rfl

/-- A write that is a bus error (R66). -/
theorem hostWrite_busError {s : State} {a v : Word} {size : Nat}
    (h : size ≠ 32 ∨ a.toNat % 4 ≠ 0 ∨ dmemEnd s.params ≤ a.toNat) :
    hostWrite a size v s = respond 0 true s := by
  unfold hostWrite
  split_ifs with h1 h2 h3
  · have := (accessLegal_iff a size).1 h1
    have : dmemBase ≤ dmemEnd s.params := Nat.le_add_right _ _
    omega
  · have := (accessLegal_iff a size).1 h1
    omega
  · rfl
  · rfl

/-- A read of a register offset (R211). -/
theorem hostRead_register {s : State} {a : Word} (h4 : a.toNat % 4 = 0) (h : a.toNat < dmemBase) :
    hostRead a 32 s = .next (respond (regRead s a.toNat) false s) := by
  unfold hostRead
  rw [if_neg (not_not.2 ((accessLegal_iff a 32).2 ⟨rfl, h4⟩)), if_pos h]

/-- A read of a DMEM word (R211). -/
theorem hostRead_dmem {s : State} {a : Word} (h4 : a.toNat % 4 = 0) (hlo : dmemBase ≤ a.toNat)
    (hhi : a.toNat < dmemEnd s.params) :
    hostRead a 32 s =
      if s.statusBusy then .next (respond (Config.busDraw s.draws) false { s with draws := s.draws + 1 })
      else
        match readWord s.mem a.toNat with
        | some w => .next (respond w false s)
        | none => .fault .uninitRead := by
  unfold hostRead
  rw [if_neg (not_not.2 ((accessLegal_iff a 32).2 ⟨rfl, h4⟩)), if_neg (by omega), if_pos hhi]
  try rfl

/-- A write below the DMEM window (R212). -/
theorem hostWrite_register {s : State} {a v : Word} (h4 : a.toNat % 4 = 0) (h : a.toNat < dmemBase) :
    hostWrite a 32 v s = respond 0 false (refreshIrq (regWrite a.toNat v s)) := by
  unfold hostWrite
  rw [if_neg (not_not.2 ((accessLegal_iff a 32).2 ⟨rfl, h4⟩)), if_pos h]

/-- A write of a DMEM word (R212). -/
theorem hostWrite_dmem {s : State} {a v : Word} (h4 : a.toNat % 4 = 0) (hlo : dmemBase ≤ a.toNat)
    (hhi : a.toNat < dmemEnd s.params) :
    hostWrite a 32 v s =
      respond 0 false (refreshIrq
        (if s.statusBusy then dropWrite s else setMem (writeWord s.mem a.toNat v) s)) := by
  unfold hostWrite
  rw [if_neg (not_not.2 ((accessLegal_iff a 32).2 ⟨rfl, h4⟩)), if_neg (by omega), if_pos hhi]
  rfl

/-- `irq` recomputed where it already follows (R47) changes nothing. -/
theorem refreshIrq_of_level {s : State} (h : s.irq = (s.ctrlIe && s.statusDone)) : refreshIrq s = s := by
  cases s
  simp only [refreshIrq] at h ⊢
  rw [← h]

/-- Every outcome of a host read (R72, R211): a state that differs in the model's own fields alone, or the fault. -/
theorem hostRead_cases (a : Word) (size : Nat) (s : State) :
    hostRead a size s = .fault .uninitRead ∨
    ∃ x e n, hostRead a size s =
      .next { s with draws := n, responses := { data := x, error := e } :: s.responses } := by
  unfold hostRead
  split_ifs
  · exact Or.inr ⟨_, _, s.draws, rfl⟩
  · exact Or.inr ⟨_, _, s.draws + 1, rfl⟩
  · split
    · exact Or.inr ⟨_, _, s.draws, rfl⟩
    · exact Or.inl rfl
  · exact Or.inr ⟨_, _, s.draws, rfl⟩
  · exact Or.inr ⟨_, _, s.draws, rfl⟩

/-- Everything a legal host write can do before `irq` follows (R212). -/
inductive WriteOutcome (v : Word) (s : State) : State → Prop
  | unchanged : WriteOutcome v s s
  | ctrl : WriteOutcome v s (ctrlWrite v s)
  | status : WriteOutcome v s (statusWrite v s)
  | dropped (hb : s.statusBusy = true) : WriteOutcome v s (dropWrite s)
  | issued (hb : s.statusBusy = false) : WriteOutcome v s (issueCommand v s)
  | argument (hb : s.statusBusy = false) (src dst len aux wlen : Word) :
      WriteOutcome v s { s with aSrc := src, aDst := dst, aLen := len, aAux := aux, aWlen := wlen }
  | dmem (hb : s.statusBusy = false) (a : Nat) (h4 : a % 4 = 0) (hlo : dmemBase ≤ a) (hhi : a + 4 ≤ dmemEnd s.params) :
      WriteOutcome v s (setMem (writeWord s.mem a v) s)

theorem regWrite_outcome (a : Nat) (v : Word) (s : State) : WriteOutcome v s (regWrite a v s) := by
  have arg : ∀ src dst len aux wlen : Word, WriteOutcome v s
      (if s.statusBusy then dropWrite s
        else { s with aSrc := src, aDst := dst, aLen := len, aAux := aux, aWlen := wlen }) := by
    intro src dst len aux wlen
    split
    · rename_i hb; exact .dropped hb
    · rename_i hb; exact .argument (by simpa using hb) src dst len aux wlen
  unfold regWrite
  by_cases h1 : a = 0x004
  · rw [if_pos h1]; exact .ctrl
  rw [if_neg h1]
  by_cases h2 : a = 0x008
  · rw [if_pos h2]; exact .status
  rw [if_neg h2]
  by_cases h3 : a = 0x00C
  · rw [if_pos h3, cmdWrite]
    split
    · rename_i hb; exact .dropped hb
    · rename_i hb; exact .issued (by simpa using hb)
  rw [if_neg h3]
  by_cases h4 : a = 0x010
  · rw [if_pos h4]; exact arg v s.aDst s.aLen s.aAux s.aWlen
  rw [if_neg h4]
  by_cases h5 : a = 0x014
  · rw [if_pos h5]; exact arg s.aSrc v s.aLen s.aAux s.aWlen
  rw [if_neg h5]
  by_cases h6 : a = 0x018
  · rw [if_pos h6]; exact arg s.aSrc s.aDst v s.aAux s.aWlen
  rw [if_neg h6]
  by_cases h7 : a = 0x01C
  · rw [if_pos h7]; exact arg s.aSrc s.aDst s.aLen v s.aWlen
  rw [if_neg h7]
  by_cases h8 : a = 0x020
  · rw [if_pos h8]; exact arg s.aSrc s.aDst s.aLen s.aAux v
  rw [if_neg h8]
  exact .unchanged

/-- The window ends at a multiple of 4. -/
theorem dmemEnd_mod4 (p : Params) : dmemEnd p % 4 = 0 := elemAddr_mod4 p.fmt p.dmemWords

/-- Everything a host write can do (R212): a bus error, or one of the above with `irq` following. -/
theorem hostWrite_outcome (a : Word) (size : Nat) (v : Word) (s : State) :
    hostWrite a size v s = respond 0 true s ∨
    ∃ t, WriteOutcome v s t ∧ hostWrite a size v s = respond 0 false (refreshIrq t) := by
  by_cases hl : accessLegal a size = true
  · obtain ⟨rfl, h4⟩ := (accessLegal_iff a size).1 hl
    by_cases hlo : a.toNat < dmemBase
    · exact .inr ⟨_, regWrite_outcome a.toNat v s, hostWrite_register h4 hlo⟩
    · by_cases hhi : a.toNat < dmemEnd s.params
      · refine .inr ⟨_, ?_, hostWrite_dmem h4 (by omega) hhi⟩
        have := dmemEnd_mod4 s.params
        split
        · rename_i hb; exact .dropped hb
        · rename_i hb; exact .dmem (by simpa using hb) a.toNat h4 (by omega) (by omega)
      · exact .inl (hostWrite_busError (.inr (.inr (by omega))))
  · refine .inl (hostWrite_busError ?_)
    rw [accessLegal_iff] at hl
    by_cases hs : size = 32
    · exact .inr (.inl fun h => hl ⟨hs, h⟩)
    · exact .inl hs

/-- A run of one step and more. -/
theorem run_step {s t : State} (h : step s = .next t) (k : Nat) :
    Sys2Proof.core.run (k + 1) s = Sys2Proof.core.run k t := by
  have e : Sys2Proof.core.step s = .next t := h
  simp only [Host.Core.run, e]

/-- A run of no step. -/
theorem run_zero (s : State) : Sys2Proof.core.run 0 s = .next s := rfl

/-- `CTRL` as a number (R25). -/
theorem ctrlWord_toNat (s : State) : (ctrlWord s).toNat = s.ctrlIe.toNat := by
  cases h : s.ctrlIe <;> simp [ctrlWord, h]

/-- `STATUS` as a number (R26). -/
theorem statusWord_toNat (s : State) :
    (statusWord s).toNat =
      s.statusBusy.toNat + 2 * s.statusDone.toNat + 4 * s.statusHaz.toNat + 16 * s.statusErr.code.toNat := by
  cases h1 : s.statusBusy <;> cases h2 : s.statusDone <;> cases h3 : s.statusHaz <;> cases h4 : s.statusErr <;>
    simp [statusWord, h1, h2, h3, h4, ErrCode.code]

/-- A bit of a word as a number. -/
theorem word_bit (v : Word) (k : Nat) : v.getLsbD k = decide (v.toNat / 2 ^ k % 2 = 1) := by
  rw [BitVec.getLsbD, Nat.testBit_eq_decide_div_mod_eq]

/-- A bit of the number a list of bits stands for. -/
theorem natOfBits_testBit (bs : List Bool) (i : Nat) : (natOfBits bs).testBit i = bs.getD i false := by
  induction bs generalizing i with
  | nil => simp [natOfBits]
  | cons b bs ih =>
    cases i with
    | zero => cases b <;> simp [natOfBits, Nat.testBit_zero, Nat.add_mod]
    | succ i =>
      rw [Nat.testBit_succ]
      have : (natOfBits (b :: bs)) / 2 = natOfBits bs := by
        cases b
        · simp [natOfBits]
        · simp [natOfBits]
          omega
      rw [this, ih]
      simp

/-- The bits of `CTXV` (R38). -/
theorem ctxvWord_bit (s : State) (k : Nat) (hk : k < 16) :
    (ctxvWord s).getLsbD k = dirValidBit s k ∧ (ctxvWord s).getLsbD (16 + k) = olaValidBit s k := by
  have h1 : k < 32 := by omega
  have h2 : 16 + k < 32 := by omega
  constructor
  · simp only [ctxvWord, BitVec.getLsbD_ofNat, h1, decide_true, Bool.true_and, natOfBits_testBit]
    rw [List.getD_append _ _ _ _ (by simpa using hk)]
    simp [List.getD_eq_getElem?_getD, hk]
  · simp only [ctxvWord, BitVec.getLsbD_ofNat, h2, decide_true, Bool.true_and, natOfBits_testBit]
    rw [List.getD_append_right _ _ _ _ (by simp)]
    simp [List.getD_eq_getElem?_getD, hk]

end Sys2Proof.Machine
end

