-- ==== Sys2Proof/Laws/Rounding.lean ====
section
/-! SUPPORT. Rounding (R9, D3): the sizes the patterns of a format stand for, the multiple nearest to a quotient, and which
multiple `roundMag` picks. -/

namespace Sys2Proof.Machine

/-- The number of patterns in a binade: `2 ^ (prec - 1)`. -/
theorem binade_pos (f : Fmt) : 0 < 2 ^ (f.prec - 1) := Nat.two_pow_pos _

theorem two_binade (f : Fmt) : 2 ^ f.prec = 2 * 2 ^ (f.prec - 1) := by cases f <;> rfl

theorem binade_even (f : Fmt) : 2 ^ (f.prec - 1) % 2 = 0 := by cases f <;> rfl

/-- The size of pattern `e * 2 ^ (prec - 1) + r`. -/
theorem magOfBits_binade (f : Fmt) (e : Nat) {r : Nat} (hr : r < 2 ^ (f.prec - 1)) :
    magOfBits f (e * 2 ^ (f.prec - 1) + r) = if e = 0 then r else (2 ^ (f.prec - 1) + r) * 2 ^ (e - 1) := by
  have h1 : (e * 2 ^ (f.prec - 1) + r) / 2 ^ (f.prec - 1) = e := by
    rw [Nat.mul_comm, Nat.mul_add_div (binade_pos f), Nat.div_eq_of_lt hr, Nat.add_zero]
  have h2 : (e * 2 ^ (f.prec - 1) + r) % 2 ^ (f.prec - 1) = r := by
    rw [Nat.mul_comm, Nat.mul_add_mod, Nat.mod_eq_of_lt hr]
  simp only [magOfBits, h1, h2]

/-- A significand of `prec` bits scaled by `2 ^ k`, as a pattern (R9). -/
theorem magOfBits_scaled (f : Fmt) (k : Nat) {q : Nat} (hlo : k = 0 ∨ 2 ^ (f.prec - 1) ≤ q)
    (hhi : q ≤ 2 * 2 ^ (f.prec - 1)) : magOfBits f (k * 2 ^ (f.prec - 1) + q) = q * 2 ^ k := by
  have hp := binade_pos f
  by_cases h1 : q < 2 ^ (f.prec - 1)
  · obtain rfl : k = 0 := by omega
    rw [magOfBits_binade f 0 h1]
    simp
  · by_cases h2 : q < 2 * 2 ^ (f.prec - 1)
    · have e : k * 2 ^ (f.prec - 1) + q = (k + 1) * 2 ^ (f.prec - 1) + (q - 2 ^ (f.prec - 1)) := by
        rw [Nat.add_mul, Nat.one_mul]; omega
      rw [e, magOfBits_binade f _ (by omega), if_neg (by omega), Nat.add_sub_cancel]
      congr 1
      omega
    · have hq : q = 2 * 2 ^ (f.prec - 1) := by omega
      have e : k * 2 ^ (f.prec - 1) + q = (k + 2) * 2 ^ (f.prec - 1) + 0 := by
        rw [Nat.add_mul, hq]; rfl
      rw [e, magOfBits_binade f _ hp, if_neg (by omega), hq, Nat.add_zero]
      have : k + 2 - 1 = k + 1 := by omega
      rw [this, Nat.pow_succ]
      ring

/-- Larger patterns stand for larger sizes. -/
theorem magOfBits_strictMono (f : Fmt) : StrictMono (magOfBits f) := by
  refine strictMono_nat_of_lt_succ fun a => ?_
  have hp := binade_pos f
  have hd := Nat.div_add_mod a (2 ^ (f.prec - 1))
  have hr := Nat.mod_lt a hp
  rw [Nat.mul_comm] at hd
  generalize a / 2 ^ (f.prec - 1) = e at hd
  generalize a % 2 ^ (f.prec - 1) = r at hd hr
  subst hd
  rw [magOfBits_binade f e hr]
  by_cases h : r + 1 < 2 ^ (f.prec - 1)
  · rw [Nat.add_assoc, magOfBits_binade f e h]
    split
    · omega
    · exact Nat.mul_lt_mul_of_pos_right (by omega) (Nat.two_pow_pos _)
  · have he : e * 2 ^ (f.prec - 1) + r + 1 = (e + 1) * 2 ^ (f.prec - 1) + 0 := by
      rw [Nat.add_mul, Nat.one_mul]; omega
    rw [he, magOfBits_binade f _ hp, if_neg (Nat.succ_ne_zero e), Nat.add_zero, Nat.add_sub_cancel]
    split
    · rename_i h0
      subst h0
      simpa using hr
    · rename_i h0
      obtain ⟨j, rfl⟩ := Nat.exists_eq_succ_of_ne_zero h0
      rw [Nat.succ_sub_one, Nat.succ_eq_add_one, Nat.pow_succ, ← Nat.mul_assoc,
        Nat.mul_assoc (2 ^ (f.prec - 1)), Nat.mul_comm (2 ^ j) 2, ← Nat.mul_assoc]
      exact Nat.mul_lt_mul_of_pos_right (by omega) (Nat.two_pow_pos _)

theorem magOfBits_injective (f : Fmt) : Function.Injective (magOfBits f) := (magOfBits_strictMono f).injective

/-- A pattern at or above binade `k + 1` stands for a multiple of `2 ^ k`. -/
theorem magOfBits_multiple (f : Fmt) (k a : Nat) (h : k = 0 ∨ (k + 1) * 2 ^ (f.prec - 1) ≤ a) :
    ∃ j, magOfBits f a = j * 2 ^ k := by
  by_cases hk : k = 0
  · subst hk; exact ⟨magOfBits f a, by simp⟩
  · have ha := h.resolve_left hk
    have hp := binade_pos f
    have he : k + 1 ≤ a / 2 ^ (f.prec - 1) := (Nat.le_div_iff_mul_le hp).2 ha
    have hd := Nat.div_add_mod a (2 ^ (f.prec - 1))
    rw [Nat.mul_comm] at hd
    rw [← hd, magOfBits_binade f _ (Nat.mod_lt _ hp), if_neg (by omega)]
    obtain ⟨i, hi⟩ := Nat.exists_eq_add_of_le he
    refine ⟨(2 ^ (f.prec - 1) + a % 2 ^ (f.prec - 1)) * 2 ^ i, ?_⟩
    have : a / 2 ^ (f.prec - 1) - 1 = i + k := by omega
    rw [this, Nat.pow_add, Nat.mul_assoc]

/-- `roundEven` in one form: the quotient or the next number, by the remainder. -/
theorem roundEven_eq (n d : Nat) :
    (roundEven n d = n / d ∧ 2 * (n % d) ≤ d ∧ (2 * (n % d) = d → n / d % 2 = 0)) ∨
    (roundEven n d = n / d + 1 ∧ d ≤ 2 * (n % d) ∧ (2 * (n % d) = d → (n / d + 1) % 2 = 0)) := by
  unfold roundEven
  simp only
  split_ifs with h1 h2
  · exact .inl ⟨rfl, by omega, by omega⟩
  · exact .inr ⟨rfl, by omega, by omega⟩
  · rcases Nat.mod_two_eq_zero_or_one (n / d) with h | h
    · exact .inl ⟨by omega, by omega, fun _ => h⟩
    · exact .inr ⟨by omega, by omega, fun _ => by omega⟩

/-- `roundEven` is the nearest whole number, the even one where two are equally near (R9). -/
theorem roundEven_nearest (n : Nat) {d : Nat} (hd : 0 < d) (j : Nat) :
    ((roundEven n d * d : Int) - n).natAbs ≤ ((j * d : Int) - n).natAbs ∧
    (((roundEven n d * d : Int) - n).natAbs = ((j * d : Int) - n).natAbs → j ≠ roundEven n d →
      roundEven n d % 2 = 0) := by
  have hdm := Nat.div_add_mod n d
  have hr := Nat.mod_lt n hd
  have h := roundEven_eq n d
  generalize roundEven n d = q at h ⊢
  generalize n % d = r at hdm hr h
  generalize n / d = z at hdm h
  have hz : (d * z : Int) + r = n := by exact_mod_cast hdm
  -- distances of `z`, `z + 1` and any other number
  have hj : j ≤ z ∨ z + 1 ≤ j := by omega
  have e1 : ((z * d : Int) - n) = -(r : Int) := by rw [← hz]; ring
  have e2 : (((z + 1 : Nat) * d : Int) - n) = (d : Int) - r := by rw [← hz]; push_cast; ring
  have lo : j ≤ z → (j * d : Int) - n ≤ -(r : Int) ∧ (j ≠ z → (j * d : Int) - n ≤ -(r : Int) - d) := by
    intro hle
    constructor
    · rw [← e1]
      have : (j * d : Int) ≤ z * d := by exact_mod_cast Nat.mul_le_mul_right d hle
      omega
    · intro hne
      have : ((j + 1 : Nat) * d : Int) ≤ z * d := by exact_mod_cast Nat.mul_le_mul_right d (by omega : j + 1 ≤ z)
      push_cast at this
      rw [add_mul, one_mul] at this
      omega
  have hi : z + 1 ≤ j → (d : Int) - r ≤ (j * d : Int) - n ∧ (j ≠ z + 1 → (d : Int) - r + d ≤ (j * d : Int) - n) := by
    intro hle
    constructor
    · rw [← e2]
      have : (((z + 1 : Nat) * d : Nat) : Int) ≤ ((j * d : Nat) : Int) := by exact_mod_cast Nat.mul_le_mul_right d hle
      push_cast at this ⊢
      omega
    · intro hne
      have : (((z + 2 : Nat) * d : Nat) : Int) ≤ ((j * d : Nat) : Int) := by
        exact_mod_cast Nat.mul_le_mul_right d (by omega : z + 2 ≤ j)
      push_cast at this e2
      have e3 : ((z : Int) + 2) * d = (z + 1) * d + d := by ring
      omega
  rcases h with ⟨rfl, h1, h2⟩ | ⟨rfl, h1, h2⟩
  · rw [e1]
    rcases hj with hj | hj
    · have := (lo hj).1
      refine ⟨by omega, fun he hne => ?_⟩
      have := (lo hj).2 hne
      omega
    · have := (hi hj).1
      exact ⟨by omega, fun he _ => h2 (by omega)⟩
  · rw [e2]
    rcases hj with hj | hj
    · have := (lo hj).1
      exact ⟨by omega, fun he _ => h2 (by omega)⟩
    · have := (hi hj).1
      refine ⟨by omega, fun he hne => ?_⟩
      have := (hi hj).2 hne
      omega

/-- A multiple rounds to itself. -/
theorem roundEven_multiple (q : Nat) {d : Nat} (hd : 0 < d) : roundEven (q * d) d = q := by
  unfold roundEven
  simp only [Nat.mul_mod_left, Nat.mul_div_cancel _ hd]
  rw [if_pos (by omega)]

/-- The binade and significand `roundMag` works in, before it is held below infinity. -/
theorem roundMag_spec (f : Fmt) (n : Nat) {d : Nat} (hd : 0 < d) :
    ∃ k q, roundMag f n d = min (k * 2 ^ (f.prec - 1) + q) f.infBits ∧ q = roundEven n (d * 2 ^ k) ∧
      (k = 0 ∨ (2 ^ (f.prec - 1) * (d * 2 ^ k) ≤ n ∧ 2 ^ (f.prec - 1) ≤ q)) ∧
      n < 2 * 2 ^ (f.prec - 1) * (d * 2 ^ k) ∧ q ≤ 2 * 2 ^ (f.prec - 1) := by
  have hp : 1 ≤ f.prec := by cases f <;> decide
  have h2p := two_binade f
  refine ⟨(n / d).log2 + 1 - f.prec, _, rfl, rfl, ?_⟩
  generalize hk : (n / d).log2 + 1 - f.prec = k
  have hD : 0 < d * 2 ^ k := Nat.mul_pos hd (Nat.two_pow_pos _)
  have hhi : n < 2 * 2 ^ (f.prec - 1) * (d * 2 ^ k) := by
    have h1 : n / d < 2 ^ ((n / d).log2 + 1) := Nat.lt_log2_self
    have h2 : 2 ^ ((n / d).log2 + 1) ≤ 2 ^ (f.prec + k) := Nat.pow_le_pow_right (by omega) (by omega)
    have h3 : n < 2 ^ (f.prec + k) * d := (Nat.div_lt_iff_lt_mul hd).1 (by omega)
    rw [Nat.pow_add, h2p] at h3
    calc n < _ := h3
      _ = _ := by ring
  have hlo : k = 0 ∨ 2 ^ (f.prec - 1) * (d * 2 ^ k) ≤ n := by
    by_cases h0 : k = 0
    · exact .inl h0
    · right
      have hne : n / d ≠ 0 := by
        intro he
        rw [he, Nat.log2_zero] at hk
        omega
      have h1 := Nat.log2_self_le hne
      have h2 : (n / d).log2 = f.prec - 1 + k := by omega
      rw [h2, Nat.pow_add] at h1
      have h3 := (Nat.le_div_iff_mul_le hd).1 h1
      calc _ = _ := by ring
        _ ≤ n := h3
  have near := roundEven_nearest n hD
  refine ⟨?_, hhi, ?_⟩
  · rcases hlo with h | h
    · exact .inl h
    · refine .inr ⟨h, ?_⟩
      rcases roundEven_eq n (d * 2 ^ k) with ⟨e, _⟩ | ⟨e, _⟩ <;> rw [e]
      · exact (Nat.le_div_iff_mul_le hD).2 h
      · exact Nat.le_succ_of_le ((Nat.le_div_iff_mul_le hD).2 h)
  · have : n / (d * 2 ^ k) < 2 * 2 ^ (f.prec - 1) := (Nat.div_lt_iff_lt_mul hD).2 hhi
    rcases roundEven_eq n (d * 2 ^ k) with ⟨e, _⟩ | ⟨e, _⟩ <;> omega

/-- A size some pattern stands for rounds to that pattern: what is exact is not changed (R9). -/
theorem roundMag_exact (f : Fmt) {a d : Nat} (hd : 0 < d) (ha : a ≤ f.infBits) :
    roundMag f (magOfBits f a * d) d = a := by
  have hp := binade_pos f
  have hprec : 1 ≤ f.prec := by cases f <;> decide
  have hsum := Nat.div_add_mod a (2 ^ (f.prec - 1))
  have hr := Nat.mod_lt a hp
  rw [Nat.mul_comm] at hsum
  generalize a / 2 ^ (f.prec - 1) = e at hsum
  generalize a % 2 ^ (f.prec - 1) = r at hsum hr
  have hk : ∃ k q, a = k * 2 ^ (f.prec - 1) + q ∧ (k = 0 ∨ 2 ^ (f.prec - 1) ≤ q) ∧ q < 2 * 2 ^ (f.prec - 1) := by
    by_cases he : e = 0
    · subst he
      exact ⟨0, r, by omega, .inl rfl, by omega⟩
    · obtain ⟨j, rfl⟩ := Nat.exists_eq_succ_of_ne_zero he
      refine ⟨j, 2 ^ (f.prec - 1) + r, ?_, .inr (by omega), by omega⟩
      rw [← hsum, Nat.succ_eq_add_one, Nat.add_mul, Nat.one_mul, Nat.add_assoc]
  obtain ⟨k, q, rfl, hlo, hhi⟩ := hk
  rw [magOfBits_scaled f k hlo (le_of_lt hhi)]
  have h2p := two_binade f
  have hlog : (q * 2 ^ k).log2 + 1 - f.prec = k := by
    rcases hlo with h | h
    · subst h
      rw [Nat.pow_zero, Nat.mul_one]
      have : q.log2 < f.prec := by
        by_cases h0 : q = 0
        · subst h0; rw [Nat.log2_zero]; omega
        · exact (Nat.log2_lt h0).2 (by omega)
      omega
    · have hne : q * 2 ^ k ≠ 0 := Nat.mul_ne_zero (by omega) (Nat.two_pow_pos k).ne'
      have h1 : (q * 2 ^ k).log2 < f.prec + k := by
        rw [Nat.log2_lt hne, Nat.pow_add]
        exact Nat.mul_lt_mul_of_pos_right (by omega) (Nat.two_pow_pos k)
      have h2 : f.prec - 1 + k ≤ (q * 2 ^ k).log2 := by
        rw [Nat.le_log2 hne, Nat.pow_add]
        exact Nat.mul_le_mul_right _ h
      omega
  unfold roundMag
  simp only [Nat.mul_div_cancel _ hd, hlog]
  have e : q * 2 ^ k * d = q * (d * 2 ^ k) := by ring
  rw [e, roundEven_multiple q (Nat.mul_pos hd (Nat.two_pow_pos k))]
  exact Nat.min_eq_left ha

end Sys2Proof.Machine
end

