-- ==== Sys2Proof/Laws/Script.lean ====
section
/-! SUPPORT. What the reader of a script's lines answers (R105). -/

namespace Sys2Proof.Machine

/-- Text no part of which is a sign of the syntax: no comma, no comment sign, no blank; and there is some. -/
def PlainText (t : List Char) : Prop := t ≠ [] ∧ ∀ c ∈ t, c ≠ ',' ∧ c ≠ ';' ∧ isBlank c = false

theorem digitValue_lt_plain {c : Char} (h : digitValue c < 16) : c ≠ ',' ∧ c ≠ ';' ∧ isBlank c = false := by
  refine ⟨?_, ?_, ?_⟩
  · rintro rfl; exact absurd h (by decide)
  · rintro rfl; exact absurd h (by decide)
  · rw [isBlank, Bool.or_eq_false_iff, decide_eq_false_iff_not, decide_eq_false_iff_not]
    exact ⟨by rintro rfl; exact absurd h (by decide), by rintro rfl; exact absurd h (by decide)⟩

theorem parseDigits_plain {base : Nat} (hb : base ≤ 16) {t : List Char} {n : Nat} (h : parseDigits base t = some n) :
    PlainText t := by
  unfold parseDigits at h
  split_ifs at h with hc
  simp only [Bool.or_eq_true, List.isEmpty_iff, Bool.not_eq_true', not_or, Bool.not_eq_false] at hc
  refine ⟨hc.1, fun c hm => digitValue_lt_plain ?_⟩
  have := of_decide_eq_true (List.all_eq_true.1 hc.2 c hm)
  omega

/-- A number's text (R105). -/
theorem parseNat_plain {t : List Char} {n : Nat} (h : parseNat t = some n) : PlainText t := by
  unfold parseNat at h
  split at h
  · rename_i hex
    obtain ⟨-, h2⟩ := parseDigits_plain (by decide) h
    refine ⟨by simp, fun c hm => ?_⟩
    rcases List.mem_cons.1 hm with rfl | hm
    · decide
    rcases List.mem_cons.1 hm with rfl | hm
    · decide
    exact h2 c hm
  · exact parseDigits_plain (by decide) h

theorem parseWord_plain {t : List Char} {w : Word} (h : parseWord t = some w) : PlainText t := by
  unfold parseWord at h
  cases hn : parseNat t with
  | none => rw [hn] at h; cases h
  | some n => exact parseNat_plain hn

/-- Text with no blank at either end. -/
structure Trimmed (t : List Char) : Prop where
  first : ∃ c u, t = c :: u ∧ isBlank c = false
  last : ∃ c u, t = u ++ [c] ∧ isBlank c = false

theorem PlainText.trimmed {t : List Char} (h : PlainText t) : Trimmed t := by
  constructor
  · cases t with
    | nil => exact absurd rfl h.1
    | cons c u => exact ⟨c, u, rfl, (h.2 c List.mem_cons_self).2.2⟩
  · exact ⟨t.getLast h.1, t.dropLast, (List.dropLast_append_getLast h.1).symm, (h.2 _ (List.getLast_mem h.1)).2.2⟩

/-- Text that starts as one trimmed text and ends as another is trimmed. -/
theorem Trimmed.append {t v : List Char} (ht : Trimmed t) (hv : Trimmed v) (u : List Char) : Trimmed (t ++ u ++ v) := by
  obtain ⟨c, w, rfl, hc⟩ := ht.first
  obtain ⟨d, x, rfl, hd⟩ := hv.last
  exact ⟨⟨c, w ++ u ++ (x ++ [d]), by simp, hc⟩, ⟨d, c :: w ++ u ++ x, by simp, hd⟩⟩

/-- Trimmed text stands as it is between blanks. -/
theorem trimChars_trimmed {t : List Char} (h : Trimmed t) (before after : List Char)
    (hb : before.all isBlank = true) (ha : after.all isBlank = true) : trimChars (before ++ t ++ after) = t := by
  have drop : ∀ (b u : List Char), b.all isBlank = true → (b ++ u).dropWhile isBlank = u.dropWhile isBlank :=
    fun b u h => List.dropWhile_append_of_pos (List.all_eq_true.1 h)
  obtain ⟨c, u, hc, hcb⟩ := h.first
  obtain ⟨d, v, hd, hdb⟩ := h.last
  have h1 : (t ++ after).dropWhile isBlank = t ++ after := by rw [hc]; simp [hcb]
  have h2 : t.reverse.dropWhile isBlank = t.reverse := by rw [hd]; simp [hdb]
  unfold trimChars
  rw [List.append_assoc, drop _ _ hb, h1, List.reverse_append, drop _ _ (by simpa using ha), h2, List.reverse_reverse]

theorem splitChars_plain (sep : Char) (t rest : List Char) (h : ∀ c ∈ t, c ≠ sep) :
    splitChars sep (t ++ sep :: rest) = t :: splitChars sep rest := by
  induction t with
  | nil => simp [splitChars]
  | cons c t ih =>
    rw [List.cons_append, splitChars, if_neg (h c List.mem_cons_self), ih fun c hc => h c (List.mem_cons_of_mem _ hc)]

theorem splitChars_last (sep : Char) (t : List Char) (h : ∀ c ∈ t, c ≠ sep) : splitChars sep t = [t] := by
  induction t with
  | nil => rfl
  | cons c t ih => rw [splitChars, if_neg (h c List.mem_cons_self), ih fun c hc => h c (List.mem_cons_of_mem _ hc)]

/-- Operands set apart by commas and a blank are read one by one. -/
theorem splitOperands {ts : List (List Char)} (hne : ts ≠ []) (h : ∀ t ∈ ts, PlainText t) :
    (splitChars ',' ([',', ' '].intercalate ts)).map trimChars = ts := by
  have main : ∀ (ts : List (List Char)) (b : List Char), ts ≠ [] → (∀ t ∈ ts, PlainText t) → b.all isBlank = true →
      (splitChars ',' (b ++ [',', ' '].intercalate ts)).map trimChars = ts := by
    intro ts
    induction ts with
    | nil => intro b h; exact absurd rfl h
    | cons t ts ih =>
      intro b _ h hb
      have ht := h t List.mem_cons_self
      have hsep : ∀ c ∈ b ++ t, c ≠ ',' := by
        intro c hc
        rcases List.mem_append.1 hc with hc | hc
        · rintro rfl; exact absurd (List.all_eq_true.1 hb _ hc) (by decide)
        · exact (ht.2 c hc).1
      have htrim := trimChars_trimmed ht.trimmed b [] hb rfl
      rw [List.append_nil] at htrim
      cases ts with
      | nil => simp [splitChars_last _ _ hsep, htrim]
      | cons t' ts =>
        have e : b ++ [',', ' '].intercalate (t :: t' :: ts) =
            (b ++ t) ++ ',' :: ([' '] ++ [',', ' '].intercalate (t' :: ts)) := by
          simp [List.intercalate, List.intersperse]
        rw [e, splitChars_plain _ _ _ hsep, List.map_cons, htrim,
          ih [' '] (by simp) (fun t hm => h t (List.mem_cons_of_mem _ hm)) (by decide)]
  simpa using main ts [] hne h rfl

theorem operands_trimmed {ts : List (List Char)} (hne : ts ≠ []) (h : ∀ t ∈ ts, PlainText t) :
    Trimmed ([',', ' '].intercalate ts) := by
  induction ts with
  | nil => exact absurd rfl hne
  | cons t ts ih =>
    have ht := (h t List.mem_cons_self).trimmed
    cases ts with
    | nil => simpa using ht
    | cons t' ts =>
      have e : [',', ' '].intercalate (t :: t' :: ts) = t ++ [',', ' '] ++ [',', ' '].intercalate (t' :: ts) := by
        simp [List.intercalate, List.intersperse]
      rw [e]
      exact ht.append (ih (by simp) fun t hm => h t (List.mem_cons_of_mem _ hm)) _

theorem operands_noComment {ts : List (List Char)} (h : ∀ t ∈ ts, PlainText t) :
    ∀ c ∈ [',', ' '].intercalate ts, c ≠ ';' := by
  induction ts with
  | nil => simp
  | cons t ts ih =>
    have ht := h t List.mem_cons_self
    cases ts with
    | nil => intro c hc; exact (ht.2 c (by simpa using hc)).2.1
    | cons t' ts =>
      have e : [',', ' '].intercalate (t :: t' :: ts) = t ++ ([',', ' '] ++ [',', ' '].intercalate (t' :: ts)) := by
        simp [List.intercalate, List.intersperse]
      intro c hc
      rw [e] at hc
      rcases List.mem_append.1 hc with hc | hc
      · exact (ht.2 c hc).2.1
      rcases List.mem_append.1 hc with hc | hc
      · rintro rfl; exact absurd hc (by decide)
      · exact ih (fun t hm => h t (List.mem_cons_of_mem _ hm)) c hc

theorem stripComment_eq {text comment : List Char} (h : ∀ c ∈ text, c ≠ ';')
    (hc : comment = [] ∨ comment.head? = some ';') : stripComment (text ++ comment) = text := by
  have e : comment.takeWhile (fun c => decide (c ≠ ';')) = [] := by
    rcases hc with rfl | hc
    · rfl
    · cases comment with
      | nil => rfl
      | cons c u => simp only [List.head?_cons, Option.some.injEq] at hc; simp [hc]
  unfold stripComment
  rw [List.takeWhile_append_of_pos (fun c hm => decide_eq_true (h c hm)), e, List.append_nil]

/-- A line that is a name, operands set apart by commas, and perhaps a comment (R105). -/
theorem parseLine_operands {name : List Char} (hn : PlainText name) {ts : List (List Char)}
    (h : ∀ t ∈ ts, PlainText t) {comment : List Char} (hc : comment = [] ∨ comment.head? = some ';') :
    let line := parseLine (name ++ ' ' :: [',', ' '].intercalate ts ++ ' ' :: comment)
    (∀ o, parseHostOp (String.ofList name) ts = some o → line = some (.op o)) ∧
      (parseHostOp (String.ofList name) ts = none →
        line = ((ts.mapM parseWord).bind (parsePseudo (String.ofList name))).map Line.command) := by
  have hstrip : stripComment (name ++ ' ' :: [',', ' '].intercalate ts ++ ' ' :: comment) =
      name ++ ' ' :: [',', ' '].intercalate ts ++ [' '] := by
    have := stripComment_eq (text := name ++ ' ' :: [',', ' '].intercalate ts ++ [' ']) (comment := comment) (by
      intro c hm
      rcases List.mem_append.1 hm with hm | hm
      · rcases List.mem_append.1 hm with hm | hm
        · exact (hn.2 c hm).2.1
        · rcases List.mem_cons.1 hm with rfl | hm
          · decide
          · exact operands_noComment h c hm
      · rw [List.mem_singleton] at hm; subst hm; decide) hc
    simpa using this
  have hname : ∀ u, (name ++ ' ' :: u).takeWhile (fun c => !isBlank c) = name := by
    intro u
    rw [List.takeWhile_append_of_pos (fun c hm => by simp [(hn.2 c hm).2.2])]
    simp [isBlank]
  have hname' : name.takeWhile (fun c => !isBlank c) = name :=
    List.takeWhile_eq_self_iff.2 fun c hm => by simp [(hn.2 c hm).2.2]
  have hne : name.isEmpty = false := by simpa using hn.1
  unfold parseLine
  dsimp only
  by_cases hts : ts = []
  · subst hts
    have ht := trimChars_trimmed hn.trimmed [] [' ', ' '] rfl (by decide)
    have hb : trimChars (stripComment (name ++ ' ' :: [',', ' '].intercalate [] ++ ' ' :: comment)) = name := by
      rw [hstrip]; simpa using ht
    have hr : trimChars ([] : List Char) = [] := rfl
    simp only [hb, hname', List.drop_length, hr, List.isEmpty_nil, hne, if_true, if_false, Bool.false_eq_true]
    exact ⟨fun o ho => by rw [ho], fun ho => by rw [ho]⟩
  · have hops := operands_trimmed hts h
    have hb : trimChars (stripComment (name ++ ' ' :: [',', ' '].intercalate ts ++ ' ' :: comment)) =
        name ++ ' ' :: [',', ' '].intercalate ts := by
      rw [hstrip]
      have := trimChars_trimmed (hn.trimmed.append hops [' ']) [] [' '] rfl (by decide)
      simpa using this
    have hr : trimChars (' ' :: [',', ' '].intercalate ts) = [',', ' '].intercalate ts := by
      have := trimChars_trimmed hops [' '] [] (by decide) rfl
      simpa using this
    have he : ([',', ' '].intercalate ts).isEmpty = false := by
      obtain ⟨c, u, e, -⟩ := hops.first
      rw [e]; rfl
    have he' : (name ++ ' ' :: [',', ' '].intercalate ts).isEmpty = false := by
      cases name <;> rfl
    simp only [hb, hname, List.drop_left, hr, he, he', splitOperands hts h, if_false, Bool.false_eq_true]
    exact ⟨fun o ho => by rw [ho], fun ho => by rw [ho]⟩

end Sys2Proof.Machine
end

