-- ==== Sys2Proof/Tests/Slice0.lean ====
section
/-! SUPPORT. Tests: each expected result is from the spec's encoding (30_encoding.md) or its vectors (95_test_vectors.md),
and a witness for each obligation with hypotheses. -/

namespace Sys2Proof.Tests

set_option Elab.async false

open Sys2Proof.Machine

/-! ### Small states -/

/-- The parameters of program P3 of 95_test_vectors.md, with fewer taps and samples. -/
def par64 : Params :=
  { fmt := .binary64, nctxDir := 2, nctxOla := 1, maxTaps := 4, maxBlock := 8, dmemWords := 16 }

def par32 : Params := { par64 with fmt := .binary32 }

/-- 1.0, 2.0, 3.0, 0.5, 0.25, 0.1, 0.2 and 0.3 in binary64. -/
def v1 : Val := 0x3FF0000000000000
def v2 : Val := 0x4000000000000000
def v3 : Val := 0x4008000000000000
def vHalf : Val := 0x3FE0000000000000
def vQuarter : Val := 0x3FD0000000000000
def v01 : Val := 0x3FB999999999999A
def v02 : Val := 0x3FC999999999999A
def v03 : Val := 0x3FD3333333333333

/-- After reset, with these values at the first elements of DMEM and these argument registers. -/
def small (p : Params) (vals : List Val) (src dst len aux wlen : Word) : State :=
  { State.resetWith p with
    mem := memWrite p.fmt [] 0 vals, aSrc := src, aDst := dst, aLen := len, aAux := aux, aWlen := wlen }

/-- The same with the command word `w` pending. -/
def pending (w : Word) (s : State) : State := issueCommand w s

/-- The same with one action of the environment to come. -/
def facing (a : Action) (s : State) : State := { s with host := [a] }

/-- The next state of a step or a meaning, where there is one. -/
def next? (r : Result) : Option State :=
  match r with
  | .next t => some t
  | .fault _ => none
  | .refused _ => none

/-- The fault of a step, where there is one. -/
def fault? (r : Result) : Option Fault :=
  match r with
  | .next _ => none
  | .fault x => some x
  | .refused _ => none

/-- `STATUS` after a step. -/
def status? (r : Result) : Option Word := (next? r).map statusWord

/-- `n` elements of DMEM after a step. -/
def elems? (e n : Nat) (r : Result) : Option (List Val) := (next? r).bind fun t => memRead t.params.fmt t.mem e n

/-- What the port answered last. -/
def answer? (r : Result) : Option Response := (next? r).bind fun t => t.responses.head?

/-! ### Ill-formed terms are refused -/

theorem test_wf_dirInit : Instr.wellFormed par64 (.dirInit 2) = false := by decide
theorem test_wf_dirApply : Instr.wellFormed par64 (.dirApply 15) = false := by decide
theorem test_wf_dirRel : Instr.wellFormed par64 (.dirRel 2) = false := by decide
theorem test_wf_olaInit : Instr.wellFormed par64 (.olaInit 1) = false := by decide
theorem test_wf_olaApply : Instr.wellFormed par64 (.olaApply 1) = false := by decide
theorem test_wf_olaRel : Instr.wellFormed par64 (.olaRel 15) = false := by decide
theorem test_legal : par64.legal = true ∧ par32.legal = true ∧ Config.resetParams.legal = true := by decide
theorem test_legal_nctxDir : { par64 with nctxDir := 0 }.legal = false ∧ { par64 with nctxDir := 17 }.legal = false := by decide
theorem test_legal_nctxOla : { par64 with nctxOla := 0 }.legal = false ∧ { par64 with nctxOla := 17 }.legal = false := by decide
theorem test_legal_maxTaps : { par64 with maxTaps := 0 }.legal = false := by decide
theorem test_legal_maxBlock :
    { par64 with maxBlock := 12 }.legal = false ∧ { par64 with maxBlock := 1 }.legal = false ∧
      { par64 with maxBlock := 2 ^ 32 }.legal = false := by decide +kernel
theorem test_legal_dmemWords :
    { par64 with dmemWords := 0 }.legal = false ∧ { par64 with dmemWords := 2 ^ 29 }.legal = false := by decide +kernel

/-! ### Words written from the table of R95: reserved, NORM, CTX, OP -/

theorem test_decode_nop : decode 0b0000000000000000000_0_0000_00000000 = some .nop := by decide
theorem test_decode_dsgnLp : decode 0b0000000000000000000_1_0000_00000001 = some (.dsgnLp true) := by decide
theorem test_decode_dsgnHp : decode 0b0000000000000000000_0_0000_00000010 = some (.dsgnHp false) := by decide
theorem test_decode_dsgnBp : decode 0b0000000000000000000_1_0000_00000011 = some (.dsgnBp true) := by decide
theorem test_decode_dsgnBs : decode 0b0000000000000000000_1_0000_00000100 = some (.dsgnBs true) := by decide
theorem test_decode_dirInit : decode 0b0000000000000000000_0_0001_00010000 = some (.dirInit 1) := by decide
theorem test_decode_dirApply : decode 0b0000000000000000000_0_1000_00010001 = some (.dirApply 8) := by decide
theorem test_decode_dirRel : decode 0b0000000000000000000_0_0110_00010010 = some (.dirRel 6) := by decide
theorem test_decode_olaInit : decode 0b0000000000000000000_0_1111_00100000 = some (.olaInit 15) := by decide
theorem test_decode_olaApply : decode 0b0000000000000000000_0_0010_00100001 = some (.olaApply 2) := by decide
theorem test_decode_olaRel : decode 0b0000000000000000000_0_0100_00100010 = some (.olaRel 4) := by decide

/-- The illegal words of vector V1, `NCTX_DIR` = 2 and `NCTX_OLA` = 1. -/
theorem test_decode_illegal :
    [0x100, 0x1000, 0x101, 5, 0x212, 0x1010, 0x121, 0x23, 0x2001, 0x80000011, 0xFF].all
      (fun w => (decodeFor par64 w).isNone) = true := by decide

/-- A row's word through the bytes the host lays out. -/
theorem test_decodeTableWord : decodeTableWord 32 0x1004 = some (.dsgnBs true) := by decide

/-! ### Commands: vectors V4 to V7, one step from the issued word -/

theorem test_nop : status? (step (State.reset.withFetchWord 32 0)) = some 0x02 := by decide +kernel

/-- Vector V4: a lowpass of one tap at 0.25 is 0.5. -/
theorem test_dsgnLp :
    elems? 4 1 (step (pending 0x001 (small par64 [v1, vQuarter] 0 4 1 1 1))) = some [vHalf] := by decide +kernel

/-- S1: a cutoff of exactly 0.5 is INVALID_SPEC. -/
theorem test_dsgnLp_cutoff :
    status? (step (pending 0x001 (small par64 [v1, vHalf] 0 4 1 1 1))) = some 0x22 := by decide +kernel

/-- Vector V4: highpass, window [2.0], cutoff 0.1 gives 1.6. -/
theorem test_dsgnHp :
    elems? 4 1 (step (pending 0x002 (small par64 [v2, v01] 0 4 1 1 1))) = some [0x3FF999999999999A] := by decide +kernel

/-- Vector V4: normalized, the same design gives 1.0. -/
theorem test_dsgnHp_norm :
    elems? 4 1 (step (pending 0x1002 (small par64 [v2, v01] 0 4 1 1 1))) = some [v1] := by decide +kernel

/-- Vector V4: a bandpass of one tap, 0.1 to 0.3, is 0.39999999999999997. -/
theorem test_dsgnBp :
    elems? 4 1 (step (pending 0x003 (small par64 [v1, v01, v03] 0 4 1 1 1))) = some [0x3FD9999999999999] := by
  decide +kernel

/-- S3: equal cutoffs are INVALID_SPEC. -/
theorem test_dsgnBp_order :
    status? (step (pending 0x003 (small par64 [v1, v02, v02] 0 4 1 1 1))) = some 0x22 := by decide +kernel

/-- Vector V4: a bandstop of one tap, 0.1 to 0.3, is 0.6000000000000001. -/
theorem test_dsgnBs :
    elems? 4 1 (step (pending 0x004 (small par64 [v1, v01, v03] 0 4 1 1 1))) = some [0x3FE3333333333334] := by
  decide +kernel

/-- Vector V5: N = 3 and `A_WLEN` = 2 with a range that does not fit is LENGTH_MISMATCH. -/
theorem test_dsgnBs_order : status? (step (pending 0x004 (small par64 [] 0 15 3 0 2))) = some 0x32 := by decide +kernel

/-- A sine for the design of vector V4's first row: its arguments are ±π/2. -/
def sineQuarter (x : Val) : Val := if x = 0x3FF921FB54442D18 then v1 else 0xBFF0000000000000

/-- Vector V4, first row, bit patterns: three taps at 0.25, normalized. -/
theorem test_designTaps :
    designTaps .binary64 sineQuarter (fun _ _ => 0) .lp true 3 [v1, v1, v1] [vQuarter] =
      some [0x3FD1EC550F5B2E78, 0x3FDC2755E149A30F, 0x3FD1EC550F5B2E78] := by decide +kernel

/-- Vector V4: the highpass of three taps at 0.25, normalized by the alternating-sign sum. -/
theorem test_designTaps_hp :
    designTaps .binary64 sineQuarter (fun _ _ => 0) .hp true 3 [v1, v1, v1] [vQuarter] =
      some [0xBFD1EC550F5B2E78, 0x3FDC2755E149A30F, 0xBFD1EC550F5B2E78] := by decide +kernel

/-- A sine for the design of vector V4's bandstop row: its arguments are ±0.2π and ±0.6π. -/
def sineBand (x : Val) : Val :=
  if x = 0x3FE41B2F769CF0E0 then 0x3FE2CF2304755A5E
  else if x = 0xBFE41B2F769CF0E0 then 0xBFE2CF2304755A5E
  else if x = 0x3FFE28C731EB6950 then 0x3FEE6F0E13445500
  else 0xBFEE6F0E13445500

/-- Vector V4: the bandstop of three taps from 0.1 to 0.3, normalized. -/
theorem test_designTaps_bs :
    designTaps .binary64 sineBand (fun _ _ => 0) .bs true 3 [v1, v1, v1] [v01, v03] =
      some [0xBFC1CE2D84DF67A9, 0x3FE718E93D904C2C, 0xBFC1CE2D84DF67A9] := by decide +kernel

/-- R131 by hand, N = 4: + stands on the lower middle tap, so −1 + 3 − 2 + 0.5 = 0.5. -/
theorem test_divisor_even : divisor .binary64 (fun _ _ => 0) .hp 4 [v1, v3, v2, vHalf] = vHalf := by decide +kernel

/-- Vector V4, first row, in binary32. -/
theorem test_designTaps32 :
    designTaps .binary32 (fun x => if x = 0x3FC90FDB then 0x3F800000 else 0xBF800000) (fun _ _ => 0) .lp true 3
      [0x3F800000, 0x3F800000, 0x3F800000] [0x3E800000] = some [0x3E8F62A8, 0x3EE13AAF, 0x3E8F62A8] := by
  decide +kernel

/-- A state with direct context 1 over taps [1, 2, 3] and DMEM [1, 0, 0, 0]. -/
def dirState : State :=
  setDir 1 (dirConstruct fpZero [v1, v2, v3]) (small par64 [v1, 0, 0, 0] 0 8 4 0 0)

/-- Vector V6: DIR_INIT with M = `MAX_TAPS` + 1 and a source out of range is CAPACITY. -/
theorem test_dirInit_capacity :
    status? (step (pending 0x010 (small par64 [] 0xFFFFFFFF 0 5 0 0))) = some 0x72 := by decide +kernel

/-- S6: no taps is EMPTY_INPUT. -/
theorem test_dirInit_empty : status? (step (pending 0x010 (small par64 [] 99 0 0 0 0))) = some 0x42 := by decide +kernel

/-- Vector V6: the taps [1, 2, 3] over [1, 0, 0, 0]. -/
theorem test_dirApply : elems? 8 4 (step (pending 0x111 dirState)) = some [v1, v2, v3, 0] := by decide +kernel

/-- Vector V3: DIR_APPLY right after reset is NOT_CONFIGURED. -/
theorem test_dirApply_reset : status? (step (pending 0x011 State.reset)) = some 0x82 := by decide +kernel

theorem test_dirRel : (next? (step (pending 0x112 dirState))).map ctxvWord = some 0 := by decide +kernel

/-- A state with overlap-add context 0 over taps [1, 1], and DMEM [1, 2]. -/
def olaState : State :=
  setOla 0 (olaConstruct fpZero [v1, v1] 4) (small par64 [v1, v2] 0 16 2 0 0)

/-- Program P4: a requested block of 16 over `MAX_BLOCK` = 8 is CAPACITY. -/
theorem test_olaInit_capacity :
    status? (step (pending 0x020 (small par64 [v1, v1] 0 0 2 16 0))) = some 0x72 := by decide +kernel

/-- Program P4: two taps give `RES0` = 4 and `RES1` = 3. -/
theorem test_olaInit :
    (next? (step (pending 0x020 (small par64 [v1, v1] 0 0 2 0 0)))).map (fun t => (t.res0, t.res1, ctxvWord t)) =
      some (4, 3, 0x10000) := by decide +kernel

/-- S17 and vector V7: two samples over taps [1, 1] write nothing, at any destination, and leave a backlog of 2. -/
theorem test_olaApply :
    (next? (step (pending 0x021 olaState))).map (fun t => (t.res0, t.res1, statusWord t)) = some (0, 2, 2) := by
  decide +kernel

/-- By hand (R187): three samples over taps [1, 1], L = 3, complete a chunk; the context stays valid and its backlog is empty. -/
theorem test_olaApply_chunk :
    (next? (step (pending 0x021 (setOla 0 (olaConstruct fpZero [v1, v1] 4) (small par64 [v1, v2, v3] 0 8 3 0 0))))).map
      (fun t => (t.res0, t.res1, ctxvWord t)) = some (3, 0, 0x10000) := by decide +kernel

/-- Vector V7: three samples would write beyond DMEM. -/
theorem test_olaApply_range : status? (step (pending 0x021 { olaState with aLen := 3 })) = some 0x62 := by decide +kernel

theorem test_olaRel : (next? (step (pending 0x022 olaState))).map ctxvWord = some 0 := by decide +kernel

/-- Vector V7: the engine's loop with an exact convolution: [1, 2, 3, 4, 5] over [1, 1] gives [1, 3, 5], tail [3]. -/
theorem test_olaStream :
    let r := olaStream intArith exactConv 0 (olaConstruct 0 [1, 1] 4) [1, 2, 3, 4, 5]
    r.2 = [1, 3, 5] ∧ r.1.tail = [3] ∧ r.1.fill = 2 := by decide

/-- Vector V7's block sizes. -/
theorem test_blockSize :
    [(1, 0), (1, 3), (2, 0), (3, 8), (3, 9), (8, 0), (127, 0), (2, 2 ^ 31 + 1)].map (fun q => blockSize q.1 q.2) =
      [2, 4, 4, 8, 16, 16, 256, 2 ^ 32] := by decide +kernel

/-! ### The host port: vector V2 -/

theorem test_read_misaligned : answer? (step (facing (.read 0x002 32) State.reset)) = some { data := 0, error := true } := by
  decide +kernel

theorem test_read_cfg0 :
    answer? (step (facing (.read 0x02C 32) (State.resetWith par64))) = some { data := 0x101, error := false } := by
  decide +kernel

theorem test_read_past_window :
    answer? (step (facing (.read 0x10080 32) (State.resetWith par64))) = some { data := 0, error := true } := by
  decide +kernel

theorem test_status_write :
    status? (step (facing (.write 0x008 32 0xFFFFFFFF)
      { State.reset with statusErr := .invalidSpec, statusHaz := true, statusDone := true })) = some 0x20 := by
  decide +kernel

theorem test_busy_cmd_dropped :
    (next? (step (facing (.write 0x00C 32 0x12) (pending 0x11 State.reset)))).map (fun t => (t.cmd, statusWord t)) =
      some (0x11, 0x05) := by decide +kernel

theorem test_read_unwritten :
    fault? (step (facing (.read 0x10000 32) State.reset)) = some .uninitRead := by decide +kernel

/-- Program P3: `wrf 4, 0.1` writes the two words of 0.1, the low one first. -/
theorem test_wrf :
    HostOp.actions .binary64 (.wrf 4 { neg := false, num := 1, den := 10 }) =
      [.write 0x10020 32 0x9999999A, .write 0x10024 32 0x3FB99999] := by decide +kernel

/-- Program P1: a line of its text, and what it writes. -/
theorem test_parse :
    parseLine "dsgn.lp.n 8, 0, 3, 3  ; taps to elements 8..10".toList = some (.command (.dsgn .lp true 8 0 3 3 none)) ∧
      (Pseudo.dsgn .lp true 8 0 3 3 none).expand =
        [.wait, .wr .aSrc 0, .wr .aDst 8, .wr .aLen 3, .wr .aAux 3, .wr .aWlen 3, .wr .cmd 0x1001, .wait] := by
  decide +kernel

/-- R105: numbers are decimal, or hexadecimal with `0x`. -/
theorem test_parse_wrf_hex :
    parseLine "wrf 0, 0x10".toList = some (.op (.wrf 0 { neg := false, num := 16, den := 1 })) ∧
      parseLine "wrf 4, 0.1".toList = some (.op (.wrf 4 { neg := false, num := 1, den := 10 })) := by decide +kernel

/-- Log 23: a line that is nothing but a comment. Log 24: an operand that does not fit a register. -/
theorem test_parse_choices :
    parseLine "  ; set up".toList = some .blank ∧ parseLine "cmd 4294967295".toList = some (.op (.cmd 0xFFFFFFFF)) ∧
      parseLine "cmd 4294967296".toList = none := by decide +kernel

/-- Log 25: `ctx<<8` that does not fit the word; and R108's own example of one that does. -/
theorem test_pseudo_word :
    (Pseudo.dirInit 0x1000000 0 0).word = 0x10 ∧ (Pseudo.dirApply 1 200 100 8).word = 0x111 := by decide

/-- R106: `wait` while idle is one read of `STATUS`. -/
theorem test_await_idle :
    (next? (step (facing (.await 2) State.reset))).map (fun t => (t.host, t.responses)) =
      some ([], [{ data := 0, error := false }]) := by decide +kernel

/-- R106: `wait` while busy, a poll before the block steps. -/
theorem test_await_busy :
    (next? (Sys2Proof.core.run 3 (facing (.await 1) (pending 0 State.reset)))).map
        (fun t => (t.host, t.responses.map Response.data)) = some ([], [2, 1]) := by decide +kernel

/-! ### Witnesses: states and operands that meet the hypotheses of each obligation -/

/-- `StateInv` of a state is a computation. -/
theorem inv_of_checks {s : State}
    (h : s.params.legal = true ∧ memSorted s.mem = true ∧ memWhole s.params s.mem = true ∧
      s.dir.length = s.params.nctxDir ∧ s.ola.length = s.params.nctxOla ∧
      s.dir.all (dirCtxOK s.params) = true ∧ s.ola.all (olaCtxOK s.params) = true ∧
      s.irq = (s.ctrlIe && s.statusDone) ∧ (s.statusBusy = true → s.statusDone = false ∧ s.statusErr = .ok)) :
    StateInv s :=
  ⟨h.1, h.2.1, h.2.2.1, h.2.2.2.1, h.2.2.2.2.1, h.2.2.2.2.2.1, h.2.2.2.2.2.2.1, h.2.2.2.2.2.2.2.1,
    h.2.2.2.2.2.2.2.2⟩

theorem all_of {α : Type} {P : α → Prop} [DecidablePred P] {l : List α} (h : l.all (fun a => decide (P a)) = true)
    (a : α) (ha : a ∈ l) : P a :=
  of_decide_eq_true (List.all_eq_true.1 h a ha)

theorem next_of_isSome {r : Result} (h : (next? r).isSome = true) : ∃ t, r = .next t := by
  cases r with
  | next t => exact ⟨t, rfl⟩
  | fault _ => cases h
  | refused _ => cases h

/-- A written DMEM, a valid context of each kind, one action to come. -/
def full (a : Action) : State :=
  { facing a (setDir 1 (dirConstruct fpZero [v1, v2, v3])
      (setOla 0 (olaConstruct fpZero [v1, v1] 4) (small par64 (List.replicate 16 v1) 0 8 4 0 0))) with
    ctrlIe := true, statusDone := true, irq := true }

/-- The same with `BUSY` = 1. -/
def fullBusy (a : Action) : State := { pending 0x111 (full a) with host := [a] }

theorem inv_full : StateInv (full .block) := inv_of_checks (by decide +kernel)
theorem inv_fullBusy : StateInv (fullBusy .block) := inv_of_checks (by decide +kernel)
theorem inv_full_any (a : Action) : StateInv (full a) :=
  ⟨inv_full.params, inv_full.sorted, inv_full.whole, inv_full.dirCount, inv_full.olaCount, inv_full.dirOK, inv_full.olaOK,
    inv_full.irqLevel, inv_full.busyClear⟩
theorem inv_fullBusy_any (a : Action) : StateInv (fullBusy a) :=
  ⟨inv_fullBusy.params, inv_fullBusy.sorted, inv_fullBusy.whole, inv_fullBusy.dirCount, inv_fullBusy.olaCount,
    inv_fullBusy.dirOK, inv_fullBusy.olaOK, inv_fullBusy.irqLevel, inv_fullBusy.busyClear⟩

/-- The three forms of the block's turn. -/
theorem witness_StepRunsDecodedCommand :
    ((fullBusy .block).statusBusy = true ∧ BlocksTurn (fullBusy .block) [] ∧
      decode (fullBusy .block).cmd = some (.dirApply 1)) ∧
    ((pending 0x111 State.reset).statusBusy = true ∧ BlocksTurn (pending 0x111 State.reset) [] ∧
      decode (pending 0x111 State.reset).cmd = some (.dirApply 1)) ∧
    (fullBusy (.await 0)).statusBusy = true ∧ BlocksTurn (fullBusy (.await 0)) [.await 0] ∧
      decode (fullBusy (.await 0)).cmd = some (.dirApply 1) :=
  ⟨⟨rfl, .inr (.inl rfl), by decide +kernel⟩, ⟨rfl, .inl ⟨rfl, rfl⟩, by decide +kernel⟩, rfl,
    .inr (.inr ⟨[], rfl, rfl, rfl⟩), by decide +kernel⟩

/-- One word for each way of being illegal, the context numbers at the bounds of `par64`; and a legal word. -/
theorem witness_IllegalWordCompletesWithIllegalCmd :
    (∀ w ∈ [(0x2001 : Word), 0x05, 0x1000, 0x101, 0x212, 0x121],
      (pending w (State.resetWith par64)).statusBusy = true ∧ IllegalWord par64 w) ∧
    BlocksTurn (pending 0x212 (State.resetWith par64)) [] ∧
    ¬IllegalWord par64 0x112 ∧ ∃ t, step (pending 0x112 (State.resetWith par64)) = .next t :=
  ⟨by unfold IllegalWord; exact all_of (by decide +kernel), .inl ⟨rfl, rfl⟩, by unfold IllegalWord; decide +kernel,
    next_of_isSome (by decide +kernel)⟩

theorem witness_IdleBlockDoesNothing :
    (full .block).statusBusy = false ∧ BlocksTurn (full .block) [] ∧ BlocksTurn State.reset [] :=
  ⟨rfl, .inr (.inl rfl), .inl ⟨rfl, rfl⟩⟩

theorem witness_StepKeepsInvariant : StateInv (fullBusy .block) ∧ ∃ t, step (fullBusy .block) = .next t :=
  ⟨inv_fullBusy, next_of_isSome (by decide +kernel)⟩

theorem witness_ResetHasInvariant : par64.legal = true ∧ par32.legal = true := by decide +kernel

theorem witness_StepConsumesOneAction :
    (∃ t, step (full (.read 0x000 32)) = .next t) ∧ (∃ t, step (fullBusy .block) = .next t) ∧
      (∃ t, step (full (.await 1)) = .next t) ∧ ∃ t, step (fullBusy (.await 0)) = .next t :=
  ⟨next_of_isSome (by decide +kernel), next_of_isSome (by decide +kernel), next_of_isSome (by decide +kernel),
    next_of_isSome (by decide +kernel)⟩

theorem witness_ResetClearsTheMachine : (fullBusy .reset).host = .reset :: [] := rfl

/-- A wrong width, a misaligned address, the first address past the window; reads and writes. -/
theorem witness_BusErrorsChangeNothing :
    (16 ≠ 32 ∧ (0x002 : Word).toNat % 4 ≠ 0 ∧
      0x10000 + (full .block).params.dmemWords * (full .block).params.fmt.ew ≤ (0x10080 : Word).toNat) ∧
    (full (.read 0x10080 32)).host = .read 0x10080 32 :: [] ∧
    (full (.write 0x002 32 7)).host = .write 0x002 32 7 :: [] := by decide +kernel

/-- A register of the list and the first and last DMEM words of the window. -/
theorem witness_BusyWritesAreDropped :
    StateInv (fullBusy (.write 0x018 32 9)) ∧ StateInv (fullBusy (.write 0x10000 32 9)) ∧
    (fullBusy (.write 0x018 32 9)).statusBusy = true ∧
    (0x018 : Word).toNat ∈ [0x00C, 0x010, 0x014, 0x018, 0x01C, 0x020] ∧
    (∀ a ∈ [(0x10000 : Word), 0x1007C], a.toNat % 4 = 0 ∧ 0x10000 ≤ a.toNat ∧ a.toNat < 0x10000 + 16 * 8) ∧
    (fullBusy (.write 0x10000 32 9)).host = .write 0x10000 32 9 :: [] :=
  ⟨inv_fullBusy_any _, inv_fullBusy_any _, rfl, by decide +kernel, all_of (by decide +kernel), rfl⟩

theorem witness_BusyDmemReadAnswersFreeValue :
    (fullBusy (.read 0x1007C 32)).statusBusy = true ∧ (0x1007C : Word).toNat % 4 = 0 ∧ 0x10000 ≤ (0x1007C : Word).toNat ∧
    (0x1007C : Word).toNat < 0x10000 + par64.dmemWords * par64.fmt.ew ∧
    (fullBusy (.read 0x1007C 32)).host = .read 0x1007C 32 :: [] := by decide +kernel

theorem witness_ReadsHaveNoSideEffect :
    (full (.read 0x10000 32)).host = .read 0x10000 32 :: [] ∧ ∃ t, step (full (.read 0x10000 32)) = .next t :=
  ⟨rfl, next_of_isSome (by decide +kernel)⟩

theorem witness_StatusWriteClearsDoneAndHaz : (full (.write 0x008 32 6)).host = .write 0x008 32 6 :: [] := rfl

theorem witness_CommandWriteIssuesWhenIdle :
    (full (.write 0x00C 32 0x11)).statusBusy = false ∧ (full (.write 0x00C 32 0x11)).host = .write 0x00C 32 0x11 :: [] :=
  ⟨rfl, rfl⟩

theorem witness_ArgumentRegisterWritesLand :
    (∀ a ∈ [(0x010 : Word), 0x014, 0x018, 0x01C, 0x020], a.toNat ∈ [0x010, 0x014, 0x018, 0x01C, 0x020]) ∧
    ∀ a, StateInv (full (.write a 32 9)) ∧ (full (.write a 32 9)).statusBusy = false ∧
      (full (.write a 32 9)).host = .write a 32 9 :: [] :=
  ⟨all_of (by decide +kernel), fun _ => ⟨inv_full_any _, rfl, rfl⟩⟩

theorem witness_ConstantRegistersReadAndIgnoreWrites :
    (∀ a ∈ [(0x000 : Word), 0x02C, 0x034, 0x038, 0x03C], a.toNat ∈ [0x000, 0x02C, 0x034, 0x038, 0x03C]) ∧
    ∀ a, (StateInv (full (.read a 32)) ∧ (full (.read a 32)).host = .read a 32 :: []) ∧
      StateInv (full (.write a 32 9)) ∧ (full (.write a 32 9)).host = .write a 32 9 :: [] :=
  ⟨all_of (by decide +kernel), fun _ => ⟨⟨inv_full_any _, rfl⟩, inv_full_any _, rfl⟩⟩

theorem witness_RegisterReadsAnswerTheirFields :
    (∀ a ∈ [(0x004 : Word), 0x008, 0x00C, 0x010, 0x014, 0x018, 0x01C, 0x020, 0x024, 0x028, 0x030],
      a.toNat ∈ [0x004, 0x008, 0x00C, 0x010, 0x014, 0x018, 0x01C, 0x020, 0x024, 0x028, 0x030]) ∧
    ∀ a, (full (.read a 32)).host = .read a 32 :: [] ∧ (full (.read a 32)).params.maxTaps < 2 ^ 32 :=
  ⟨all_of (by decide +kernel), fun _ => ⟨rfl, by show 4 < 2 ^ 32; decide⟩⟩

/-- The first and last unmapped offsets and the read-only registers. -/
theorem witness_UnmappedAndReadOnlyWritesIgnored :
    StateInv (full (.write 0x0FFFC 32 9)) ∧
    (∀ a ∈ [(0x040 : Word), 0x0FFFC], a.toNat % 4 = 0 ∧ 0x040 ≤ a.toNat ∧ a.toNat < 0x10000) ∧
    (0x024 : Word).toNat % 4 = 0 ∧ (0x024 : Word).toNat ∈ [0x000, 0x024, 0x028, 0x02C, 0x030, 0x034, 0x038, 0x03C] ∧
    (full (.read 0x040 32)).host = .read 0x040 32 :: [] ∧ (full (.write 0x024 32 9)).host = .write 0x024 32 9 :: [] :=
  ⟨inv_full_any _, all_of (by decide +kernel), by decide +kernel, by decide +kernel, rfl, rfl⟩

theorem witness_ControlWriteDrivesInterrupt :
    (full (.write 0x004 32 0xFFFFFFFF)).host = .write 0x004 32 0xFFFFFFFF :: [] := rfl

/-- The first and last words of the window. -/
theorem witness_DmemWordWriteReadsBack :
    (∀ a ∈ [(0x10000 : Word), 0x1007C],
      a.toNat % 4 = 0 ∧ 0x10000 ≤ a.toNat ∧ a.toNat < 0x10000 + par64.dmemWords * par64.fmt.ew) ∧
    ∀ a, StateInv (full (.write a 32 9)) ∧ (full (.write a 32 9)).statusBusy = false ∧
      (full (.write a 32 9)).params = par64 ∧ (full (.write a 32 9)).host = .write a 32 9 :: [] :=
  ⟨all_of (by decide +kernel), fun _ => ⟨inv_full_any _, rfl, rfl, rfl⟩⟩

/-- The read of the same word that comes next. -/
theorem witness_DmemWordWriteReadsBack_read :
    (next? (step { full .block with host := [.write 0x1007C 32 9, .read 0x1007C 32] })).map State.host =
      some [.read 0x1007C 32] := by decide +kernel

/-- The last element, its low word and its high word. -/
theorem witness_HalfWriteMixesElement :
    (full (.write 0x10078 32 9)).params.fmt = .binary64 ∧ (full (.write 0x10078 32 9)).statusBusy = false ∧
    StateInv (full (.write 0x10078 32 9)) ∧ 15 < (full (.write 0x10078 32 9)).params.dmemWords ∧
    readElem .binary64 (full (.write 0x10078 32 9)).mem 15 = some (BitVec.ofNat 64 (0x3FF00000 * 2 ^ 32 + 0)) ∧
    (full (.write 0x10078 32 9)).host = .write 0x10078 32 9 :: [] ∧ (0x10078 : Word).toNat = 0x10000 + 8 * 15 ∧
    (0x1007C : Word).toNat = 0x10000 + 8 * 15 + 4 :=
  ⟨rfl, rfl, inv_full_any _, by decide +kernel, by decide +kernel, rfl, rfl, rfl⟩

/-- Element 1 and the elements after it are not written: a host read, a window, a cutoff, a source. -/
theorem witness_UnwrittenReadsFault :
    readWord (small par64 [v1] 0 4 2 0 2).mem 0x10008 = none ∧
    (let s := small par64 [v1] 0 4 2 0 2
     lenCount s ≠ 0 ∧ wlenCount s = lenCount s ∧ designRangesOK s .lp = true ∧ readElem s.params.fmt s.mem 1 = none ∧
      srcIndex s ≤ 1 ∧ 1 < srcIndex s + lenCount s) ∧
    (let s := small par64 [v1] 0 4 1 1 1
     lenCount s ≠ 0 ∧ wlenCount s = lenCount s ∧ designRangesOK s .bs = true ∧ readElem s.params.fmt s.mem 2 = none ∧
      auxIndex s ≤ 2 ∧ 2 < auxIndex s + cutoffCount .bs) ∧
    (let s := { olaState with dir := dirState.dir, aSrc := 1, aDst := 0 }
     [Instr.dirInit 0, .dirApply 1, .olaInit 0, .olaApply 0].all
        (fun i => (firstFailure (commandChecks i s)).isNone) = true ∧
      readElem s.params.fmt s.mem 2 = none ∧ srcIndex s ≤ 2 ∧ 2 < srcIndex s + lenCount s) := by decide +kernel

theorem witness_BusyFreezesOperands :
    let acts := [Action.write 0x018 32 9, .read 0x008 32, .write 0x10000 32 1]
    let s : State := { fullBusy .block with host := acts ++ [.block] }
    s.statusBusy = true ∧ s.host = acts ++ [.block] ∧ acts.all Action.isAccess = true := by decide +kernel

/-- A schedule with turns and polls everywhere. -/
theorem witness_PseudoInstructionIssuesItsCommand :
    let acts := scheduled (fun _ => true) (fun k => k + 2) 7
      ((Pseudo.dirApply 1 8 0 4).expand.flatMap (HostOp.actions .binary64))
    let s : State := { full .block with host := acts ++ [.block] }
    s.statusBusy = false ∧ s.host = acts ++ [.block] ∧ (1 : Word).toNat < 16 ∧ (15 : Word).toNat < 16 :=
  ⟨rfl, rfl, by decide, by decide⟩

/-- Idle; busy with polls to come and without; an illegal word pending. -/
theorem witness_WaitPollsUntilIdle :
    (full (.await 3)).host = .await 3 :: [] ∧ (full (.await 3)).statusBusy = false ∧
    ((fullBusy (.await 3)).host = .await 3 :: [] ∧ (fullBusy (.await 3)).statusBusy = true ∧
      decode (fullBusy (.await 3)).cmd = some (.dirApply 1) ∧
      ∃ u, exec (.dirApply 1) (fullBusy (.await 3)) = .next u) ∧
    (fullBusy (.await 0)).host = .await 0 :: [] ∧ decode (pending 0x5 State.reset).cmd = none :=
  ⟨rfl, rfl, ⟨rfl, rfl, by decide +kernel, next_of_isSome (by decide +kernel)⟩, rfl, by decide +kernel⟩

/-- The smallest and the largest operand, one in hexadecimal; with a comment and without. -/
theorem witness_PseudoInstructionOperandOrder :
    parseWord "0".toList = some 0 ∧ parseWord "0x10".toList = some 16 ∧
      parseWord "4294967295".toList = some 0xFFFFFFFF ∧ ([] : List Char) = [] ∧
      "; c".toList.head? = some ';' := by decide +kernel

theorem witness_ErrorsChangeNothingElse :
    ∃ t, exec (.dirInit 0) (small par64 [] 0 0 0 0 0) = .next t ∧ t.statusErr ≠ .ok :=
  ⟨_, rfl, by decide +kernel⟩

theorem witness_CompletionSetsFlagsAndKeepsOperands :
    ∀ i ∈ [Instr.nop, .dsgnLp false, .dirInit 1, .dirApply 1, .dirRel 1, .olaInit 0, .olaApply 0, .olaRel 0],
      (next? (exec i (full .block))).isSome = true := by decide +kernel

theorem witness_CommandsCompleteOnWrittenDmem : DmemWritten (full .block) := by
  have h : (List.range 16).all (fun e => (readElem .binary64 (full .block).mem e).isSome) = true := by decide +kernel
  intro e he
  exact List.all_eq_true.1 h e (List.mem_range.2 he)

/-- A failing check, a cutoff of 0.5 among them, and none failing. -/
theorem witness_ChecksReportFirstFailure :
    firstFailure (commandChecks (.dirInit 0) (small par64 [] 99 0 0 0 0)) = some .emptyInput ∧
    firstFailure (commandChecks (.dsgnLp false) (small par64 [v1, vHalf] 0 4 1 1 1)) = some .invalidSpec ∧
    firstFailure (commandChecks (.dirApply 1) dirState) = none ∧ (next? (exec (.dirApply 1) dirState)).isSome = true := by
  decide +kernel

theorem witness_OtherContextsUntouched :
    (∃ t, exec (.dirApply 1) dirState = .next t) ∧ dirTarget (.dirApply 1) ≠ some 0 ∧
      ∃ t, exec (.olaRel 0) olaState = .next t :=
  ⟨next_of_isSome (by decide +kernel), by decide +kernel, next_of_isSome (by decide +kernel)⟩

/-- Every filter type, with and without normalization, at the last elements of DMEM. -/
theorem witness_DesignWritesFinalTaps :
    ∀ t ∈ [FilterType.lp, .hp, .bp, .bs], ∀ norm ∈ [false, true],
      let s := small par64 [v1, v01, v03] 0 15 1 1 1
      lenCount s ≠ 0 ∧ wlenCount s = lenCount s ∧ designRangesOK s t = true ∧
        readSrc s (lenCount s) = some [v1] ∧
        (readAux s (cutoffCount t)).isSome = true ∧
        (∀ fc ∈ readAux s (cutoffCount t), cutoffsLegal s.params.fmt t fc = true ∧
          (stateTaps s t norm [v1] fc).isSome = true) := by decide +kernel

theorem witness_FinalTapsFollowTheFormulas :
    ∀ norm ∈ [false, true],
      (designTaps .binary64 sineQuarter (fun _ _ => 0) .hp norm 3 [v1, v1, v1] [vQuarter]).isSome = true := by
  decide +kernel

/-- Every filter type, with and without normalization; a zero window is degenerate where the design is normalized. -/
theorem witness_DegeneracyIsZeroDivisorOrNonFiniteTap :
    ∀ t ∈ [FilterType.lp, .hp, .bp, .bs], ∀ zero ∈ [false, true],
      let w := if zero then 0 else v1
      let s := small par64 [w, v01, v03] 0 15 1 1 1
      lenCount s ≠ 0 ∧ wlenCount s = lenCount s ∧ designRangesOK s t = true ∧ readSrc s (lenCount s) = some [w] ∧
        (readAux s (cutoffCount t)).isSome = true ∧
        (∀ fc ∈ readAux s (cutoffCount t), cutoffsLegal s.params.fmt t fc = true) ∧
        status? (exec (designInstr t true) s) = some (if zero then 0x52 else 0x02) ∧
        status? (exec (designInstr t false) s) = some 0x02 := by decide +kernel

/-- A window value of 1, and one of 0. -/
theorem witness_LengthOneNormalizedDesignIsUnity :
    ∀ t ∈ [FilterType.lp, .hp, .bp, .bs], ∀ one ∈ [true, false],
      let w := if one then v1 else 0
      let s := small par64 [w, v01, v03] 0 15 1 1 1
      lenCount s = 1 ∧ wlenCount s = 1 ∧ designRangesOK s t = true ∧ readSrc s 1 = some [w] ∧
        (∀ fc ∈ readAux s (cutoffCount t), cutoffsLegal s.params.fmt t fc = true ∧
          let v0 := fpMul .binary64 (nanDraws s 0 0) (idealTap .binary64 (sinF .binary64) (nanDraws s 0 0) t 1 fc 0) w
          (one = true → fpIsFinite .binary64 v0 = true ∧ fpIsZero .binary64 v0 = false) ∧
          (one = false → fpIsZero .binary64 v0 = true)) := by decide +kernel

/-- A cutoff of 0 (which the commands' check turns away) makes three taps that the sine does not reach. -/
theorem witness_SymmetricWindowGivesSymmetricTaps :
    (∀ i, i < 3 → [v1, v2, v1].getD i fpZero = [v1, v2, v1].getD (3 - 1 - i) fpZero) ∧
    ∀ norm ∈ [false, true],
      (designTaps .binary64 (sinF .binary64) (fun _ _ => 0) .hp norm 3 [v1, v2, v1] [0]).isSome = true := by
  decide +kernel

theorem witness_TwoTapHighpassIsDegenerate : FilterType.hp = .hp ∨ FilterType.hp = .bs := .inl rfl

/-- Two states that differ in a context and a DMEM element that is not read. -/
theorem witness_DesignIsPure :
    let s1 := small par64 [v1, v01, v03] 0 8 1 1 1
    let s2 := setDir 1 (dirConstruct fpZero [v1, v2, v3]) (small par64 [v1, v01, v03, v2] 0 8 1 1 1)
    s1.params = s2.params ∧ s1.aSrc = s2.aSrc ∧ s1.aDst = s2.aDst ∧ s1.aLen = s2.aLen ∧ s1.aAux = s2.aAux ∧
      s1.aWlen = s2.aWlen ∧
      ∀ e, (srcIndex s1 ≤ e ∧ e < srcIndex s1 + lenCount s1) ∨
          (auxIndex s1 ≤ e ∧ e < auxIndex s1 + cutoffCount .bp) →
        readElem s1.params.fmt s1.mem e = readElem s1.params.fmt s2.mem e := by
  refine ⟨rfl, rfl, rfl, rfl, rfl, rfl, fun e h => ?_⟩
  have h' : (0 ≤ e ∧ e < 0 + 1) ∨ (1 ≤ e ∧ e < 1 + 2) := h
  have key : ∀ e, e < 3 →
      readElem .binary64 (small par64 [v1, v01, v03] 0 8 1 1 1).mem e =
        readElem .binary64 (small par64 [v1, v01, v03, v2] 0 8 1 1 1).mem e := by decide +kernel
  exact key e (by omega)

theorem witness_SineIsOdd : fpIsNaN .binary64 v1 = false := by decide +kernel

/-- Half a unit is equally near to 0 and to 1. -/
theorem witness_RoundingIsNearestTiesToEven :
    0 < 2 ∧ roundMag .binary64 1 2 < Fmt.binary64.infBits ∧ 1 < Fmt.binary64.infBits ∧
    ((magOfBits .binary64 (roundMag .binary64 1 2) * 2 : Int) - 1).natAbs = ((magOfBits .binary64 1 * 2 : Int) - 1).natAbs ∧
    1 ≠ roundMag .binary64 1 2 := by decide +kernel

/-- A divisor that is not zero, and each zero with a zero and a nonzero dividend; the largest finite values. -/
theorem witness_ArithmeticRoundsExactResults :
    ([v1, v01, 0, 0x8000000000000000, 0x7FEFFFFFFFFFFFFF, 0xFFEFFFFFFFFFFFFF].all (fpIsFinite .binary64) = true) ∧
    fpInt .binary64 v01 ≠ 0 ∧ fpInt .binary64 0 = 0 ∧ fpInt .binary64 0x8000000000000000 = 0 ∧ 0 < 10 := by
  decide +kernel

theorem witness_DirInitConstructsContext :
    let s := full .block
    s.dir.length = s.params.nctxDir ∧ (1 : BitVec 4).toNat < s.params.nctxDir ∧ lenCount s ≠ 0 ∧
      lenCount s ≤ s.params.maxTaps ∧ rangeOK s.params (srcIndex s) (lenCount s) = true ∧
      (readSrc s (lenCount s)).isSome = true := by decide +kernel

theorem witness_DirApplyComputesReferenceSum :
    StateInv (full .block) ∧
    let s := full .block
    (1 : BitVec 4).toNat < s.params.nctxDir ∧ (dirCtx s (1 : BitVec 4).toNat).valid = true ∧
      rangeOK s.params (srcIndex s) (lenCount s) = true ∧ rangeOK s.params (dstIndex s) (lenCount s) = true ∧
      (readSrc s (lenCount s)).isSome = true :=
  ⟨inv_full, by decide +kernel⟩

theorem witness_HistoryHoldsLastInputs : [v1, v2] ≠ [] := by decide +kernel

theorem witness_ZeroLengthApplyIsNoOp :
    StateInv { full .block with aLen := 0, aSrc := 0xFFFFFFFF } ∧
    let s := { full .block with aLen := 0, aSrc := 0xFFFFFFFF }
    lenCount s = 0 ∧ (1 : BitVec 4).toNat < s.params.nctxDir ∧ (dirCtx s (1 : BitVec 4).toNat).valid = true ∧
      (0 : BitVec 4).toNat < s.params.nctxOla ∧ (olaCtx s (0 : BitVec 4).toNat).valid = true :=
  ⟨inv_of_checks (by decide +kernel), by decide +kernel⟩

/-- The last context of each kind. -/
theorem witness_ReleaseInvalidatesContext :
    (1 : BitVec 4).toNat < (full .block).params.nctxDir ∧ (full .block).dir.length = (full .block).params.nctxDir ∧
    (0 : BitVec 4).toNat < (full .block).params.nctxOla ∧ (full .block).ola.length = (full .block).params.nctxOla := by
  decide

/-- Taps with a signed zero, more samples than taps; inputs with −0 and an infinity. -/
theorem witness_ImpulseReproducesTaps :
    ([v1, 0x8000000000000000] ≠ [] ∧ [v1, (0x8000000000000000 : Val)].length ≤ 4 ∧
      [v1, 0x8000000000000000].all (fpIsFinite .binary64) = true) ∧
    [v2, 0x8000000000000000, 0x7FF0000000000000].all (fun v => fpInWidth .binary64 v && !fpIsNaN .binary64 v) = true := by
  decide +kernel

theorem witness_BlockSizeIsLeastPowerOfTwo : 1 ≤ 1 ∧ 2 * 1 ≤ 2 ^ 1 ∧ 2 ≤ 2 ^ 1 := by decide +kernel

/-- The largest number of taps, with the block size at `MAX_BLOCK`. -/
theorem witness_OlaInitConstructsContext :
    StateInv (full .block) ∧
    let s := full .block
    (0 : BitVec 4).toNat < s.params.nctxOla ∧ lenCount s ≠ 0 ∧ lenCount s ≤ s.params.maxTaps ∧
      blockSize (lenCount s) (auxIndex s) ≤ s.params.maxBlock ∧ rangeOK s.params (srcIndex s) (lenCount s) = true ∧
      (readSrc s (lenCount s)).isSome = true :=
  ⟨inv_full, by decide +kernel⟩

/-- Four samples over L = 3: one chunk completes. -/
theorem witness_OlaApplyWritesCompletedChunks :
    StateInv (full .block) ∧
    let s := full .block
    (0 : BitVec 4).toNat < s.params.nctxOla ∧ (olaCtx s (0 : BitVec 4).toNat).valid = true ∧
      rangeOK s.params (srcIndex s) (lenCount s) = true ∧
      rangeOK s.params (dstIndex s)
        (((olaCtx s (0 : BitVec 4).toNat).fill + lenCount s) / (olaCtx s (0 : BitVec 4).toNat).l *
          (olaCtx s (0 : BitVec 4).toNat).l) = true ∧
      (readSrc s (lenCount s)).isSome = true :=
  ⟨inv_full, by decide +kernel⟩

/-- A context one sample short of a chunk, and one with room for two more. -/
theorem witness_CompletedChunkAddsCarriedTail :
    let c := olaConstruct fpZero [v1, v1] 4
    (olaCtxOK par64 c = true ∧ c.valid = true ∧ c.fill + 1 ≠ c.l) ∧
    olaCtxOK par64 { c with fill := 2 } = true ∧ 2 + 1 = c.l := by decide +kernel

theorem witness_OlaOutputCountAndBacklog : [v1, v1] ≠ [] := by decide +kernel

theorem witness_OlaApplyIsChunkInvariant : [v1] ≠ [] := by decide +kernel

/-- Taps [1, 1] and the chunk [1, 2, 3]: the value 3 meets the bound exactly. -/
theorem witness_XconvMeetsTolerance :
    let T := [v1, v1, 0, 0]
    let P := [v1, v2, v3, 0]
    let r : Val := v3
    T.all (fpIsFinite .binary64) = true ∧ P.all (fpIsFinite .binary64) = true ∧ fpIsFinite .binary64 r = true ∧
      (fpInt .binary64 r * 2 ^ Fmt.binary64.scale -
          circConv (T.map (fpInt .binary64)) (P.map (fpInt .binary64)) 1).natAbs * toleranceInv .binary64 ≤
        sumAbs (T.map (fpInt .binary64)) * maxAbs (P.map (fpInt .binary64)) := by decide +kernel

theorem witness_CircularConvolutionDoesNotWrap :
    [(1 : Int), 1] ≠ [] ∧ [(1 : Int), 2, 3] ≠ [] ∧ 3 < [(1 : Int), 1].length + [(1 : Int), 2, 3].length - 1 := by decide +kernel

theorem witness_OverlapAddMatchesDirectExactly : [(1 : Int), 1] ≠ [] := by decide +kernel

end Sys2Proof.Tests
end

section
/-! The facts of 00_scope.md: the state after reset (R6, R250), what a step does to the parameters and to the environment's
actions (R106, R214), and the sine's oddness (R6, D5). -/

namespace Sys2Proof.Machine

/-! ### The state after reset -/

theorem dirCtxOK_reset (p : Params) : dirCtxOK p (DirCtx.reset Val) = true := by simp [dirCtxOK, DirCtx.reset]

theorem olaCtxOK_reset (p : Params) : olaCtxOK p (OlaCtx.reset Val) = true := by simp [olaCtxOK, OlaCtx.reset]

theorem stateInv_resetWith {p : Params} (h : p.legal = true) : StateInv (State.resetWith p) where
  params := h
  sorted := rfl
  whole := rfl
  dirCount := List.length_replicate
  olaCount := List.length_replicate
  dirOK := List.all_eq_true.2 fun _ hc => List.eq_of_mem_replicate hc ▸ dirCtxOK_reset p
  olaOK := List.all_eq_true.2 fun _ hc => List.eq_of_mem_replicate hc ▸ olaCtxOK_reset p
  irqLevel := rfl
  busyClear := nofun

/-- Settles O8: the contexts of a reset state are not valid, so nothing is asked of their fields. -/
theorem resetHasInvariant : Obligations.ResetHasInvariant :=
  ⟨fun _ h => stateInv_resetWith h, stateInv_resetWith (by decide)⟩

/-! ### The parameters and the environment's actions -/

/-- A command changes neither the parameters nor the actions to come (R6, R214). -/
theorem exec_keeps {i : Instr} {s t : State} (h : exec i s = .next t) : t.params = s.params ∧ t.host = s.host := by
  have ho := exec_outcome i s
  rw [h] at ho
  cases ho <;> exact ⟨rfl, rfl⟩

/-- A turn of the block changes neither the parameters nor the actions to come (R213). -/
theorem blockTurn_keeps {s t : State} (h : blockTurn s = .next t) : t.params = s.params ∧ t.host = s.host := by
  unfold blockTurn blockStep at h
  split at h
  · split at h
    · exact exec_keeps h
    · rw [raiseError_eq] at h
      cases h
      exact ⟨rfl, rfl⟩
  · cases h
    exact ⟨rfl, rfl⟩

/-- A host read changes neither the parameters nor the actions to come (R72). -/
theorem hostRead_keeps {a : Word} {size : Nat} {s t : State} (h : hostRead a size s = .next t) :
    t.params = s.params ∧ t.host = s.host := by
  rcases hostRead_cases a size s with hf | ⟨x, e, n, hn⟩
  · rw [hf] at h
    cases h
  · rw [hn] at h
    cases h
    exact ⟨rfl, rfl⟩

/-- A host write changes neither the parameters nor the actions to come (R212). -/
theorem hostWrite_keeps (a : Word) (size : Nat) (v : Word) (s : State) :
    (hostWrite a size v s).params = s.params ∧ (hostWrite a size v s).host = s.host := by
  rcases hostWrite_outcome a size v s with h | ⟨t, ht, h⟩ <;> rw [h]
  · exact ⟨rfl, rfl⟩
  · cases ht <;> exact ⟨rfl, rfl⟩

/-- The block's turn takes the environment's list to the actions that come after it (R214). -/
theorem step_blocksTurn_keeps {s t : State} {acts : List Action} (hs : BlocksTurn s acts) (h : step s = .next t) :
    t.params = s.params ∧ t.host = acts := by
  rw [step_blocksTurn hs] at h
  exact blockTurn_keeps h

/-- Settles O9, by cases on the environment's first action. -/
theorem stepConsumesOneAction : Obligations.StepConsumesOneAction := by
  intro s t h
  cases hh : s.host with
  | nil => exact step_blocksTurn_keeps (.inl ⟨hh, rfl⟩) h
  | cons act acts =>
    cases act with
    | read a size =>
      rw [step_read hh] at h
      exact hostRead_keeps h
    | write a size v =>
      rw [step_write hh] at h
      cases h
      exact hostWrite_keeps a size v { s with host := acts }
    | block => exact step_blocksTurn_keeps (.inr (.inl hh)) h
    | reset =>
      rw [step_reset hh] at h
      cases h
      exact ⟨rfl, rfl⟩
    | await n =>
      cases hb : s.statusBusy with
      | false =>
        rw [step_await_idle hh hb] at h
        cases h
        exact ⟨rfl, by simp [atHost]⟩
      | true =>
        by_cases hn : n = 0
        · subst hn
          have hk := step_blocksTurn_keeps (.inr (.inr ⟨acts, hh, hb, rfl⟩)) h
          exact ⟨hk.1, by simpa [hh] using hk.2⟩
        · rw [step_await_busy hh hb hn] at h
          cases h
          exact ⟨rfl, by simp [atHost]⟩

/-! ### The sine -/

theorem fpMask_toNat (f : Fmt) (v : Val) : (fpMask f v).toNat = v.toNat % 2 ^ (f.signBit + 1) := by
  rw [fpMask, BitVec.toNat_ofNat, Nat.mod_eq_of_lt]
  exact (Nat.mod_lt _ (Nat.two_pow_pos _)).trans_le (width_le f)

@[simp] theorem fpAbs_mask (f : Fmt) (v : Val) : fpAbs f (fpMask f v) = fpAbs f v := by
  rw [fpAbs, fpAbs, fpMask_toNat, Nat.mod_mod_of_dvd _ (Nat.pow_dvd_pow 2 (Nat.le_succ _))]

@[simp] theorem fpSign_mask (f : Fmt) (v : Val) : fpSign f (fpMask f v) = fpSign f v := by
  rw [fpSign, fpSign, BitVec.getLsbD, BitVec.getLsbD, fpMask_toNat, Nat.testBit_mod_two_pow,
    decide_eq_true (Nat.lt_succ_self _), Bool.true_and]

/-- Negated twice, a pattern loses the bits above the format's width and no other. -/
theorem fpNeg_fpNeg_eq_mask (f : Fmt) (v : Val) : fpNeg f (fpNeg f v) = fpMask f v := by
  refine eq_of_sign_abs (fpNeg_inWidth f _) (fpMask_inWidth f v) ?_ ?_
  · rw [fpSign_neg, fpSign_neg, Bool.not_not, fpSign_mask]
  · rw [fpAbs_neg, fpAbs_neg, fpAbs_mask]

/-- `SIN_F` of a negative argument (log 2). -/
theorem sinF_of_neg {f : Fmt} {a : Val} (hn : fpIsNaN f a = false) (hs : fpSign f a = true) :
    sinF f a = fpNeg f (fpMask f (Config.sinRaw f (fpNeg f a))) := by
  simp [sinF, hn, hs]

/-- `SIN_F` of an argument with a clear sign bit (log 2). -/
theorem sinF_of_pos {f : Fmt} {a : Val} (hs : fpSign f a = false) :
    sinF f a = fpMask f (Config.sinRaw f (fpMask f a)) := by
  simp [sinF, hs]

/-- Settles O39, by the sign of the argument: its negation takes the other branch of `sinF`. -/
theorem sineIsOdd : Obligations.SineIsOdd := by
  intro f a hn
  have hn' : fpIsNaN f (fpNeg f a) = false := by rw [fpIsNaN_neg, hn]
  cases hs : fpSign f a with
  | false =>
    have hs' : fpSign f (fpNeg f a) = true := by rw [fpSign_neg, hs]; rfl
    rw [sinF_of_neg hn' hs', sinF_of_pos hs, fpNeg_fpNeg_eq_mask]
  | true =>
    have hs' : fpSign f (fpNeg f a) = false := by rw [fpSign_neg, hs]; rfl
    rw [sinF_of_pos hs', sinF_of_neg hn hs, fpNeg_neg (fpMask_inWidth f _), fpMask_of_inWidth (fpNeg_inWidth f a)]

end Sys2Proof.Machine
end

section
/-! Rounding to nearest (R9, D3): `roundMag` first picks a pattern as if the format had no largest finite value, and then
holds it below infinity. -/

namespace Sys2Proof.Machine

/-! ### The nearest pattern -/

/-- How far the size of pattern `a` is from `n / d`, in units of `1 / d`. -/
def sizeDistance (f : Fmt) (n d a : Nat) : Nat := ((magOfBits f a * d : Int) - n).natAbs

/-- No pattern's size is nearer to `n / d` than that of `r`, and where another is equally near, `r` is even. -/
def NearestPattern (f : Fmt) (n d r : Nat) : Prop :=
  ∀ a, sizeDistance f n d r ≤ sizeDistance f n d a ∧ (sizeDistance f n d r = sizeDistance f n d a → a ≠ r → r % 2 = 0)

/-- A pattern whose last bits are those of the significand: a binade holds an even number of patterns. -/
theorem scaled_mod_two (f : Fmt) (k q : Nat) : (k * 2 ^ (f.prec - 1) + q) % 2 = q % 2 := by
  rw [Nat.add_mod, Nat.mul_mod, binade_even, Nat.mul_zero, Nat.zero_mod, Nat.zero_add, Nat.mod_mod]

/-- The distance of a size that is `j` times `2 ^ k`. -/
theorem sizeDistance_of_multiple {f : Fmt} {a j k : Nat} (h : magOfBits f a = j * 2 ^ k) (n d : Nat) :
    sizeDistance f n d a = ((j * (d * 2 ^ k : Nat) : Int) - n).natAbs := by
  rw [sizeDistance, h]
  congr 2
  push_cast
  ring

/-- A size below a multiple that is itself not above `n / d` is farther than that multiple. -/
theorem sizeDistance_lt_of_below {f : Fmt} {a b n d : Nat} (hd : 0 < d) (hab : a < b) (hb : magOfBits f b * d ≤ n) :
    sizeDistance f n d b < sizeDistance f n d a := by
  have hlt : magOfBits f a * d < magOfBits f b * d := Nat.mul_lt_mul_of_pos_right (magOfBits_strictMono f hab) hd
  unfold sizeDistance
  omega

/-- The rounding step is a nearest pattern, held below infinity: patterns from the binade of `n / d` on stand for multiples of the
binade's unit, among which `roundEven` takes the nearest; those below it are farther than the binade's first. -/
theorem roundMag_eq_min_nearest (f : Fmt) (n : Nat) {d : Nat} (hd : 0 < d) :
    ∃ r, roundMag f n d = min r f.infBits ∧ NearestPattern f n d r := by
  obtain ⟨k, q, hround, rfl, hlo, -, hq⟩ := roundMag_spec f n hd
  have hunit : 0 < d * 2 ^ k := Nat.mul_pos hd (Nat.two_pow_pos k)
  have near := roundEven_nearest n hunit
  generalize roundEven n (d * 2 ^ k) = q at hround hlo hq near
  have hr : magOfBits f (k * 2 ^ (f.prec - 1) + q) = q * 2 ^ k := magOfBits_scaled f k (hlo.imp_right And.right) hq
  have hdist := sizeDistance_of_multiple hr n d
  refine ⟨_, hround, fun a => ?_⟩
  by_cases ha : k = 0 ∨ (k + 1) * 2 ^ (f.prec - 1) ≤ a
  · obtain ⟨j, hj⟩ := magOfBits_multiple f k a ha
    rw [hdist, sizeDistance_of_multiple hj, scaled_mod_two]
    refine ⟨(near j).1, fun he hne => (near j).2 he ?_⟩
    rintro rfl
    exact hne (magOfBits_injective f (hj.trans hr.symm))
  · obtain ⟨hk, ha⟩ := not_or.1 ha
    have hn := (hlo.resolve_left hk).1
    have hfirst : magOfBits f ((k + 1) * 2 ^ (f.prec - 1)) = 2 ^ (f.prec - 1) * 2 ^ k := by
      rw [Nat.add_mul, Nat.one_mul]
      exact magOfBits_scaled f k (.inr (le_refl _)) (by omega)
    have hbelow : sizeDistance f n d ((k + 1) * 2 ^ (f.prec - 1)) < sizeDistance f n d a := by
      refine sizeDistance_lt_of_below hd (Nat.lt_of_not_le ha) ?_
      rwa [hfirst, Nat.mul_assoc, Nat.mul_comm (2 ^ k)]
    have hle := (near (2 ^ (f.prec - 1))).1
    rw [sizeDistance_of_multiple hfirst] at hbelow
    rw [hdist]
    push_cast at hle hbelow ⊢
    exact ⟨by omega, fun he => by omega⟩

/-! ### Overflow -/

theorem infBits_pos (f : Fmt) : 0 < f.infBits := by cases f <;> decide

/-- The largest finite value has an odd last bit, so that half a unit above it rounds away from it. -/
theorem maxFinite_odd (f : Fmt) : (f.infBits - 1) % 2 = 1 := by cases f <;> decide

/-- A nearest pattern is at or beyond infinity exactly from half a unit above the largest finite value on (R9). -/
theorem infBits_le_nearest_iff {f : Fmt} {n d r : Nat} (hd : 0 < d) (hr : NearestPattern f n d r) :
    f.infBits ≤ r ↔ (magOfBits f (f.infBits - 1) + magOfBits f f.infBits) * d ≤ 2 * n := by
  have hpos := infBits_pos f
  have mono {a b : Nat} (h : a ≤ b) : magOfBits f a * d ≤ magOfBits f b * d :=
    Nat.mul_le_mul_right d ((magOfBits_strictMono f).monotone h)
  have hlt : magOfBits f (f.infBits - 1) * d < magOfBits f f.infBits * d :=
    Nat.mul_lt_mul_of_pos_right (magOfBits_strictMono f (by omega)) hd
  rw [Nat.add_mul]
  constructor
  · intro h
    have hge := mono h
    have hmax := (hr (f.infBits - 1)).1
    unfold sizeDistance at hmax
    omega
  · intro h
    by_contra hc
    have hle := mono (show r ≤ f.infBits - 1 by omega)
    obtain ⟨hinf, htie⟩ := hr f.infBits
    unfold sizeDistance at hinf htie
    have hsize : magOfBits f r * d = magOfBits f (f.infBits - 1) * d := by omega
    have hreq : r = f.infBits - 1 := magOfBits_injective f (Nat.eq_of_mul_eq_mul_right hd hsize)
    have heven := htie (by omega) (by omega)
    have hodd := maxFinite_odd f
    omega

/-- The rounding step overflows exactly from half a unit above the largest finite value on (R9). -/
theorem roundMag_eq_infBits_iff (f : Fmt) (n : Nat) {d : Nat} (hd : 0 < d) :
    roundMag f n d = f.infBits ↔ (magOfBits f (f.infBits - 1) + magOfBits f f.infBits) * d ≤ 2 * n := by
  obtain ⟨r, hround, hr⟩ := roundMag_eq_min_nearest f n hd
  rw [hround, min_eq_right_iff, infBits_le_nearest_iff hd hr]

/-- Where it does not overflow, the rounding step answers a nearest pattern (R9). -/
theorem roundMag_nearest {f : Fmt} {n d : Nat} (hd : 0 < d) (h : roundMag f n d < f.infBits) :
    NearestPattern f n d (roundMag f n d) := by
  obtain ⟨r, hround, hr⟩ := roundMag_eq_min_nearest f n hd
  have : roundMag f n d = r := by omega
  rwa [this]

/-- Settles O40. -/
theorem roundingIsNearestTiesToEven : Obligations.RoundingIsNearestTiesToEven :=
  fun f n _ hd => ⟨roundMag_eq_infBits_iff f n hd, fun h a _ => roundMag_nearest hd h a⟩

end Sys2Proof.Machine
end

section
/-! The operations on finite operands (R9, D3): each packs the sign of the exact result with its rounded size. -/

namespace Sys2Proof.Machine

/-! ### Signed sizes -/

/-- The integer of this sign and size. -/
def signedInt (neg : Bool) (n : Nat) : Int := if neg then -(n : Int) else n

theorem fpInt_eq_signedInt (f : Fmt) (v : Val) : fpInt f v = signedInt (fpSign f v) (fpMag f v) := rfl

@[simp] theorem signedInt_natAbs (neg : Bool) (n : Nat) : (signedInt neg n).natAbs = n := by
  cases neg <;> simp [signedInt]

@[simp] theorem signedInt_eq_zero {neg : Bool} {n : Nat} : signedInt neg n = 0 ↔ n = 0 := by
  cases neg <;> simp [signedInt]

theorem signedInt_not (neg : Bool) (n : Nat) : signedInt (!neg) n = -signedInt neg n := by
  cases neg <;> simp [signedInt]

/-- Signs multiply, and so do sizes. -/
theorem signedInt_mul (s t : Bool) (m n : Nat) : signedInt s m * signedInt t n = signedInt (s != t) (m * n) := by
  cases s <;> cases t <;> simp [signedInt]

theorem signedInt_mul_natCast (neg : Bool) (m n : Nat) : signedInt neg m * n = signedInt neg (m * n) := by
  cases neg <;> simp [signedInt]

theorem signedInt_sign {n : Nat} (neg : Bool) (hn : n ≠ 0) : (signedInt neg n).sign = signedInt neg 1 := by
  have hs : (n : Int).sign = 1 := Int.sign_eq_one_of_pos (by omega)
  cases neg <;> simp [signedInt, hs]

/-- The sign of a signed size that is not zero. -/
theorem signedInt_neg_iff {neg : Bool} {n : Nat} (hn : n ≠ 0) : signedInt neg n < 0 ↔ neg = true := by
  cases neg with
  | false => simp [signedInt]
  | true => simpa [signedInt] using Nat.pos_of_ne_zero hn

/-- An integer is its sign and its size. -/
theorem signedInt_of_int (x : Int) : signedInt (decide (x < 0)) x.natAbs = x := by
  by_cases h : x < 0
  · rw [decide_eq_true h, signedInt, if_pos rfl]
    omega
  · rw [decide_eq_false h, signedInt, if_neg Bool.false_ne_true]
    omega

/-- Two integers of one sign are as far apart as their sizes. -/
theorem signedInt_sub_natAbs (neg : Bool) (m n : Nat) :
    (signedInt neg m - signedInt neg n).natAbs = ((m : Int) - n).natAbs := by
  cases neg with
  | false => rfl
  | true =>
    simp only [signedInt, if_true]
    omega

/-- Two integers of different signs are as far apart as the sum of their sizes. -/
theorem signedInt_sub_natAbs_of_ne {s t : Bool} (h : s ≠ t) (m n : Nat) :
    (signedInt s m - signedInt t n).natAbs = m + n := by
  cases s <;> cases t <;> simp [signedInt] at h ⊢ <;> omega

/-! ### The packed rounded size -/

theorem magOfBits_eq_zero {f : Fmt} {a : Nat} : magOfBits f a = 0 ↔ a = 0 := by
  have h0 : magOfBits f 0 = 0 := by simp [magOfBits]
  exact ⟨fun h => magOfBits_injective f (h.trans h0.symm), fun h => h ▸ h0⟩

theorem fpMag_eq_zero {f : Fmt} {v : Val} : fpMag f v = 0 ↔ fpIsZero f v = true := by
  rw [fpMag, magOfBits_eq_zero, fpIsZero, decide_eq_true_iff]

theorem fpInt_eq_zero {f : Fmt} {v : Val} : fpInt f v = 0 ↔ fpIsZero f v = true := by
  rw [fpInt_eq_signedInt, signedInt_eq_zero, fpMag_eq_zero]

theorem roundMag_zero (f : Fmt) {d : Nat} (hd : 0 < d) : roundMag f 0 d = 0 := by
  have h0 : magOfBits f 0 = 0 := magOfBits_eq_zero.2 rfl
  simpa [h0] using roundMag_exact f hd (Nat.zero_le f.infBits)

/-- The distance of a value from an exact one of its own sign is that of the sizes. -/
theorem distance_same_sign (f : Fmt) (v : Val) (n d : Nat) :
    (fpInt f v * d - signedInt (fpSign f v) n).natAbs = sizeDistance f n d (fpAbs f v) := by
  rw [fpInt_eq_signedInt, signedInt_mul_natCast, signedInt_sub_natAbs, sizeDistance, fpMag, Nat.cast_mul]

/-- The distance of a value from an exact one of the other sign is the sum of the sizes. -/
theorem distance_other_sign {f : Fmt} {v : Val} {neg : Bool} (h : fpSign f v ≠ neg) (n d : Nat) :
    (fpInt f v * d - signedInt neg n).natAbs = fpMag f v * d + n := by
  rw [fpInt_eq_signedInt, signedInt_mul_natCast, signedInt_sub_natAbs_of_ne h]

/-- A value of the exact value's sign whose size is a nearest one is a nearest value (R9): a value of the other sign is farther than
the zero is. -/
theorem nearest_value {f : Fmt} {r : Val} {n d : Nat} (hr : NearestPattern f n d (fpAbs f r)) (c : Val) :
    let distance (x : Val) : Nat := (fpInt f x * d - signedInt (fpSign f r) n).natAbs
    distance r ≤ distance c ∧ (distance c = distance r → fpInt f c ≠ fpInt f r → fpAbs f r % 2 = 0) := by
  intro distance
  have hdr : distance r = sizeDistance f n d (fpAbs f r) := distance_same_sign f r n d
  by_cases hs : fpSign f c = fpSign f r
  · have hdc : distance c = sizeDistance f n d (fpAbs f c) := by
      rw [← distance_same_sign, hs]
    rw [hdr, hdc]
    refine ⟨(hr _).1, fun he hne => (hr _).2 he.symm fun ha => hne ?_⟩
    rw [fpInt_eq_signedInt, fpInt_eq_signedInt, hs, fpMag, fpMag, ha]
  · have hdc : distance c = fpMag f c * d + n := distance_other_sign hs n d
    have h0 := hr 0
    have hzero : sizeDistance f n d 0 = n := by simp [sizeDistance, magOfBits_eq_zero.2]
    rw [hzero] at h0
    rw [hdr, hdc]
    refine ⟨by omega, fun he _ => ?_⟩
    by_cases ha : fpAbs f r = 0
    · rw [ha]
    · exact h0.2 (by omega) (Ne.symm ha)

/-- The rounded size of an exact value, packed with the exact value's sign, is that value rounded to nearest (R9, D3); a zero keeps
the sign it is given. -/
theorem roundsTo_pack (f : Fmt) {num : Int} {n d : Nat} {neg zeroNeg : Bool} (hd : 0 < d)
    (hnum : num = signedInt neg n) (hz : n = 0 → neg = zeroNeg) :
    RoundsTo f num d zeroNeg (fpPack f neg (roundMag f n d)) := by
  subst hnum
  have hle := roundMag_le f n d
  have habs : fpAbs f (fpPack f neg (roundMag f n d)) = roundMag f n d := fpAbs_pack_le hle
  have hsign : fpSign f (fpPack f neg (roundMag f n d)) = neg := fpSign_pack_le hle
  refine ⟨fpInWidth_pack_le hle, fpIsNaN_pack hle, ?_, ?_, fun hfin c _ => ?_⟩
  · rw [hsign]
    by_cases hn : n = 0
    · rw [if_pos (signedInt_eq_zero.2 hn), hz hn]
    · rw [if_neg (mt signedInt_eq_zero.1 hn), Bool.eq_iff_iff, decide_eq_true_iff, signedInt_neg_iff hn]
  · rw [fpIsInf, habs, decide_eq_true_iff, signedInt_natAbs, roundMag_eq_infBits_iff f n hd]
  · rw [fpIsFinite, habs, decide_eq_true_iff] at hfin
    have hnear : NearestPattern f n d (fpAbs f (fpPack f neg (roundMag f n d))) := by
      rw [habs]
      exact roundMag_nearest hd hfin
    have h := nearest_value hnear c
    rwa [hsign] at h

/-- A whole number of units, rounded. -/
theorem roundsTo_fpOfInt (f : Fmt) (zeroNeg : Bool) (x : Int) : RoundsTo f x 1 zeroNeg (fpOfInt f zeroNeg x) := by
  unfold fpOfInt
  split
  · rename_i hx
    rw [← roundMag_zero f Nat.one_pos]
    exact roundsTo_pack f Nat.one_pos (by rw [hx, signedInt_eq_zero.2 rfl]) fun _ => rfl
  · rename_i hx
    exact roundsTo_pack f Nat.one_pos (signedInt_of_int x).symm fun h => absurd (Int.natAbs_eq_zero.1 h) hx

/-! ### Each operation on finite operands -/

theorem not_inf_of_finite {f : Fmt} {v : Val} (h : fpIsFinite f v = true) : fpIsInf f v = false := by
  rw [fpIsFinite, decide_eq_true_iff] at h
  rw [fpIsInf, decide_eq_false_iff_not]
  omega

theorem fpInt_neg (f : Fmt) (v : Val) : fpInt f (fpNeg f v) = -fpInt f v := by
  rw [fpInt_eq_signedInt, fpSign_neg, fpMag_neg, signedInt_not, ← fpInt_eq_signedInt]

section Finite

variable {f : Fmt} {a b : Val}

theorem fpAdd_finite (draw : Val) (ha : fpIsFinite f a = true) (hb : fpIsFinite f b = true) :
    fpAdd f draw a b = fpOfInt f (fpSign f a && fpSign f b) (fpInt f a + fpInt f b) := by
  simp [fpAdd, not_nan_of_finite ha, not_nan_of_finite hb, not_inf_of_finite ha, not_inf_of_finite hb]

theorem fpMul_finite (draw : Val) (ha : fpIsFinite f a = true) (hb : fpIsFinite f b = true) :
    fpMul f draw a b = fpPack f (fpSign f a != fpSign f b) (roundMag f (fpMag f a * fpMag f b) (2 ^ f.scale)) := by
  simp [fpMul, not_nan_of_finite ha, not_nan_of_finite hb, not_inf_of_finite ha, not_inf_of_finite hb]

theorem fpDiv_finite (draw : Val) (ha : fpIsFinite f a = true) (hb : fpIsFinite f b = true)
    (h0 : fpIsZero f b = false) :
    fpDiv f draw a b = fpPack f (fpSign f a != fpSign f b) (roundMag f (fpMag f a * 2 ^ f.scale) (fpMag f b)) := by
  simp [fpDiv, not_nan_of_finite ha, not_nan_of_finite hb, not_inf_of_finite ha, not_inf_of_finite hb, h0]

theorem fpDiv_by_zero (draw : Val) (ha : fpIsFinite f a = true) (hb : fpIsFinite f b = true)
    (h0 : fpIsZero f b = true) :
    fpDiv f draw a b =
      if fpIsZero f a then fpNaN f draw else fpPack f (fpSign f a != fpSign f b) f.infBits := by
  simp [fpDiv, not_nan_of_finite ha, not_nan_of_finite hb, not_inf_of_finite ha, not_inf_of_finite hb, h0]

theorem roundsTo_fpAdd (draw : Val) (ha : fpIsFinite f a = true) (hb : fpIsFinite f b = true) :
    RoundsTo f (fpInt f a + fpInt f b) 1 (fpSign f a && fpSign f b) (fpAdd f draw a b) := by
  rw [fpAdd_finite draw ha hb]
  exact roundsTo_fpOfInt f _ _

theorem roundsTo_fpSub (draw : Val) (ha : fpIsFinite f a = true) (hb : fpIsFinite f b = true) :
    RoundsTo f (fpInt f a - fpInt f b) 1 (fpSign f a && !fpSign f b) (fpSub f draw a b) := by
  have h := roundsTo_fpAdd draw ha (show fpIsFinite f (fpNeg f b) = true by rw [fpIsFinite_neg, hb])
  rwa [fpInt_neg, fpSign_neg, ← sub_eq_add_neg] at h

theorem roundsTo_fpMul (draw : Val) (ha : fpIsFinite f a = true) (hb : fpIsFinite f b = true) :
    RoundsTo f (fpInt f a * fpInt f b) (2 ^ f.scale) (fpSign f a != fpSign f b) (fpMul f draw a b) := by
  rw [fpMul_finite draw ha hb]
  exact roundsTo_pack f (Nat.two_pow_pos _) (signedInt_mul ..) fun _ => rfl

/-- The quotient, as a fraction whose denominator is the divisor's size: the divisor's sign goes to the numerator. -/
theorem roundsTo_fpDiv (draw : Val) (ha : fpIsFinite f a = true) (hb : fpIsFinite f b = true) (h0 : fpInt f b ≠ 0) :
    RoundsTo f ((fpInt f b).sign * (fpInt f a * (2 ^ f.scale : Nat))) (fpInt f b).natAbs (fpSign f a != fpSign f b)
      (fpDiv f draw a b) := by
  have hz : fpIsZero f b = false := Bool.eq_false_iff.2 (mt fpInt_eq_zero.2 h0)
  have hm : fpMag f b ≠ 0 := mt fpMag_eq_zero.1 (Bool.eq_false_iff.1 hz)
  rw [fpDiv_finite draw ha hb hz, fpInt_eq_signedInt f b, signedInt_natAbs]
  refine roundsTo_pack f (Nat.pos_of_ne_zero hm) ?_ fun _ => rfl
  rw [signedInt_sign _ hm, fpInt_eq_signedInt, signedInt_mul_natCast, mul_comm, signedInt_mul, Nat.mul_one]

theorem fpDiv_by_zero_nan (draw : Val) (ha : fpIsFinite f a = true) (hb : fpIsFinite f b = true)
    (hb0 : fpInt f b = 0) (ha0 : fpInt f a = 0) : fpIsNaN f (fpDiv f draw a b) = true := by
  rw [fpDiv_by_zero draw ha hb (fpInt_eq_zero.1 hb0), if_pos (fpInt_eq_zero.1 ha0)]
  exact fpIsNaN_nan f draw

theorem fpDiv_by_zero_inf (draw : Val) (ha : fpIsFinite f a = true) (hb : fpIsFinite f b = true)
    (hb0 : fpInt f b = 0) (ha0 : fpInt f a ≠ 0) :
    fpIsInf f (fpDiv f draw a b) = true ∧ fpSign f (fpDiv f draw a b) = (fpSign f a != fpSign f b) := by
  rw [fpDiv_by_zero draw ha hb (fpInt_eq_zero.1 hb0), if_neg (mt fpInt_eq_zero.2 ha0)]
  exact ⟨decide_eq_true (fpAbs_pack_le (le_refl _)), fpSign_pack_le (le_refl _)⟩

end Finite

/-- `F(r)` of a fraction (R9). -/
theorem roundsTo_fpOfRatio (f : Fmt) (neg : Bool) (n : Nat) {d : Nat} (hd : 0 < d) :
    RoundsTo f (signedInt neg n * (2 ^ f.scale : Nat)) d neg (fpOfRatio f neg n d) :=
  roundsTo_pack f hd (signedInt_mul_natCast ..) fun _ => rfl

/-- Settles O60. -/
theorem arithmeticRoundsExactResults : Obligations.ArithmeticRoundsExactResults :=
  fun f draw _ _ ha hb =>
    ⟨roundsTo_fpAdd draw ha hb, roundsTo_fpSub draw ha hb, roundsTo_fpMul draw ha hb, roundsTo_fpDiv draw ha hb,
      fun hb0 => ⟨fpDiv_by_zero_nan draw ha hb hb0, fpDiv_by_zero_inf draw ha hb hb0⟩,
      fun neg n _ hd => roundsTo_fpOfRatio f neg n hd⟩

end Sys2Proof.Machine
end

section
/-! What a step can be, and the invariant of the machine (R26, R41, R43, R44, R47, R61, R80): each change to the state keeps it where
the new part is legal, and the outcomes of commands and of accesses are made of such changes. -/

namespace Sys2Proof.Machine

/-! ### What a step can be -/

/-- Every step (R214): a turn of the block, a host read (a poll of an `await` among them), a host write or a reset, with the
environment's list moved on. -/
inductive StepOutcome (s : State) : Result → Prop
  | block (acts : List Action) : StepOutcome s (blockTurn { s with host := acts })
  | read (acts : List Action) (a : Word) (size : Nat) : StepOutcome s (hostRead a size { s with host := acts })
  | write (acts : List Action) (a v : Word) (size : Nat) :
      StepOutcome s (.next (hostWrite a size v { s with host := acts }))
  | reset (acts : List Action) : StepOutcome s (.next (resetAction { s with host := acts }))

theorem step_outcome (s : State) : StepOutcome s (step s) := by
  cases hh : s.host with
  | nil => exact step_blocksTurn (.inl ⟨hh, rfl⟩) ▸ .block []
  | cons act acts =>
    cases act with
    | read a size => exact step_read hh ▸ .read acts a size
    | write a size v => exact step_write hh ▸ .write acts a v size
    | block => exact step_blocksTurn (.inr (.inl hh)) ▸ .block acts
    | reset => exact step_reset hh ▸ .reset acts
    | await n =>
      cases hb : s.statusBusy with
      | false => exact step_await_idle hh hb ▸ .read acts 0x008 32
      | true =>
        by_cases hn : n = 0
        · subst hn
          exact step_blocksTurn (.inr (.inr ⟨acts, hh, hb, rfl⟩)) ▸ .block s.host
        · exact step_await_busy hh hb hn ▸ .read (.await (n - 1) :: acts) 0x008 32

/-! ### Changes that keep the invariant -/

/-- The model's own fields are free (logs 4, 8 and 11). -/
theorem StateInv.withEnvironment {s : State} (h : StateInv s) (host : List Action) (rs : List Response) (n : Nat) :
    StateInv { s with host := host, responses := rs, draws := n } :=
  { h with }

/-- The result registers are free (R34). -/
theorem StateInv.withResults {s : State} (h : StateInv s) (r0 r1 : Word) : StateInv { s with res0 := r0, res1 := r1 } :=
  { h with }

/-- A completion lowers `BUSY` and makes `irq` follow `DONE` = 1 (R222, R223). -/
theorem StateInv.withCompletion {s : State} (h : StateInv s) (e : ErrCode) : StateInv (completed e s) :=
  { h with irqLevel := (Bool.and_true _).symm, busyClear := nofun }

theorem StateInv.withMem {s : State} (h : StateInv s) {m : Memory} (hs : memSorted m = true)
    (hw : memWhole s.params m = true) : StateInv (setMem m s) :=
  { h with sorted := hs, whole := hw }

/-- An output sequence in range keeps DMEM canonical and whole (R68, R69). -/
theorem StateInv.withDst {s : State} (h : StateInv s) {vs : List Val}
    (hr : rangeOK s.params (dstIndex s) vs.length = true) : StateInv (writeDst vs s) := by
  refine h.withMem (memSorted_memWrite _ _ _ _ h.sorted) (memWhole_memWrite _ _ _ _ ?_ h.whole)
  rw [← List.length_eq_zero_iff]
  exact ((rangeOK_iff _ _ _).1 hr).symm

/-- All members of a list still pass a check after a member that passes it is put in. -/
theorem all_set {α : Type} {p : α → Bool} {l : List α} {x : α} (i : Nat) (hl : l.all p = true) (hx : p x = true) :
    (l.set i x).all p = true := by
  rw [List.all_eq_true] at hl ⊢
  intro y hy
  rcases List.mem_or_eq_of_mem_set hy with hy | rfl
  · exact hl y hy
  · exact hx

theorem StateInv.withDir {s : State} (h : StateInv s) (d : Nat) {c : DirCtx Val} (hc : dirCtxOK s.params c = true) :
    StateInv (setDir d c s) :=
  { h with dirCount := List.length_set.trans h.dirCount, dirOK := all_set d h.dirOK hc }

theorem StateInv.withOla {s : State} (h : StateInv s) (o : Nat) {c : OlaCtx Val} (hc : olaCtxOK s.params c = true) :
    StateInv (setOla o c s) :=
  { h with olaCount := List.length_set.trans h.olaCount, olaOK := all_set o h.olaOK hc }

/-! ### The contexts a command reads -/

/-- Any direct context of a legal state is legal, and so is the reset one past the list's end (R41). -/
theorem StateInv.dirCtx_legal {s : State} (h : StateInv s) (d : Nat) : dirCtxOK s.params (dirCtx s d) = true := by
  rw [dirCtx, List.getD_eq_getElem?_getD]
  cases hd : s.dir[d]? with
  | none => exact dirCtxOK_reset _
  | some c => exact List.all_eq_true.1 h.dirOK c (List.mem_of_getElem? hd)

/-- Any overlap-add context of a legal state is legal, and so is the reset one past the list's end (R43, R44). -/
theorem StateInv.olaCtx_legal {s : State} (h : StateInv s) (o : Nat) : olaCtxOK s.params (olaCtx s o) = true := by
  rw [olaCtx, List.getD_eq_getElem?_getD]
  cases ho : s.ola[o]? with
  | none => exact olaCtxOK_reset _
  | some c => exact List.all_eq_true.1 h.olaOK c (List.mem_of_getElem? ho)

/-! ### Commands -/

/-- A design writes as many outputs as it checked the range for (R69, R133). -/
theorem runDesign_keeps_inv {t : FilterType} {norm : Bool} {s u : State} (h : StateInv s)
    (he : runDesign t norm s = .next u) : StateInv u := by
  have ho := runDesign_outcome t norm s
  rw [he] at ho
  cases ho with
  | error e => exact h.withCompletion e
  | success w fc v hn hw hr hsrc haux hc hv =>
    obtain ⟨_, _, hdst⟩ := (designRangesOK_iff s t).1 hr
    have hlen : v.length = lenCount s := (designTaps_shape hv).1
    exact ((h.withDst (hlen ▸ hdst)).withCompletion .ok).withResults _ _

theorem execDirInit_keeps_inv {ctx : BitVec 4} {s u : State} (h : StateInv s) (he : execDirInit ctx s = .next u) :
    StateInv u := by
  have ho := execDirInit_outcome ctx s
  rw [he] at ho
  cases ho with
  | error e => exact h.withCompletion e
  | success T hctx hn hcap hr hT =>
    have hlen : T.length = lenCount s := memRead_length hT
    have hc := dirCtxOK_construct (p := s.params) (by omega) (by omega) (memRead_allInWidth hT)
    exact ((h.withDir ctx.toNat hc).withCompletion .ok).withResults _ _

/-- A stream leaves the direct context legal (R41) and writes as many outputs as inputs (R165). -/
theorem execDirApply_keeps_inv {ctx : BitVec 4} {s u : State} (h : StateInv s) (he : execDirApply ctx s = .next u) :
    StateInv u := by
  have ho := execDirApply_outcome ctx s
  rw [he] at ho
  cases ho with
  | error e => exact h.withCompletion e
  | success x hctx hv hr hd hx =>
    have hlen : x.length = lenCount s := memRead_length hx
    have hc := dirCtxOK_pushAll (h.dirCtx_legal ctx.toNat) hv (memRead_allInWidth hx)
    rw [← dirStream_fst (fpArith s.params.fmt (nanDraws s)) 0] at hc
    have hout : rangeOK s.params (dstIndex s)
        (dirStream (fpArith s.params.fmt (nanDraws s)) 0 (dirCtx s ctx.toNat) x).2.length = true := by
      rw [dirStream_length, hlen]
      exact hd
    exact (((h.withDst hout).withDir ctx.toNat hc).withCompletion .ok).withResults _ _

/-- Nothing is asked of a released context (R41, R166). -/
theorem execDirRel_keeps_inv {ctx : BitVec 4} {s u : State} (h : StateInv s) (he : execDirRel ctx s = .next u) :
    StateInv u := by
  rw [execDirRel_eq] at he
  split at he <;> cases he
  · exact h.withCompletion _
  · exact (h.withDir ctx.toNat (c := { dirCtx s ctx.toNat with valid := false }) rfl).withCompletion .ok

theorem execOlaInit_keeps_inv {ctx : BitVec 4} {s u : State} (h : StateInv s) (he : execOlaInit ctx s = .next u) :
    StateInv u := by
  have ho := execOlaInit_outcome ctx s
  rw [he] at ho
  cases ho with
  | error e => exact h.withCompletion e
  | success T hctx hn hcap hb hr hT =>
    have hlen : T.length = lenCount s := memRead_length hT
    have hc := olaCtxOK_construct (p := s.params) (breq := auxIndex s) (by omega) (by omega) (hlen ▸ hb)
      (memRead_allInWidth hT)
    rw [hlen] at hc
    exact ((h.withOla ctx.toNat hc).withCompletion .ok).withResults _ _

/-- A stream leaves the overlap-add context legal (R43, R44) and writes the outputs of R195's count. -/
theorem execOlaApply_keeps_inv {ctx : BitVec 4} {s u : State} (h : StateInv s) (he : execOlaApply ctx s = .next u) :
    StateInv u := by
  have ho := execOlaApply_outcome ctx s
  rw [he] at ho
  cases ho with
  | error e => exact h.withCompletion e
  | success x hctx hv hr hd hx =>
    have hlen : x.length = lenCount s := memRead_length hx
    have hlegal := h.olaCtx_legal ctx.toNat
    have hc := olaCtxOK_stream (nanDraws s) 0 hlegal hv (memRead_allInWidth hx)
    obtain ⟨_, _, _, _, _, _, _, hcount⟩ := olaStream_shape (fpArith s.params.fmt (nanDraws s)) (xconv s.params.fmt)
      (xconv_length _) 0 (olaShape_of_ok hlegal hv) x
    have hout : rangeOK s.params (dstIndex s)
        (olaStream (fpArith s.params.fmt (nanDraws s)) (xconv s.params.fmt) 0 (olaCtx s ctx.toNat) x).2.length = true := by
      rw [hcount, hlen]
      exact hd
    exact (((h.withDst hout).withOla ctx.toNat hc).withCompletion .ok).withResults _ _

/-- Nothing is asked of a released context (R43, R189). -/
theorem execOlaRel_keeps_inv {ctx : BitVec 4} {s u : State} (h : StateInv s) (he : execOlaRel ctx s = .next u) :
    StateInv u := by
  rw [execOlaRel_eq] at he
  split at he <;> cases he
  · exact h.withCompletion _
  · exact (h.withOla ctx.toNat (c := { olaCtx s ctx.toNat with valid := false }) rfl).withCompletion .ok

theorem exec_keeps_inv {i : Instr} {s u : State} (h : StateInv s) (he : exec i s = .next u) : StateInv u := by
  cases i with
  | nop =>
    cases he.symm.trans (doneKeep_eq s)
    exact h.withCompletion .ok
  | dsgnLp norm => exact runDesign_keeps_inv h he
  | dsgnHp norm => exact runDesign_keeps_inv h he
  | dsgnBp norm => exact runDesign_keeps_inv h he
  | dsgnBs norm => exact runDesign_keeps_inv h he
  | dirInit ctx => exact execDirInit_keeps_inv h he
  | dirApply ctx => exact execDirApply_keeps_inv h he
  | dirRel ctx => exact execDirRel_keeps_inv h he
  | olaInit ctx => exact execOlaInit_keeps_inv h he
  | olaApply ctx => exact execOlaApply_keeps_inv h he
  | olaRel ctx => exact execOlaRel_keeps_inv h he

/-! ### The four kinds of step -/

theorem blockTurn_keeps_inv {s u : State} (h : StateInv s) (he : blockTurn s = .next u) : StateInv u := by
  unfold blockTurn blockStep at he
  split at he
  · split at he
    · exact exec_keeps_inv h he
    · cases he.symm.trans (raiseError_eq .illegalCmd s)
      exact h.withCompletion .illegalCmd
  · cases he
    exact h

theorem hostRead_keeps_inv {a : Word} {size : Nat} {s u : State} (h : StateInv s) (he : hostRead a size s = .next u) :
    StateInv u := by
  rcases hostRead_cases a size s with hf | ⟨x, e, n, hn⟩
  · cases he.symm.trans hf
  · cases he.symm.trans hn
    exact h.withEnvironment _ _ _

/-- What a legal write leaves once `irq` follows it (R47, R212). -/
theorem writeOutcome_keeps_inv {v : Word} {s t : State} (h : StateInv s) (ho : WriteOutcome v s t) :
    StateInv (refreshIrq t) := by
  cases ho with
  | unchanged => exact (refreshIrq_of_level h.irqLevel).symm ▸ h
  | ctrl => exact { h with irqLevel := rfl }
  | status =>
    refine { h with irqLevel := rfl, busyClear := fun hb => ?_ }
    obtain ⟨hdone, herr⟩ := h.busyClear hb
    exact ⟨by simp [statusWrite, hdone], herr⟩
  | dropped => exact { h with irqLevel := rfl }
  | issued => exact { h with irqLevel := rfl, busyClear := fun _ => ⟨rfl, rfl⟩ }
  | argument => exact { h with irqLevel := rfl }
  | dmem hb a h4 hlo hhi =>
    exact { h.withMem (memSorted_writeWord _ a v h.sorted) (memWhole_writeWord _ _ a v h4 hlo hhi h.whole) with
      irqLevel := rfl }

theorem hostWrite_keeps_inv {s : State} (h : StateInv s) (a : Word) (size : Nat) (v : Word) :
    StateInv (hostWrite a size v s) := by
  rcases hostWrite_outcome a size v s with he | ⟨t, ht, he⟩ <;> rw [he]
  · exact h.withEnvironment _ _ _
  · exact (writeOutcome_keeps_inv h ht).withEnvironment _ _ _

theorem resetAction_inv {s : State} (h : StateInv s) : StateInv (resetAction s) :=
  (stateInv_resetWith h.params).withEnvironment _ _ _

/-- Settles O7: by the kinds of step, each of which keeps the invariant. -/
theorem stepKeepsInvariant : Obligations.StepKeepsInvariant := by
  intro s t h he
  have hacts := fun acts => h.withEnvironment acts s.responses s.draws
  have ho := step_outcome s
  generalize hr : step s = r at ho
  rw [he] at hr
  cases ho with
  | block acts => exact blockTurn_keeps_inv (hacts acts) hr.symm
  | read acts a size => exact hostRead_keeps_inv (hacts acts) hr.symm
  | write acts a v size =>
    cases hr
    exact hostWrite_keeps_inv (hacts acts) a size v
  | reset acts =>
    cases hr
    exact resetAction_inv (hacts acts)

end Sys2Proof.Machine
end

section
/-! Registers and flags: what each register offset reads (R24 to R39), what a write to it does (R27, R28, R39), what a reset leaves
(R250) and a completion keeps (R21, R223), and the logical history of a direct context (R42). -/

namespace Sys2Proof.Machine

/-! ### What each offset reads -/

@[simp] theorem regRead_id (s : State) : regRead s 0x000 = 0x4B465231 := rfl
@[simp] theorem regRead_ctrl (s : State) : regRead s 0x004 = ctrlWord s := rfl
@[simp] theorem regRead_status (s : State) : regRead s 0x008 = statusWord s := rfl
@[simp] theorem regRead_cmd (s : State) : regRead s 0x00C = s.cmd := rfl
@[simp] theorem regRead_aSrc (s : State) : regRead s 0x010 = s.aSrc := rfl
@[simp] theorem regRead_aDst (s : State) : regRead s 0x014 = s.aDst := rfl
@[simp] theorem regRead_aLen (s : State) : regRead s 0x018 = s.aLen := rfl
@[simp] theorem regRead_aAux (s : State) : regRead s 0x01C = s.aAux := rfl
@[simp] theorem regRead_aWlen (s : State) : regRead s 0x020 = s.aWlen := rfl
@[simp] theorem regRead_res0 (s : State) : regRead s 0x024 = s.res0 := rfl
@[simp] theorem regRead_res1 (s : State) : regRead s 0x028 = s.res1 := rfl
@[simp] theorem regRead_cfg0 (s : State) : regRead s 0x02C = cfg0Word s.params := rfl
@[simp] theorem regRead_maxTaps (s : State) : regRead s 0x030 = BitVec.ofNat 32 s.params.maxTaps := rfl
@[simp] theorem regRead_maxBlock (s : State) : regRead s 0x034 = BitVec.ofNat 32 s.params.maxBlock := rfl
@[simp] theorem regRead_dmemWords (s : State) : regRead s 0x038 = BitVec.ofNat 32 s.params.dmemWords := rfl
@[simp] theorem regRead_ctxv (s : State) : regRead s 0x03C = ctxvWord s := rfl

/-- An unmapped offset (R39). -/
theorem regRead_unmapped (s : State) {a : Nat} (h : 0x040 ≤ a) : regRead s a = 0 := by
  unfold regRead
  iterate 16 rw [if_neg (by omega)]

/-- Two words side by side as a number. -/
theorem append_toNat {m n : Nat} (x : BitVec m) (y : BitVec n) : (x ++ y).toNat = x.toNat * 2 ^ n + y.toNat := by
  rw [BitVec.toNat_append, ← Nat.shiftLeft_add_eq_or_of_lt y.isLt, Nat.shiftLeft_eq]

/-- `CFG0` as a number (R35). -/
theorem cfg0Word_toNat {p : Params} (hd : p.nctxDir ≤ 16) (ho : p.nctxOla ≤ 16) :
    (cfg0Word p).toNat =
      (if p.fmt = .binary64 then 1 else 0) + (p.nctxDir - 1) * 2 ^ 8 + (p.nctxOla - 1) * 2 ^ 12 := by
  have hfmt : (fmtBit p.fmt).toNat = if p.fmt = .binary64 then 1 else 0 := by cases p.fmt <;> rfl
  simp only [cfg0Word, append_toNat, BitVec.toNat_ofNat, hfmt]
  omega

/-- The bounds on the parameters a register shows (R6). -/
theorem legal_bounds {p : Params} (h : p.legal = true) :
    p.nctxDir ≤ 16 ∧ p.nctxOla ≤ 16 ∧ p.maxBlock < 2 ^ 32 ∧ p.dmemWords < 2 ^ 32 := by
  simp only [Params.legal, Bool.and_eq_true, decide_eq_true_eq] at h
  obtain ⟨⟨⟨⟨⟨⟨⟨⟨⟨_, hdir⟩, _⟩, hola⟩, _⟩, _⟩, _⟩, hblock⟩, _⟩, hmem⟩ := h
  have hew := Nat.le_mul_of_pos_right p.dmemWords (show 0 < p.fmt.ew by have := ew_pos p.fmt; omega)
  omega

/-! ### Steps that read and write a register -/

theorem step_readRegister {s : State} {acts : List Action} {a : Word} (hh : s.host = .read a 32 :: acts)
    (h4 : a.toNat % 4 = 0) (hlt : a.toNat < dmemBase) :
    step s = .next
      { s with host := acts, responses := { data := regRead s a.toNat, error := false } :: s.responses } := by
  rw [step_read hh, hostRead_register h4 hlt]
  rfl

theorem step_writeRegister {s : State} {acts : List Action} {a v : Word} (hh : s.host = .write a 32 v :: acts)
    (h4 : a.toNat % 4 = 0) (hlt : a.toNat < dmemBase) :
    step s = .next (respond 0 false (refreshIrq (regWrite a.toNat v { s with host := acts }))) := by
  rw [step_write hh, hostWrite_register h4 hlt]

/-- A register write after which `irq` already follows (R47): the write and the answer. -/
theorem step_writeRegister_level {s t : State} {acts : List Action} {a v : Word}
    (hh : s.host = .write a 32 v :: acts) (h4 : a.toNat % 4 = 0) (hlt : a.toNat < dmemBase)
    (hw : regWrite a.toNat v { s with host := acts } = t) (hirq : t.irq = (t.ctrlIe && t.statusDone)) :
    step s = .next (respond 0 false t) := by
  rw [step_writeRegister hh h4 hlt, hw, refreshIrq_of_level hirq]

/-! ### What a write to each offset does -/

/-- The offsets of the registers that a write can change (R25 to R33). -/
def writableOffsets : List Nat := [0x004, 0x008, 0x00C, 0x010, 0x014, 0x018, 0x01C, 0x020]

/-- A write to an offset that no writable register has changes nothing (R39). -/
theorem regWrite_ignored {a : Nat} (v : Word) (s : State)
    (h : a ∉ writableOffsets) : regWrite a v s = s := by
  simp only [writableOffsets, List.mem_cons, List.not_mem_nil, or_false, not_or] at h
  obtain ⟨h1, h2, h3, h4, h5, h6, h7, h8⟩ := h
  rw [regWrite, if_neg h1, if_neg h2, if_neg h3, if_neg h4, if_neg h5, if_neg h6, if_neg h7, if_neg h8]

theorem regWrite_status (v : Word) (s : State) : regWrite 0x008 v s = statusWrite v s := rfl
theorem regWrite_cmd (v : Word) (s : State) : regWrite 0x00C v s = cmdWrite v s := rfl

/-- A flag under a bit of a written word that clears it (R27). -/
theorem and_not_bit (b : Bool) (v : Word) (k : Nat) :
    (b && !v.getLsbD k) = if v.toNat / 2 ^ k % 2 = 1 then false else b := by
  rw [word_bit]
  by_cases h : v.toNat / 2 ^ k % 2 = 1 <;> simp [h]

/-- A `STATUS` write in the numbers of the written word (R27). -/
theorem statusWrite_eq (v : Word) (s : State) :
    statusWrite v s = { s with
      statusDone := if v.toNat / 2 % 2 = 1 then false else s.statusDone
      statusHaz := if v.toNat / 4 % 2 = 1 then false else s.statusHaz } := by
  rw [statusWrite, and_not_bit, and_not_bit, Nat.pow_one, show 2 ^ 2 = 4 from rfl]

/-- An accepted `CMD` write (R28). -/
theorem cmdWrite_idle (v : Word) {s : State} (hb : s.statusBusy = false) : cmdWrite v s = issueCommand v s := by
  simp [cmdWrite, hb]

/-- An accepted write to an argument register (R29 to R33, R70). -/
theorem regWrite_argument {a : Nat} (v : Word) {s : State} (hb : s.statusBusy = false)
    (h : a ∈ [0x010, 0x014, 0x018, 0x01C, 0x020]) :
    regWrite a v s = { s with
      aSrc := if a = 0x010 then v else s.aSrc
      aDst := if a = 0x014 then v else s.aDst
      aLen := if a = 0x018 then v else s.aLen
      aAux := if a = 0x01C then v else s.aAux
      aWlen := if a = 0x020 then v else s.aWlen } := by
  simp only [List.mem_cons, List.not_mem_nil, or_false] at h
  rcases h with rfl | rfl | rfl | rfl | rfl <;> simp [regWrite, unlessBusy, hb]

/-- A write that is ignored leaves the answer alone behind (R39). -/
theorem step_ignoredWrite {s : State} {acts : List Action} {a v : Word} (hinv : StateInv s)
    (hh : s.host = .write a 32 v :: acts) (h4 : a.toNat % 4 = 0) (hlt : a.toNat < dmemBase)
    (hro : a.toNat ∉ writableOffsets) :
    step s = .next { s with host := acts, responses := { data := 0, error := false } :: s.responses } :=
  step_writeRegister_level hh h4 hlt (regWrite_ignored v _ hro) hinv.irqLevel

/-! ### The statements on registers -/

/-- Settles O15: the write is `statusWrite`, and `irq` follows it. -/
theorem statusWriteClearsDoneAndHaz : Obligations.StatusWriteClearsDoneAndHaz := by
  intro s acts v hh
  rw [step_writeRegister hh (by decide) (by decide), show (0x008 : Word).toNat = 0x008 from rfl, regWrite_status,
    statusWrite_eq]
  rfl

/-- Settles O16: the write is `issueCommand`, and `irq` falls with `DONE`. -/
theorem commandWriteIssuesWhenIdle : Obligations.CommandWriteIssuesWhenIdle := by
  intro s acts v hb hh
  refine ⟨_, ?_, rfl, rfl⟩
  rw [step_writeRegister hh (by decide) (by decide), show (0x00C : Word).toNat = 0x00C from rfl, regWrite_cmd,
    cmdWrite_idle v (s := { s with host := acts }) hb]
  simp [issueCommand, refreshIrq, acceptFlags, respond]

/-- Settles O17: an argument register does not enter `irq`, so the write and the answer are all that happens. -/
theorem argumentRegisterWritesLand : Obligations.ArgumentRegisterWritesLand := by
  intro s acts a v hinv hb hh ha
  obtain ⟨h4, hlt⟩ :=
    (by decide : ∀ n ∈ [0x010, 0x014, 0x018, 0x01C, 0x020], n % 4 = 0 ∧ n < dmemBase) _ ha
  refine ⟨_, step_writeRegister_level hh h4 hlt (regWrite_argument v hb ha) hinv.irqLevel, ?_, rfl⟩
  simp only [List.mem_cons, List.not_mem_nil, or_false] at ha
  rcases ha with ha | ha | ha | ha | ha <;> simp [ha]

/-- Settles O18: the legal parameters fit their registers, and none of the five offsets is writable. -/
theorem constantRegistersReadAndIgnoreWrites : Obligations.ConstantRegistersReadAndIgnoreWrites := by
  intro s acts a hinv ha
  obtain ⟨h4, hlt, hro⟩ :=
    (by decide : ∀ n ∈ [0x000, 0x02C, 0x034, 0x038, 0x03C], n % 4 = 0 ∧ n < dmemBase ∧ n ∉ writableOffsets) _ ha
  obtain ⟨hdir, hola, hblock, hmem⟩ := legal_bounds hinv.params
  refine ⟨fun hh => ⟨_, step_readRegister hh h4 hlt, ?_, ?_, ?_, ?_, ?_⟩, fun v hh =>
    step_ignoredWrite hinv hh h4 hlt hro⟩
  · intro e; rw [e, regRead_id]
  · intro e; rw [e, regRead_cfg0, cfg0Word_toNat hdir hola]
  · intro e; rw [e, regRead_maxBlock, BitVec.toNat_ofNat, Nat.mod_eq_of_lt hblock]
  · intro e; rw [e, regRead_dmemWords, BitVec.toNat_ofNat, Nat.mod_eq_of_lt hmem]
  · intro e k hk; rw [e, regRead_ctxv]; exact ctxvWord_bit s k hk

/-- Settles O19, by the register read at each offset. -/
theorem registerReadsAnswerTheirFields : Obligations.RegisterReadsAnswerTheirFields := by
  intro s acts a ha hh
  obtain ⟨h4, hlt⟩ :=
    (by decide : ∀ n ∈ [0x004, 0x008, 0x00C, 0x010, 0x014, 0x018, 0x01C, 0x020, 0x024, 0x028, 0x030],
      n % 4 = 0 ∧ n < dmemBase) _ ha
  refine ⟨_, step_readRegister hh h4 hlt, ?_, ?_, ?_, ?_, ?_, ?_, ?_, ?_, ?_, ?_, ?_⟩
  · intro e; rw [e, regRead_ctrl, ctrlWord_toNat]
  · intro e; rw [e, regRead_status, statusWord_toNat]
  · intro e; rw [e, regRead_cmd]
  · intro e; rw [e, regRead_aSrc]
  · intro e; rw [e, regRead_aDst]
  · intro e; rw [e, regRead_aLen]
  · intro e; rw [e, regRead_aAux]
  · intro e; rw [e, regRead_aWlen]
  · intro e; rw [e, regRead_res0]
  · intro e; rw [e, regRead_res1]
  · intro e hmax; rw [e, regRead_maxTaps, BitVec.toNat_ofNat, Nat.mod_eq_of_lt hmax]

/-- Settles O20: no such offset is writable. -/
theorem unmappedAndReadOnlyWritesIgnored : Obligations.UnmappedAndReadOnlyWritesIgnored := by
  intro s acts a v hinv h4
  constructor
  · rintro ⟨hlo, hhi⟩ hh
    rw [step_readRegister hh h4 hhi, regRead_unmapped s hlo]
  · intro ha hh
    have ⟨hlt, hro⟩ : a.toNat < dmemBase ∧ a.toNat ∉ writableOffsets := by
      rcases ha with ⟨hlo, hhi⟩ | ha
      · refine ⟨hhi, ?_⟩
        simp only [writableOffsets, List.mem_cons, List.not_mem_nil, or_false]
        omega
      · exact (by decide : ∀ n ∈ [0x000, 0x024, 0x028, 0x02C, 0x030, 0x034, 0x038, 0x03C],
          n < dmemBase ∧ n ∉ writableOffsets) _ ha
    exact step_ignoredWrite hinv hh h4 hlt hro

/-! ### Reset and completion -/

theorem dirCtx_resetWith (p : Params) (d : Nat) : dirCtx (State.resetWith p) d = DirCtx.reset Val := by
  simp only [dirCtx, State.resetWith, List.getD_eq_getElem?_getD, List.getElem?_replicate]
  split <;> rfl

theorem olaCtx_resetWith (p : Params) (o : Nat) : olaCtx (State.resetWith p) o = OlaCtx.reset Val := by
  simp only [olaCtx, State.resetWith, List.getD_eq_getElem?_getD, List.getElem?_replicate]
  split <;> rfl

theorem ctxvWord_resetWith (p : Params) : ctxvWord (State.resetWith p) = 0 := by
  have hd : dirValidBit (State.resetWith p) = fun _ => false := by
    funext d
    rw [dirValidBit, ← dirCtx, dirCtx_resetWith]
    exact Bool.and_false _
  have ho : olaValidBit (State.resetWith p) = fun _ => false := by
    funext o
    rw [olaValidBit, ← olaCtx, olaCtx_resetWith]
    exact Bool.and_false _
  rw [ctxvWord, hd, ho]
  rfl

theorem ctrlWord_resetWith (p : Params) : ctrlWord (State.resetWith p) = 0 :=
  BitVec.eq_of_toNat_eq (ctrlWord_toNat _)

theorem statusWord_resetWith (p : Params) : statusWord (State.resetWith p) = 0 :=
  BitVec.eq_of_toNat_eq (statusWord_toNat _)

/-- Settles O10, by the reset state's registers, contexts and `CTXV`. -/
theorem resetClearsTheMachine : Obligations.ResetClearsTheMachine := by
  intro s acts hh
  exact ⟨_, step_reset hh, rfl, rfl, ctrlWord_resetWith s.params, statusWord_resetWith s.params,
    rfl, rfl, rfl, rfl, rfl, rfl, rfl, rfl, rfl,
    fun d => congrArg DirCtx.valid (dirCtx_resetWith s.params d),
    fun o => congrArg OlaCtx.valid (olaCtx_resetWith s.params o),
    fun _ => rfl, rfl, rfl, rfl, rfl, rfl, rfl, ctxvWord_resetWith s.params⟩

/-- Settles O28, by the outcomes of a command. -/
theorem completionSetsFlagsAndKeepsOperands : Obligations.CompletionSetsFlagsAndKeepsOperands := by
  intro i s t h
  have ho := exec_outcome i s
  rw [h] at ho
  cases ho <;> exact ⟨rfl, rfl, rfl, rfl, rfl, rfl, rfl, rfl, rfl, rfl, rfl, rfl, rfl, rfl⟩

/-! ### The history of a direct context -/

/-- Consecutive calls push all their samples in order (R42, R168). -/
theorem dirCalls_fst (f : Fmt) (nans : Nat → Nat → Nat → Val) (q : Nat) (c : DirCtx Val) (calls : List (List Val)) :
    (dirCalls f nans q c calls).1 = calls.flatten.foldl pushSample c := by
  induction calls generalizing q c with
  | nil => rfl
  | cons xs calls ih =>
    rw [List.flatten_cons, List.foldl_append, ← dirStream_fst (fpArith f (nans q)) 0 c xs]
    exact ih (q + 1) _

/-- Settles O44: the calls are one stream from the constructed context, whose history is all zeros. -/
theorem historyHoldsLastInputs : Obligations.HistoryHoldsLastInputs := by
  intro f nans T calls hT
  rw [dirCalls_fst, history_pushAll _ (dirShape_construct _ hT), history_construct]
  rfl

end Sys2Proof.Machine
end

section
/-! The data memory of 20_memory.md: accesses to the DMEM window (R62 to R66, R70, R72), what the host can change while a command is
pending (R104), and the fault at an unwritten element (R80, R242) with the completion of every command where there is none
(R216, R262). -/

namespace Sys2Proof.Machine

/-! ### Accesses while a command is pending (R70, R104) -/

/-- What stays of a state with `BUSY` = 1 whatever the host accesses: all of it but `IE`, `DONE`, `HAZ`, `irq` and the model's
coming actions, record and draw counter, which stand at their reset values here. -/
def pendingPart (s : State) : State :=
  { s with ctrlIe := false, statusDone := false, statusHaz := false, irq := false, host := [], responses := [], draws := 0 }

/-- A host read answers while `BUSY` is 1, a free value where it is of DMEM (R70). -/
theorem hostRead_ne_fault_of_busy {s : State} (hb : s.statusBusy = true) (a : Word) (size : Nat) (x : Fault) :
    hostRead a size s ≠ .fault x := by
  unfold hostRead
  rw [if_pos hb]
  split_ifs <;> nofun

/-- A legal write while `BUSY` is 1 is ignored, goes to `CTRL` or `STATUS`, or is dropped (R70). -/
theorem writeOutcome_pendingPart {v : Word} {s t : State} (hb : s.statusBusy = true) (h : WriteOutcome v s t) :
    pendingPart t = pendingPart s := by
  cases h with
  | unchanged | ctrl | status | dropped => rfl
  | issued hidle | argument hidle | dmem hidle => cases hb.symm.trans hidle

theorem hostWrite_pendingPart {s : State} (hb : s.statusBusy = true) (a : Word) (size : Nat) (v : Word) :
    pendingPart (hostWrite a size v s) = pendingPart s := by
  rcases hostWrite_outcome a size v s with he | ⟨t, ht, he⟩ <;> rw [he]
  · rfl
  · exact writeOutcome_pendingPart (t := t) hb ht

/-- One access while `BUSY` is 1 (R70, R214). -/
theorem step_access_of_busy {s : State} {act : Action} {acts : List Action} (hb : s.statusBusy = true)
    (hh : s.host = act :: acts) (ha : act.isAccess = true) :
    ∃ t, step s = .next t ∧ t.host = acts ∧ pendingPart t = pendingPart s := by
  cases act with
  | read a size =>
    rcases hostRead_cases a size { s with host := acts } with hf | ⟨x, e, n, hn⟩
    · exact absurd hf (hostRead_ne_fault_of_busy (s := { s with host := acts }) hb a size _)
    · exact ⟨_, (step_read hh).trans hn, rfl, rfl⟩
  | write a size v =>
    exact ⟨_, step_write hh, (hostWrite_keeps a size v { s with host := acts }).2,
      hostWrite_pendingPart (s := { s with host := acts }) hb a size v⟩
  | block | reset | await => cases ha

/-- Any sequence of accesses while `BUSY` is 1 (R104). -/
theorem run_accesses_of_busy {s : State} {acts rest : List Action} (hb : s.statusBusy = true)
    (hh : s.host = acts ++ rest) (ha : acts.all Action.isAccess = true) :
    ∃ t, Sys2Proof.core.run acts.length s = .next t ∧ t.host = rest ∧ pendingPart t = pendingPart s := by
  induction acts generalizing s with
  | nil => exact ⟨s, run_zero s, hh, rfl⟩
  | cons act acts ih =>
    rw [List.all_cons, Bool.and_eq_true] at ha
    obtain ⟨u, hstep, hhost, hpart⟩ := step_access_of_busy hb hh ha.1
    obtain ⟨t, hrun, hrest, hpart'⟩ := ih (s := u) ((congrArg State.statusBusy hpart :).trans hb) hhost ha.2
    exact ⟨t, (run_step hstep _).trans hrun, hrest, hpart'.trans hpart⟩

/-- Settles O25, by induction on the accesses: each keeps `pendingPart`, which holds every field named. -/
theorem busyFreezesOperands : Obligations.BusyFreezesOperands := by
  intro s acts rest hb hh ha
  obtain ⟨t, hrun, hrest, hpart⟩ := run_accesses_of_busy hb hh ha
  have keeps {α : Type} (field : State → α) : field (pendingPart t) = field (pendingPart s) := congrArg field hpart
  exact ⟨t, hrun, hrest, (keeps State.statusBusy).trans hb, keeps State.cmd, keeps State.aSrc, keeps State.aDst,
    keeps State.aLen, keeps State.aAux, keeps State.aWlen, keeps State.mem, keeps State.dir, keeps State.ola,
    keeps State.res0, keeps State.res1, keeps State.statusErr⟩

/-! ### Accesses to the DMEM window -/

/-- Settles O11, by the bus errors of `hostRead` and `hostWrite`. -/
theorem busErrorsChangeNothing : Obligations.BusErrorsChangeNothing := by
  intro s acts a size v hbad
  exact ⟨fun hh => (step_read hh).trans (hostRead_busError (s := { s with host := acts }) hbad),
    fun hh => (step_write hh).trans
      (congrArg Host.Outcome.next (hostWrite_busError (s := { s with host := acts }) hbad))⟩

/-- Settles O14, by the outcomes of a host read. -/
theorem readsHaveNoSideEffect : Obligations.ReadsHaveNoSideEffect := by
  intro s t acts a size hh hstep
  rw [step_read hh] at hstep
  rcases hostRead_cases a size { s with host := acts } with hf | ⟨x, e, n, hn⟩
  · cases hstep.symm.trans hf
  · cases hstep.symm.trans hn
    exact ⟨x, e, n, rfl⟩

/-- Settles O13: the free value is the model's draw. -/
theorem busyDmemReadAnswersFreeValue : Obligations.BusyDmemReadAnswersFreeValue := by
  intro s acts a hb h4 hlo hhi hh
  refine ⟨Config.busDraw s.draws, ?_⟩
  rw [step_read hh, hostRead_dmem (s := { s with host := acts }) h4 hlo hhi, if_pos hb]
  rfl

/-- A read of a DMEM word while `BUSY` is 0 (R80, R211). -/
theorem step_readDmem {s : State} {acts : List Action} {a : Word} (hb : s.statusBusy = false)
    (h4 : a.toNat % 4 = 0) (hlo : dmemBase ≤ a.toNat) (hhi : a.toNat < dmemEnd s.params)
    (hh : s.host = .read a 32 :: acts) :
    (∀ w, readWord s.mem a.toNat = some w →
      step s = .next { s with host := acts, responses := { data := w, error := false } :: s.responses }) ∧
    (readWord s.mem a.toNat = none → step s = .fault .uninitRead) := by
  rw [step_read hh, hostRead_dmem (s := { s with host := acts }) h4 hlo hhi, if_neg (by simp [hb])]
  constructor
  · intro w hw
    simp only [hw]
    rfl
  · intro hw
    simp only [hw]

/-- A write of a DMEM word while `BUSY` is 0 (R212). -/
theorem step_writeDmem {s : State} {acts : List Action} {a v : Word} (hinv : StateInv s) (hb : s.statusBusy = false)
    (h4 : a.toNat % 4 = 0) (hlo : dmemBase ≤ a.toNat) (hhi : a.toNat < dmemEnd s.params)
    (hh : s.host = .write a 32 v :: acts) :
    step s = .next { s with
      host := acts
      mem := writeWord s.mem a.toNat v
      responses := { data := 0, error := false } :: s.responses } := by
  rw [step_write hh, hostWrite_dmem (s := { s with host := acts }) h4 hlo hhi, if_neg (by simp [hb]),
    refreshIrq_of_level (s := setMem _ { s with host := acts }) hinv.irqLevel]
  rfl

/-- The bytes of a written word, the least significant first (R63). -/
theorem memGet_writeWord_byte (m : Memory) (a : Nat) (w : Word) {k : Nat} (hk : k < 4) :
    memGet (writeWord m a w) (a + k) = some (w.extractLsb' (8 * k) 8) := by
  rw [memGet_writeWord]
  interval_cases k <;> simp

/-- Settles O22, by the word write and the word read after it. -/
theorem dmemWordWriteReadsBack : Obligations.DmemWordWriteReadsBack := by
  intro s acts a v hinv hb h4 hlo hhi hh
  refine ⟨_, step_writeDmem hinv hb h4 hlo hhi hh, rfl, fun rest hrest => ?_, ?_, ?_⟩
  · refine (step_readDmem (s := { s with host := acts, mem := _, responses := _ }) hb h4 hlo hhi hrest).1 v ?_
    exact readWord_writeWord_same s.mem a.toNat v
  · intro k hk
    rw [memGet_writeWord_byte s.mem a.toNat v hk, Option.map_some, BitVec.extractLsb'_toNat,
      Nat.shiftRight_eq_div_pow]
  · intro b hout
    exact memGet_writeWord_other s.mem v hout

/-! ### The two words of a binary64 element (R64) -/

/-- A binary64 element is its two words (R62). -/
theorem readElem_binary64_iff (m : Memory) (e : Nat) (lo hi : Word) :
    readElem .binary64 m e = some (BitVec.ofNat 64 (hi.toNat * 2 ^ 32 + lo.toNat)) ↔
      readWord m (elemAddr .binary64 e) = some lo ∧ readWord m (elemAddr .binary64 e + 4) = some hi := by
  have pattern_eq_iff (x y : Word) :
      (y ++ x : BitVec (32 + 32)) = BitVec.ofNat 64 (hi.toNat * 2 ^ 32 + lo.toNat) ↔ x = lo ∧ y = hi := by
    rw [← BitVec.toNat_inj, ← BitVec.toNat_inj, ← BitVec.toNat_inj, append_toNat, BitVec.toNat_ofNat]
    omega
  rw [readElem]
  cases readWord m (elemAddr .binary64 e) with
  | none => simp
  | some x =>
    cases readWord m (elemAddr .binary64 e + 4) with
    | none => simp
    | some y => simpa using pattern_eq_iff x y

/-- Settles O23: each word lies beside the other, so a write of one leaves the other as it was. -/
theorem halfWriteMixesElement : Obligations.HalfWriteMixesElement := by
  intro s acts e a v lo hi hfmt hb hinv he helem hh
  obtain ⟨hlo, hhi⟩ := (readElem_binary64_iff s.mem e lo hi).1 helem
  have haddr : elemAddr .binary64 e = 0x10000 + 8 * e := by simp only [elemAddr, dmemBase, Fmt.ew]; omega
  have hend : dmemEnd s.params = 0x10000 + 8 * s.params.dmemWords := by
    simp only [dmemEnd, dmemBase, hfmt, Fmt.ew]; omega
  have oneElem {m : Memory} {x : Val} (h : readElem .binary64 m e = some x) : memRead .binary64 m e 1 = some [x] := by
    simp [memRead, h]
  have hbase : dmemBase = 0x10000 := rfl
  constructor
  · intro ha
    refine ⟨_, step_writeDmem hinv hb (by omega) (by omega) (by omega) hh, ?_⟩
    have hword : elemAddr .binary64 e = a.toNat := by omega
    refine oneElem ((readElem_binary64_iff _ e v hi).2 ⟨?_, ?_⟩)
    · rw [hword]; exact readWord_writeWord_same s.mem a.toNat v
    · rw [← hhi]; exact readWord_writeWord_other s.mem v (by omega)
  · intro ha
    refine ⟨_, step_writeDmem hinv hb (by omega) (by omega) (by omega) hh, ?_⟩
    have hword : elemAddr .binary64 e + 4 = a.toNat := by omega
    refine oneElem ((readElem_binary64_iff _ e lo v).2 ⟨?_, ?_⟩)
    · rw [← hlo]; exact readWord_writeWord_other s.mem v (by omega)
    · rw [hword]; exact readWord_writeWord_same s.mem a.toNat v

/-! ### Where a command faults (R80, R242) -/

/-- A sequence read has no value exactly where one of its elements has none (R68, R80). -/
theorem memRead_eq_none_iff (f : Fmt) (m : Memory) (base n : Nat) :
    memRead f m base n = none ↔ ∃ e, base ≤ e ∧ e < base + n ∧ readElem f m e = none := by
  rw [← Option.not_isSome_iff_eq_none, memRead_isSome_iff]
  push Not
  constructor
  · rintro ⟨i, hi, hnone⟩
    exact ⟨base + i, by omega, by omega, by simpa using hnone⟩
  · rintro ⟨e, hlo, hhi, hnone⟩
    exact ⟨e - base, by omega, by rw [Nat.add_sub_cancel' hlo]; simp [hnone]⟩

/-- A sequence read in range that has no value has met an unwritten element of DMEM (R69, R80). -/
theorem exists_unwritten_of_memRead {p : Params} {m : Memory} {base n : Nat} (hr : rangeOK p base n = true)
    (hread : memRead p.fmt m base n = none) : ∃ e, e < p.dmemWords ∧ readElem p.fmt m e = none := by
  obtain ⟨e, hlo, hhi, hnone⟩ := (memRead_eq_none_iff _ _ _ _).1 hread
  have := (rangeOK_iff p base n).1 hr
  exact ⟨e, by omega, hnone⟩

theorem firstFailure_eq_none_iff (checks : List (ErrCode × Bool)) :
    firstFailure checks = none ↔ ∀ c ∈ checks, c.2 = false := by
  induction checks with
  | nil => simp [firstFailure]
  | cons c checks ih =>
    obtain ⟨e, failed⟩ := c
    cases failed <;> simp [firstFailure, ih]

/-- A check that raises an error stands before a fault: it has passed (R226). -/
theorem ite_raiseError_fault_iff {c : Prop} [Decidable c] (e : ErrCode) (s : State) (r : Result) (x : Fault) :
    (if c then raiseError e s else r) = .fault x ↔ ¬c ∧ r = .fault x := by
  split <;> simp_all [raiseError_eq]

theorem doneWith_ne_fault (r0 r1 : Nat) (s : State) (x : Fault) : doneWith r0 r1 s ≠ .fault x := by
  rw [doneWith_eq]
  nofun

/-- A design faults exactly where its first three checks pass and its window or its cutoffs have no value (R120, log 15). -/
theorem runDesign_fault_iff (t : FilterType) (norm : Bool) (s : State) :
    runDesign t norm s = .fault .uninitRead ↔
      lenCount s ≠ 0 ∧ wlenCount s = lenCount s ∧ designRangesOK s t = true ∧
        (readSrc s (lenCount s) = none ∨ readAux s (cutoffCount t) = none) := by
  simp only [runDesign, ite_raiseError_fault_iff, not_not, designRangesOK_iff]
  refine and_congr_right' (and_congr_right' (and_congr_right' ?_))
  cases readSrc s (lenCount s) with
  | none => simp
  | some w =>
    cases readAux s (cutoffCount t) with
    | none => simp
    | some fc =>
      dsimp only
      split_ifs
      · split <;> simp [doneWith_ne_fault, raiseError_eq]
      · simp [raiseError_eq]

/-- A command that reads a source faults exactly where its checks pass and the source has no value (R161, R165, R182, R188). -/
theorem exec_fault_iff_of_source {i : Instr} {ctx : BitVec 4} (s : State)
    (hi : i ∈ [.dirInit ctx, .dirApply ctx, .olaInit ctx, .olaApply ctx]) :
    exec i s = .fault .uninitRead ↔ firstFailure (commandChecks i s) = none ∧ readSrc s (lenCount s) = none := by
  rw [firstFailure_eq_none_iff]
  simp only [List.mem_cons, List.not_mem_nil, or_false] at hi
  rcases hi with rfl | rfl | rfl | rfl <;>
    simp only [exec, execDirInit, execDirApply, execOlaInit, execOlaApply, ite_raiseError_fault_iff]
  all_goals
    cases readSrc s (lenCount s) with
    | none => simp [commandChecks, Instr.wellFormed]
    | some vs => simp [doneWith_ne_fault]

/-- The range of the source is among the checks (R69, R226). -/
theorem sourceRange_of_checks {i : Instr} {ctx : BitVec 4} {s : State}
    (hi : i ∈ [.dirInit ctx, .dirApply ctx, .olaInit ctx, .olaApply ctx])
    (hchecks : firstFailure (commandChecks i s) = none) : rangeOK s.params (srcIndex s) (lenCount s) = true := by
  rw [firstFailure_eq_none_iff] at hchecks
  simp only [List.mem_cons, List.not_mem_nil, or_false] at hi
  rcases hi with rfl | rfl | rfl | rfl <;> simp_all [commandChecks]

/-- Settles O24: the read that has no value is the host's, the design's or the source's. -/
theorem unwrittenReadsFault : Obligations.UnwrittenReadsFault := by
  refine ⟨?_, ?_, ?_⟩
  · intro s acts a hb h4 hlo hhi hnone hh
    exact (step_readDmem hb h4 hlo hhi hh).2 hnone
  · intro s t norm e hn hw hr hnone hin
    rw [exec_designInstr, runDesign_fault_iff]
    exact ⟨hn, hw, hr, hin.imp (fun ⟨hlo, hhi⟩ => (memRead_eq_none_iff _ _ _ _).2 ⟨e, hlo, hhi, hnone⟩)
      fun ⟨hlo, hhi⟩ => (memRead_eq_none_iff _ _ _ _).2 ⟨e, hlo, hhi, hnone⟩⟩
  · intro s i ctx e hi hchecks hnone hlo hhi
    exact (exec_fault_iff_of_source s hi).2 ⟨hchecks, (memRead_eq_none_iff _ _ _ _).2 ⟨e, hlo, hhi, hnone⟩⟩

/-- A design that faults has met an unwritten element of DMEM. -/
theorem exists_unwritten_of_runDesign_fault {t : FilterType} {norm : Bool} {s : State}
    (h : runDesign t norm s = .fault .uninitRead) :
    ∃ e, e < s.params.dmemWords ∧ readElem s.params.fmt s.mem e = none := by
  obtain ⟨_, _, hr, hread⟩ := (runDesign_fault_iff t norm s).1 h
  obtain ⟨hsrc, haux, _⟩ := (designRangesOK_iff s t).1 hr
  exact hread.elim (exists_unwritten_of_memRead hsrc) (exists_unwritten_of_memRead haux)

/-- A command that reads a source and faults has met an unwritten element of DMEM. -/
theorem exists_unwritten_of_source_fault {i : Instr} {ctx : BitVec 4} {s : State}
    (hi : i ∈ [.dirInit ctx, .dirApply ctx, .olaInit ctx, .olaApply ctx]) (h : exec i s = .fault .uninitRead) :
    ∃ e, e < s.params.dmemWords ∧ readElem s.params.fmt s.mem e = none := by
  obtain ⟨hchecks, hread⟩ := (exec_fault_iff_of_source s hi).1 h
  exact exists_unwritten_of_memRead (sourceRange_of_checks hi hchecks) hread

/-- A command that faults has met an unwritten element of DMEM (R80, R242). -/
theorem exists_unwritten_of_fault {i : Instr} {s : State} (h : exec i s = .fault .uninitRead) :
    ∃ e, e < s.params.dmemWords ∧ readElem s.params.fmt s.mem e = none := by
  cases i with
  | nop => cases h.symm.trans (doneKeep_eq s)
  | dsgnLp norm | dsgnHp norm | dsgnBp norm | dsgnBs norm => exact exists_unwritten_of_runDesign_fault h
  | dirInit ctx | dirApply ctx | olaInit ctx | olaApply ctx =>
    exact exists_unwritten_of_source_fault (ctx := ctx) (by simp) h
  | dirRel ctx =>
    have h := h.symm.trans (execDirRel_eq ctx s)
    split at h <;> cases h
  | olaRel ctx =>
    have h := h.symm.trans (execOlaRel_eq ctx s)
    split at h <;> cases h

/-- Settles O29, by the outcomes of a command: the one that does not complete is a fault at an unwritten element. -/
theorem commandsCompleteOnWrittenDmem : Obligations.CommandsCompleteOnWrittenDmem := by
  intro i s
  have ho := exec_outcome i s
  generalize hr : exec i s = r at ho
  cases ho with
  | error e | success => exact ⟨fun _ => ⟨_, rfl, rfl⟩, nofun, nofun⟩
  | uninit =>
    refine ⟨fun hwritten => ?_, nofun, fun x hx => by cases hx; rfl⟩
    obtain ⟨e, he, hnone⟩ := exists_unwritten_of_fault hr
    exact absurd (hwritten e he) (by simp [hnone])

end Sys2Proof.Machine
end

section
/-! Command words (30_encoding.md): the decoder and the encoder (R90 to R95, R102), the illegal words (R98, R99), the block's
turn with a word pending (R103, R213), and the contexts a command leaves alone (R236). -/

namespace Sys2Proof.Machine

/-! ### Decoding -/

/-- The decoder answers a command exactly when the word has its fields and zeros above them (R102). -/
theorem decode_eq_some_iff (w : Word) (i : Instr) :
    decode w = some i ↔
      fieldReserved w = 0 ∧ fieldNorm w = i.normField ∧ fieldCtx w = i.ctxField ∧ fieldOp w = i.op := by
  rw [← decodeFields_eq_some_iff, decode, ite_eq_iff]
  simp

/-- Settles O1: a word is its fields, and both sides say what they are. -/
theorem decodeInvertsEncode : Obligations.DecodeInvertsEncode := by
  intro w i
  obtain ⟨hres, hnorm, hctx, hop⟩ := encode_fields i
  rw [decode_eq_some_iff, eq_comm (a := encode i), word_eq_iff_fields, hres, hnorm, hctx, hop]

theorem decode_encode (i : Instr) : decode (encode i) = some i := (decodeInvertsEncode _ i).2 rfl

/-- Settles O3: each word is the command's encoding. -/
theorem commandWordsDecode : Obligations.CommandWordsDecode :=
  ⟨decode_encode .nop, decode_encode (.dsgnLp true), decode_encode (.dsgnBs false), decode_encode (.dirApply 1),
    decode_encode (.olaInit 15), decode_encode (.olaRel 0)⟩

/-! ### Illegal words -/

/-- The numbers of the fields of a word that decodes (R102). -/
theorem decode_numbers {w : Word} {i : Instr} (h : decode w = some i) :
    w.toNat / 8192 = 0 ∧ w.toNat / 4096 % 2 = i.normField.toNat ∧ w.toNat / 256 % 16 = i.ctxField.toNat ∧
      w.toNat % 256 = i.op.toNat := by
  obtain ⟨hres, hnorm, hctx, hop⟩ := (decode_eq_some_iff w i).1 h
  rw [← fieldReserved_toNat, ← fieldNorm_toNat, ← fieldCtx_toNat, ← fieldOp_toNat, hres, hnorm, hctx, hop]
  exact ⟨rfl, rfl, rfl, rfl⟩

/-- A word with a command's numbers in its fields decodes to it (R102). -/
theorem decode_of_numbers {w : Word} {i : Instr} (hres : w.toNat / 8192 = 0) (hnorm : fieldNorm w = i.normField)
    (hctx : fieldCtx w = i.ctxField) (hop : w.toNat % 256 = i.op.toNat) : decode w = some i :=
  (decode_eq_some_iff w i).2
    ⟨BitVec.eq_of_toNat_eq ((fieldReserved_toNat w).trans hres), hnorm, hctx,
      BitVec.eq_of_toNat_eq ((fieldOp_toNat w).trans hop)⟩

/-- A command of the table with a legal context is no illegal word (R98, R99). -/
theorem not_illegalWord_of_decode {p : Params} {w : Word} {i : Instr} (h : decode w = some i)
    (hwf : i.wellFormed p = true) : ¬IllegalWord p w := by
  obtain ⟨hres, hnorm, hctx, hop⟩ := decode_numbers h
  rw [IllegalWord, hres, hnorm, hctx, hop]
  cases i with
  | nop | dsgnLp | dsgnHp | dsgnBp | dsgnBs => simp [Instr.op, Instr.normField, Instr.ctxField]
  | dirInit | dirApply | dirRel | olaInit | olaApply | olaRel =>
    simpa [Instr.op, Instr.normField, Instr.ctxField, Instr.wellFormed] using hwf

/-- A word that is not illegal is a command of the table with a legal context (R98, R99). -/
theorem exists_decode_of_not_illegalWord {p : Params} {w : Word} (h : ¬IllegalWord p w) :
    ∃ i, decode w = some i ∧ i.wellFormed p = true := by
  simp only [IllegalWord, not_or, not_and, not_not, not_le] at h
  obtain ⟨hres, hop, hnorm, hctx, hdir, hola⟩ := h
  have norm0 (hd : w.toNat % 256 ∉ [0x01, 0x02, 0x03, 0x04]) : fieldNorm w = false := by
    cases hn : fieldNorm w with
    | false => rfl
    | true => exact absurd (hnorm (by rw [← fieldNorm_toNat, hn]; rfl)) hd
  have ctx0 (hd : w.toNat % 256 ∈ [0x00, 0x01, 0x02, 0x03, 0x04]) : fieldCtx w = 0 :=
    BitVec.eq_of_toNat_eq ((fieldCtx_toNat w).trans (not_not.1 fun hc => hctx hc hd))
  rw [← fieldCtx_toNat] at hdir hola
  simp only [List.mem_cons, List.not_mem_nil, or_false] at hop
  rcases hop with hop | hop | hop | hop | hop | hop | hop | hop | hop | hop | hop <;>
    rw [hop] at norm0 ctx0 hdir hola
  · exact ⟨.nop, decode_of_numbers hres (norm0 (by decide)) (ctx0 (by decide)) hop, rfl⟩
  · exact ⟨.dsgnLp (fieldNorm w), decode_of_numbers hres rfl (ctx0 (by decide)) hop, rfl⟩
  · exact ⟨.dsgnHp (fieldNorm w), decode_of_numbers hres rfl (ctx0 (by decide)) hop, rfl⟩
  · exact ⟨.dsgnBp (fieldNorm w), decode_of_numbers hres rfl (ctx0 (by decide)) hop, rfl⟩
  · exact ⟨.dsgnBs (fieldNorm w), decode_of_numbers hres rfl (ctx0 (by decide)) hop, rfl⟩
  · refine ⟨.dirInit (fieldCtx w), decode_of_numbers hres (norm0 ?_) rfl hop, decide_eq_true (hdir ?_)⟩ <;> decide
  · refine ⟨.dirApply (fieldCtx w), decode_of_numbers hres (norm0 ?_) rfl hop, decide_eq_true (hdir ?_)⟩ <;> decide
  · refine ⟨.dirRel (fieldCtx w), decode_of_numbers hres (norm0 ?_) rfl hop, decide_eq_true (hdir ?_)⟩ <;> decide
  · refine ⟨.olaInit (fieldCtx w), decode_of_numbers hres (norm0 ?_) rfl hop, decide_eq_true (hola ?_)⟩ <;> decide
  · refine ⟨.olaApply (fieldCtx w), decode_of_numbers hres (norm0 ?_) rfl hop, decide_eq_true (hola ?_)⟩ <;> decide
  · refine ⟨.olaRel (fieldCtx w), decode_of_numbers hres (norm0 ?_) rfl hop, decide_eq_true (hola ?_)⟩ <;> decide

/-- A word is illegal exactly when no command of the table that it stands for has a legal context. -/
theorem illegalWord_iff (p : Params) (w : Word) :
    IllegalWord p w ↔ ∀ i, decode w = some i → i.wellFormed p = false := by
  constructor
  · intro h i hd
    exact Bool.eq_false_iff.2 fun hwf => not_illegalWord_of_decode hd hwf h
  · intro h
    by_contra hlegal
    obtain ⟨i, hd, hwf⟩ := exists_decode_of_not_illegalWord hlegal
    exact absurd (h i hd) (by simp [hwf])

/-- Settles O2: the full decoder is the static one with the context check. -/
theorem decoderRefusesExactlyIllegalWords : Obligations.DecoderRefusesExactlyIllegalWords := by
  intro p w
  rw [illegalWord_iff, decodeFor, Option.filter_eq_none_iff]
  simp

/-! ### The block's turn -/

/-- The block's turn with a command pending (R213). -/
theorem step_blocksTurn_busy {s : State} {acts : List Action} (hb : s.statusBusy = true) (hs : BlocksTurn s acts) :
    step s = blockStep { s with host := acts } := by
  rw [step_blocksTurn hs, blockTurn, if_pos hb]

theorem blockStep_of_decode {s : State} {i : Instr} (h : decode s.cmd = some i) : blockStep s = exec i s := by
  rw [blockStep, pendingInstr, h]

theorem blockStep_of_decode_none {s : State} (h : decode s.cmd = none) :
    blockStep s = .next (completed .illegalCmd s) := by
  rw [blockStep, pendingInstr, h, ← raiseError_eq]

/-- Settles O4. -/
theorem stepRunsDecodedCommand : Obligations.StepRunsDecodedCommand := by
  intro s acts i hb hs hd
  rw [step_blocksTurn_busy hb hs]
  exact blockStep_of_decode hd

/-- Every command that names a context checks it first (R99, R226). -/
theorem exec_of_not_wellFormed {i : Instr} {s : State} (h : i.wellFormed s.params = false) :
    exec i s = .next (completed .illegalCmd s) := by
  rw [← raiseError_eq]
  cases i with
  | nop | dsgnLp | dsgnHp | dsgnBp | dsgnBs => cases h
  | dirInit | dirApply | dirRel | olaInit | olaApply | olaRel => exact if_pos (not_lt.1 (of_decide_eq_false h))

/-- A command with a legal context never reports ILLEGAL_CMD (R98, R99). -/
theorem exec_err_ne_illegalCmd {i : Instr} {s t : State} (hwf : i.wellFormed s.params = true)
    (h : exec i s = .next t) : t.statusErr ≠ .illegalCmd := by
  have ho := exec_outcome i s
  rw [h] at ho
  cases ho with
  | error e he hl => exact fun e => absurd (hl e) (by simp [hwf])
  | success => nofun

/-- An illegal word has no command, or one whose context check fails first (R98, R99). -/
theorem blockStep_of_illegalWord {s : State} (h : IllegalWord s.params s.cmd) :
    blockStep s = .next (completed .illegalCmd s) := by
  cases hd : decode s.cmd with
  | none => exact blockStep_of_decode_none hd
  | some i =>
    rw [blockStep_of_decode hd]
    exact exec_of_not_wellFormed ((illegalWord_iff s.params s.cmd).1 h i hd)

theorem blockStep_err_ne_illegalCmd {s t : State} (h : ¬IllegalWord s.params s.cmd) (ht : blockStep s = .next t) :
    t.statusErr ≠ .illegalCmd := by
  obtain ⟨i, hd, hwf⟩ := exists_decode_of_not_illegalWord h
  rw [blockStep_of_decode hd] at ht
  exact exec_err_ne_illegalCmd hwf ht

/-- Settles O5, by the block step on an illegal word and on a legal one. -/
theorem illegalWordCompletesWithIllegalCmd : Obligations.IllegalWordCompletesWithIllegalCmd := by
  intro s acts hb hs
  rw [step_blocksTurn_busy hb hs]
  exact ⟨fun h => blockStep_of_illegalWord (s := { s with host := acts }) h,
    fun h t ht => blockStep_err_ne_illegalCmd (s := { s with host := acts }) h ht⟩

/-! ### The contexts of a command -/

/-- A command leaves each list of contexts alone, or puts one context in, at the place its `CTX` field names
(R92, R236). -/
theorem exec_contexts {i : Instr} {s t : State} (h : exec i s = .next t) :
    (t.dir = s.dir ∨ ∃ d c, dirTarget i = some d ∧ t.dir = s.dir.set d c) ∧
      (t.ola = s.ola ∨ ∃ o c, olaTarget i = some o ∧ t.ola = s.ola.set o c) := by
  have design {ty norm} (h : runDesign ty norm s = .next t) : t.dir = s.dir ∧ t.ola = s.ola := by
    have ho := runDesign_outcome ty norm s
    rw [h] at ho
    cases ho <;> exact ⟨rfl, rfl⟩
  cases i with
  | nop =>
    cases h.symm.trans (doneKeep_eq s)
    exact ⟨.inl rfl, .inl rfl⟩
  | dsgnLp | dsgnHp | dsgnBp | dsgnBs => exact ⟨.inl (design h).1, .inl (design h).2⟩
  | dirInit ctx =>
    have ho := execDirInit_outcome ctx s
    rw [show execDirInit ctx s = .next t from h] at ho
    cases ho with
    | error => exact ⟨.inl rfl, .inl rfl⟩
    | success => exact ⟨.inr ⟨_, _, rfl, rfl⟩, .inl rfl⟩
  | dirApply ctx =>
    have ho := execDirApply_outcome ctx s
    rw [show execDirApply ctx s = .next t from h] at ho
    cases ho with
    | error => exact ⟨.inl rfl, .inl rfl⟩
    | success => exact ⟨.inr ⟨_, _, rfl, rfl⟩, .inl rfl⟩
  | dirRel ctx =>
    have h := h.symm.trans (execDirRel_eq ctx s)
    split at h <;> cases h
    · exact ⟨.inl rfl, .inl rfl⟩
    · exact ⟨.inr ⟨_, _, rfl, rfl⟩, .inl rfl⟩
  | olaInit ctx =>
    have ho := execOlaInit_outcome ctx s
    rw [show execOlaInit ctx s = .next t from h] at ho
    cases ho with
    | error => exact ⟨.inl rfl, .inl rfl⟩
    | success => exact ⟨.inl rfl, .inr ⟨_, _, rfl, rfl⟩⟩
  | olaApply ctx =>
    have ho := execOlaApply_outcome ctx s
    rw [show execOlaApply ctx s = .next t from h] at ho
    cases ho with
    | error => exact ⟨.inl rfl, .inl rfl⟩
    | success => exact ⟨.inl rfl, .inr ⟨_, _, rfl, rfl⟩⟩
  | olaRel ctx =>
    have h := h.symm.trans (execOlaRel_eq ctx s)
    split at h <;> cases h
    · exact ⟨.inl rfl, .inl rfl⟩
    · exact ⟨.inl rfl, .inr ⟨_, _, rfl, rfl⟩⟩

theorem getD_set_of_ne {α : Type} (l : List α) {m n : Nat} (a d : α) (h : m ≠ n) :
    (l.set m a).getD n d = l.getD n d := by
  rw [List.getD_eq_getElem?_getD, List.getElem?_set_ne h, ← List.getD_eq_getElem?_getD]

/-- Settles O31: a context put in at one place leaves the others alone. -/
theorem otherContextsUntouched : Obligations.OtherContextsUntouched := by
  intro i s t h
  obtain ⟨hdir, hola⟩ := exec_contexts h
  constructor
  · intro d hd
    rcases hdir with he | ⟨d', c, htarget, he⟩ <;> rw [dirCtx, dirCtx, he]
    exact getD_set_of_ne _ _ _ (by rintro rfl; exact hd htarget)
  · intro o ho
    rcases hola with he | ⟨o', c, htarget, he⟩ <;> rw [olaCtx, olaCtx, he]
    exact getD_set_of_ne _ _ _ (by rintro rfl; exact ho htarget)

end Sys2Proof.Machine
end

section
/-! Host scripts (R105 to R107): the loop of a `wait`, and the text of a command pseudo-instruction. -/

namespace Sys2Proof.Machine

/-! ### The loop of a `wait` -/

/-- What one poll of `STATUS` adds to the record (R106, log 11). -/
def statusFound (s : State) : Response := { data := statusWord s, error := false }

/-- The polls of an `await` before the block's step (R106, log 13): each finds the same `STATUS`. -/
theorem run_await_polls {s : State} {n : Nat} {acts : List Action} (hh : s.host = .await n :: acts)
    (hb : s.statusBusy = true) (k : Nat) :
    Sys2Proof.core.run (n + k) s =
      Sys2Proof.core.run k (atHost (.await 0 :: acts) (List.replicate n (statusFound s) ++ s.responses) s) := by
  induction n generalizing s with
  | zero => rw [Nat.zero_add, atHost, ← hh]; rfl
  | succ n ih =>
    rw [Nat.add_right_comm, run_step (step_await_busy hh hb n.succ_ne_zero), List.replicate_succ', List.append_assoc]
    exact ih (s := atHost (.await n :: acts) (statusFound s :: s.responses) s) rfl hb

/-- The block step looks at neither the coming actions nor the record (logs 8, 11). -/
theorem blockStep_atHost (host : List Action) (responses : List Response) (s : State) :
    blockStep (atHost host responses s) = resultAtHost host responses (blockStep s) := by
  cases hd : decode s.cmd with
  | none =>
    rw [blockStep_of_decode_none hd, blockStep_of_decode_none (s := atHost host responses s) hd]
    rfl
  | some i =>
    rw [blockStep_of_decode hd, blockStep_of_decode (s := atHost host responses s) hd, exec_atHost]

/-- The block step lowers `BUSY` (R222, R223). -/
theorem blockStep_idle {s t : State} (h : blockStep s = .next t) : t.statusBusy = false := by
  cases hd : decode s.cmd with
  | none =>
    cases h.symm.trans (blockStep_of_decode_none hd)
    rfl
  | some i => exact (completionSetsFlagsAndKeepsOperands i s t ((blockStep_of_decode hd).symm.trans h)).1

/-- The end of an `await` (R106): the block's step, and the read that finds `BUSY` 0. -/
theorem run_await_block {s u : State} {acts : List Action} (hh : s.host = .await 0 :: acts)
    (hb : s.statusBusy = true) (hu : blockStep s = .next u) :
    Sys2Proof.core.run 2 s = .next (atHost acts (statusFound u :: u.responses) u) := by
  have hstep : step s = .next u := (step_blocksTurn_busy hb (.inr (.inr ⟨acts, hh, hb, rfl⟩))).trans hu
  have hhost : u.host = .await 0 :: acts :=
    (step_blocksTurn_keeps (.inr (.inr ⟨acts, hh, hb, rfl⟩)) hstep).2.trans hh
  rw [run_step hstep, run_step (step_await_idle hhost (blockStep_idle hu)), run_zero]
  rfl

/-- Settles O59: the polls before the block's step, the step, and the read after it. -/
theorem waitPollsUntilIdle : Obligations.WaitPollsUntilIdle := by
  intro s n acts hh
  refine ⟨step_await_idle hh, fun hb => ⟨step_await_busy hh hb, fun u hsome hnone => ?_⟩⟩
  have hu : blockStep s = .next u := by
    cases hd : decode s.cmd with
    | none => rw [blockStep_of_decode_none hd, hnone hd]
    | some i => rw [blockStep_of_decode hd, hsome i hd]
  have hpolled := blockStep_atHost (.await 0 :: acts) (List.replicate n (statusFound s) ++ s.responses) s
  rw [hu] at hpolled
  exact (run_await_polls hh hb 2).trans (run_await_block (s := atHost (.await 0 :: acts) _ s) rfl hb hpolled)

/-! ### The text of a pseudo-instruction -/

/-- The names of the host operations (R106). -/
def hostOpNames : List String := ["wait", "ack", "rd", "rdf", "cmd", "wr", "wrf"]

/-- A line with another name is no host operation (R106). -/
theorem parseHostOp_eq_none {name : String} (h : name ∉ hostOpNames) (args : List (List Char)) :
    parseHostOp name args = none := by
  simp only [hostOpNames, List.mem_cons, List.not_mem_nil, or_false, not_or] at h
  obtain ⟨hwait, hack, hrd, hrdf, hcmd, hwr, hwrf⟩ := h
  unfold parseHostOp
  split
  · rw [if_neg hwait, if_neg hack]
  · rw [if_neg hrd, if_neg hrdf, if_neg hcmd]
  · rw [if_neg hwr, if_neg hwrf]
  · rfl

/-- The names of the command pseudo-instructions (R107). -/
def pseudoNames : List String :=
  ["nop", "dsgn.lp", "dsgn.hp", "dsgn.bp", "dsgn.bs", "dsgn.lp.n", "dsgn.hp.n", "dsgn.bp.n", "dsgn.bs.n",
    "dir.init", "dir.apply", "dir.rel", "ola.init", "ola.apply", "ola.rel"]

theorem pseudoNames_spec : ∀ name ∈ pseudoNames, PlainText name.toList ∧ name ∉ hostOpNames := by
  simp [pseudoNames, PlainText, hostOpNames, isBlank]

/-- Texts that are read as words, one by one. -/
theorem plain_of_mapM_parseWord {ts : List (List Char)} {ws : List Word} (h : ts.mapM parseWord = some ws) :
    ∀ t ∈ ts, PlainText t := by
  induction ts generalizing ws with
  | nil => nofun
  | cons t ts ih =>
    cases ht : parseWord t with
    | none => simp [ht] at h
    | some w =>
      cases hts : ts.mapM parseWord with
      | none => simp [ht, hts] at h
      | some us => exact List.forall_mem_cons.2 ⟨parseWord_plain ht, ih hts⟩

/-- A line with a pseudo-instruction's name, its operands and perhaps a comment (R105, R107). -/
theorem parseLine_pseudo {name : String} (hn : name ∈ pseudoNames) {ts : List (List Char)} {ws : List Word}
    (hts : ts.mapM parseWord = some ws) {c : Pseudo} (hc : parsePseudo name ws = some c) {comment : List Char}
    (hcomment : comment = [] ∨ comment.head? = some ';') :
    parseLine (name.toList ++ ' ' :: [',', ' '].intercalate ts ++ ' ' :: comment) = some (.command c) := by
  obtain ⟨hplain, hop⟩ := pseudoNames_spec name hn
  have hline := (parseLine_operands hplain (plain_of_mapM_parseWord hts) hcomment).2
  rw [String.ofList_toList, hts] at hline
  rw [hline (parseHostOp_eq_none hop ts), Option.bind_some, hc, Option.map_some]

/-- Settles O58: each row's operands are read as words, and its name picks the row. -/
theorem pseudoInstructionOperandOrder : Obligations.PseudoInstructionOperandOrder := by
  intro ta tb tc td te a b c d e comment ha hb hc hd he hcomment
  have h1 : [ta].mapM parseWord = some [a] := by simp [ha]
  have h3 : [ta, tb, tc].mapM parseWord = some [a, b, c] := by simp [ha, hb, hc]
  have h4 : [ta, tb, tc, td].mapM parseWord = some [a, b, c, d] := by simp [ha, hb, hc, hd]
  have h5 : [ta, tb, tc, td, te].mapM parseWord = some [a, b, c, d, e] := by simp [ha, hb, hc, hd, he]
  have design : ∀ q ∈ [("dsgn.lp", FilterType.lp, false), ("dsgn.hp", .hp, false), ("dsgn.bp", .bp, false),
      ("dsgn.bs", .bs, false), ("dsgn.lp.n", .lp, true), ("dsgn.hp.n", .hp, true), ("dsgn.bp.n", .bp, true),
      ("dsgn.bs.n", .bs, true)], q.1 ∈ pseudoNames ∧ parseDesign q.1 = some q.2 ∧
        q.1 ∉ ["dir.apply", "ola.apply", "ola.init"] := by simp [pseudoNames, parseDesign]
  have row {name : String} (hn : name ∈ pseudoNames) {ts : List (List Char)} {ws q}
      (hts : ts.mapM parseWord = some ws) (hq : parsePseudo name ws = some q) := parseLine_pseudo hn hts hq hcomment
  refine ⟨row ?nop rfl rfl, fun q hq => ?_, row ?dirInit h3 rfl, row ?dirApply h4 rfl, row ?dirRel h1 rfl,
    row ?olaInit h3 rfl, row ?olaInit h4 rfl, row ?olaApply h4 rfl, row ?olaRel h1 rfl⟩
  case nop | dirInit | dirApply | dirRel | olaInit | olaApply | olaRel => simp [pseudoNames]
  obtain ⟨hn, hdesign, hother⟩ := design q hq
  simp only [List.mem_cons, List.not_mem_nil, or_false, not_or] at hother
  obtain ⟨hdir, hola, hinit⟩ := hother
  refine ⟨row hn h4 ?_, row hn h5 ?_⟩
  · simp [parsePseudo, hdesign, hdir, hola, hinit]
  · simp [parsePseudo, hdesign]

end Sys2Proof.Machine
end

section
/-! The run of a pseudo-instruction's expansion (R107, R108) under a schedule of block turns and polls (R214, log 13). -/

namespace Sys2Proof.Machine

/-! ### Runs -/

/-- Some number of steps leads from `s` to `t`. -/
def Reaches (s t : State) : Prop := ∃ m, Sys2Proof.core.run m s = .next t

theorem Reaches.refl (s : State) : Reaches s s := ⟨0, run_zero s⟩

theorem Reaches.step {s t u : State} (h : Machine.step s = .next t) : Reaches t u → Reaches s u
  | ⟨m, hm⟩ => ⟨m + 1, (run_step h m).trans hm⟩

theorem Reaches.trans {s t u : State} (h : Reaches s t) (h' : Reaches t u) : Reaches s u := by
  obtain ⟨m, hm⟩ := h
  induction m generalizing s with
  | zero => cases hm; exact h'
  | succ m ih =>
    cases hs : Machine.step s with
    | next v => exact .step hs (ih ((run_step hs m).symm.trans hm))
    | fault x =>
      have e : Sys2Proof.core.step s = .fault x := hs
      simp [Host.Core.run, e] at hm
    | refused r =>
      have e : Sys2Proof.core.step s = .refused r := hs
      simp [Host.Core.run, e] at hm

/-! ### Schedules -/

theorem scheduled_append (turn : Nat → Bool) (polls : Nat → Nat) (k : Nat) (as bs : List Action) :
    scheduled turn polls k (as ++ bs) = scheduled turn polls k as ++ scheduled turn polls (k + as.length) bs := by
  induction as generalizing k with
  | nil => rfl
  | cons a as ih => simp [scheduled, ih, Nat.add_assoc, Nat.add_comm 1]

/-- While `BUSY` is 0 a schedule's turn of the block before an action changes nothing (R238). -/
theorem reaches_afterTurn {s : State} {turn : Nat → Bool} {polls : Nat → Nat} {k : Nat} {a : Action}
    {acts rest : List Action} (hb : s.statusBusy = false) (hh : s.host = scheduled turn polls k (a :: acts) ++ rest) :
    Reaches s { s with host := a.withPolls (polls k) :: (scheduled turn polls (k + 1) acts ++ rest) } := by
  rw [scheduled, List.append_assoc] at hh
  split at hh
  · refine .step ((step_blocksTurn (.inr (.inl hh))).trans ?_) (.refl _)
    exact if_neg (by simp [hb])
  · have e : { s with host := a.withPolls (polls k) :: (scheduled turn polls (k + 1) acts ++ rest) } = s := by
      simp only [List.nil_append, List.cons_append] at hh
      rw [← hh]
    exact e ▸ .refl s

/-! ### Writes to argument registers -/

/-- The argument registers (R29 to R33). -/
def argumentRegs : List Reg := [.aSrc, .aDst, .aLen, .aAux, .aWlen]

/-- An argument register replaced. -/
def setArgument (r : Reg) (v : Word) (s : State) : State :=
  { s with
    aSrc := if r = .aSrc then v else s.aSrc
    aDst := if r = .aDst then v else s.aDst
    aLen := if r = .aLen then v else s.aLen
    aAux := if r = .aAux then v else s.aAux
    aWlen := if r = .aWlen then v else s.aWlen }

/-- Argument registers replaced in order, each write answered and `irq` made to follow it (R47, R212). -/
def writeArguments (rvs : List (Reg × Word)) (s : State) : State :=
  rvs.foldl (fun s rv => respond 0 false (refreshIrq (setArgument rv.1 rv.2 s))) s

/-- The host's access to a register by its name (R23, R106). -/
theorem offset_lt (r : Reg) : r.offset.toNat % 4 = 0 ∧ r.offset.toNat < dmemBase := by
  cases r <;> decide

/-- A write to an argument register by its name while no command is pending (R70). -/
theorem step_writeArgument {s : State} {r : Reg} {v : Word} {acts : List Action} (hr : r ∈ argumentRegs)
    (hb : s.statusBusy = false) (hh : s.host = writeAction r.offset v :: acts) :
    step s = .next (respond 0 false (refreshIrq (setArgument r v { s with host := acts }))) := by
  rw [step_writeRegister hh (offset_lt r).1 (offset_lt r).2, regWrite_argument v (s := { s with host := acts }) hb]
  · simp only [argumentRegs, List.mem_cons, List.not_mem_nil, or_false] at hr
    rcases hr with rfl | rfl | rfl | rfl | rfl <;> rfl
  · exact (by decide : ∀ r ∈ argumentRegs, r.offset.toNat ∈ [0x010, 0x014, 0x018, 0x01C, 0x020]) r hr

/-- Writes to argument registers under any schedule, from a state with no command pending. -/
theorem reaches_writeArguments {turn : Nat → Bool} {polls : Nat → Nat} {rest : List Action}
    (rvs : List (Reg × Word)) (hr : ∀ rv ∈ rvs, rv.1 ∈ argumentRegs) {k : Nat} {s : State}
    (hb : s.statusBusy = false)
    (hh : s.host = scheduled turn polls k (rvs.map fun rv => writeAction rv.1.offset rv.2) ++ rest) :
    Reaches s (writeArguments rvs { s with host := rest }) := by
  induction rvs generalizing k s with
  | nil =>
    have e : { s with host := rest } = s := by rw [← show s.host = rest from hh]
    exact e ▸ .refl s
  | cons rv rvs ih =>
    obtain ⟨hmem, hmems⟩ := List.forall_mem_cons.1 hr
    refine (reaches_afterTurn hb hh).trans (.step (step_writeArgument hmem hb rfl) ?_)
    exact ih (s := respond 0 false (refreshIrq (setArgument rv.1 rv.2 { s with host := _ }))) hmems hb rfl

/-! ### The expansion -/

/-- The state once the command word of a pseudo-instruction is written (R108), with `acts` to come: its registers hold its
operands and the word is pending. -/
def pseudoIssued (c : Pseudo) (acts : List Action) (s : State) : State :=
  respond 0 false (refreshIrq (issueCommand c.word { writeArguments c.registers s with host := acts }))

/-- A pseudo-instruction writes argument registers alone (R107). -/
theorem registers_argument (c : Pseudo) : ∀ rv ∈ c.registers, rv.1 ∈ argumentRegs := by
  cases c <;> simp [Pseudo.registers, argumentRegs]

/-- The accesses of an expansion (R106, R108). -/
theorem expand_actions (f : Fmt) (c : Pseudo) :
    c.expand.flatMap (HostOp.actions f) =
      .await 0 :: (c.registers.map (fun rv => writeAction rv.1.offset rv.2) ++
        [writeAction Reg.cmd.offset c.word, .await 0]) := by
  simp [Pseudo.expand, HostOp.actions, List.flatMap_map, ← List.map_eq_flatMap]

theorem writeArguments_busy (rvs : List (Reg × Word)) (s : State) :
    (writeArguments rvs s).statusBusy = s.statusBusy := by
  induction rvs generalizing s with
  | nil => rfl
  | cons rv rvs ih => exact ih _

theorem writeArguments_host (rvs : List (Reg × Word)) (s : State) : (writeArguments rvs s).host = s.host := by
  induction rvs generalizing s with
  | nil => rfl
  | cons rv rvs ih => exact ih _

/-- A `wait` of a schedule while no command is pending is one read of `STATUS` (R106). -/
theorem reaches_afterWait {s : State} {turn : Nat → Bool} {polls : Nat → Nat} {k n : Nat} {acts rest : List Action}
    (hb : s.statusBusy = false) (hh : s.host = scheduled turn polls k (.await n :: acts) ++ rest) :
    Reaches s (atHost (scheduled turn polls (k + 1) acts ++ rest) (statusFound s :: s.responses) s) :=
  (reaches_afterTurn hb hh).trans (.step (step_await_idle rfl hb) (.refl _))

/-- A `CMD` write of a schedule while no command is pending (R28). -/
theorem reaches_afterCommand {s : State} {turn : Nat → Bool} {polls : Nat → Nat} {k : Nat} {w : Word}
    {acts rest : List Action} (hb : s.statusBusy = false)
    (hh : s.host = scheduled turn polls k (writeAction Reg.cmd.offset w :: acts) ++ rest) :
    Reaches s (respond 0 false (refreshIrq (issueCommand w
      { s with host := scheduled turn polls (k + 1) acts ++ rest }))) := by
  refine (reaches_afterTurn hb hh).trans (.step ?_ (.refl _))
  rw [← cmdWrite_idle w (s := { s with host := scheduled turn polls (k + 1) acts ++ rest }) hb]
  exact step_writeRegister rfl (offset_lt .cmd).1 (offset_lt .cmd).2

/-- An expansion runs from a state with no command pending to its closing `wait`, whatever the schedule (R108, R214). -/
theorem reaches_pseudoIssued {f : Fmt} {turn : Nat → Bool} {polls : Nat → Nat} {k : Nat} {c : Pseudo} {s : State}
    {rest : List Action} (hb : s.statusBusy = false)
    (hh : s.host = scheduled turn polls k (c.expand.flatMap (HostOp.actions f)) ++ rest) :
    ∃ acts found, Reaches s (pseudoIssued c
      (scheduled turn polls (k + c.registers.length + 2) [.await 0] ++ rest) (atHost acts found s)) := by
  rw [expand_actions] at hh
  have hwait := reaches_afterWait hb hh
  rw [scheduled_append, List.append_assoc, List.length_map] at hwait
  have hwrites := hwait.trans (reaches_writeArguments c.registers (registers_argument c) hb rfl)
  have hcommand := hwrites.trans
    (reaches_afterCommand ((writeArguments_busy c.registers _).trans hb) (writeArguments_host c.registers _))
  rw [show k + c.registers.length + 2 = k + 1 + c.registers.length + 1 by omega]
  exact ⟨_, _, hcommand⟩

/-! ### The word of a pseudo-instruction -/

/-- An opcode and a context number side by side (R107). -/
theorem op_or_ctx_toNat {op ctx : Word} (hop : op.toNat < 256) (hctx : ctx.toNat < 16) :
    (op ||| ctx <<< 8).toNat = ctx.toNat * 256 + op.toNat := by
  rw [BitVec.toNat_or, BitVec.toNat_shiftLeft, Nat.or_comm, Nat.mod_eq_of_lt (by rw [Nat.shiftLeft_eq]; omega),
    ← Nat.shiftLeft_add_eq_or_of_lt (i := 8) hop, Nat.shiftLeft_eq]

/-- The number of a command's word (R90). -/
theorem encode_toNat (i : Instr) :
    (encode i).toNat = (i.normField.toNat * 16 + i.ctxField.toNat) * 256 + i.op.toNat := by
  simp only [encode, append_toNat, BitVec.toNat_ofNat, BitVec.toNat_ofBool]
  omega

/-- A context command's opcode beside a context number below 16 is its encoding (R90, R107). -/
theorem decode_op_or_ctx {op ctx : Word} (hctx : ctx.toNat < 16) {i : Instr} (hop : op.toNat = i.op.toNat)
    (hnorm : i.normField = false) (hfield : i.ctxField = BitVec.ofNat 4 ctx.toNat) :
    decode (op ||| ctx <<< 8) = some i := by
  refine (decodeInvertsEncode _ i).2 (BitVec.eq_of_toNat_eq ?_)
  have hlt : op.toNat < 256 := hop ▸ i.op.isLt
  rw [encode_toNat, op_or_ctx_toNat hlt hctx, hnorm, hfield, hop, BitVec.toNat_ofNat, Nat.mod_eq_of_lt hctx]
  simp

/-- A design's word is its encoding (R95, R107). -/
theorem decode_designWord (ty : FilterType) (norm : Bool) :
    decode (if norm then ty.op ||| 0x1000 else ty.op) = some (designInstr ty norm) := by
  refine (decodeInvertsEncode _ _).2 ?_
  cases ty <;> cases norm <;> rfl

/-! ### What the expansion leaves -/

/-- The value writes of registers leave in register `r` that holds `old`. -/
def lastWrite (r : Reg) (rvs : List (Reg × Word)) (old : Word) : Word :=
  rvs.foldl (fun v rv => if rv.1 = r then rv.2 else v) old

theorem writeArguments_values (rvs : List (Reg × Word)) (s : State) :
    (writeArguments rvs s).aSrc = lastWrite .aSrc rvs s.aSrc ∧
      (writeArguments rvs s).aDst = lastWrite .aDst rvs s.aDst ∧
      (writeArguments rvs s).aLen = lastWrite .aLen rvs s.aLen ∧
      (writeArguments rvs s).aAux = lastWrite .aAux rvs s.aAux ∧
      (writeArguments rvs s).aWlen = lastWrite .aWlen rvs s.aWlen := by
  induction rvs generalizing s with
  | nil => exact ⟨rfl, rfl, rfl, rfl, rfl⟩
  | cons rv rvs ih => exact ih _

theorem writeArguments_keeps (rvs : List (Reg × Word)) (s : State) :
    (writeArguments rvs s).statusHaz = s.statusHaz ∧ (writeArguments rvs s).mem = s.mem ∧
      (writeArguments rvs s).dir = s.dir ∧ (writeArguments rvs s).ola = s.ola ∧
      (writeArguments rvs s).res0 = s.res0 ∧ (writeArguments rvs s).res1 = s.res1 := by
  induction rvs generalizing s with
  | nil => exact ⟨rfl, rfl, rfl, rfl, rfl, rfl⟩
  | cons rv rvs ih => exact ih _

/-- No row writes a register twice (R107). -/
theorem lastWrite_registers (c : Pseudo) (r : Reg) (old : Word) :
    lastWrite r c.registers old = registerAfter c r old := by
  cases c <;> cases r <;> rfl

/-- Settles O26: the run to the closing `wait` leaves `pseudoIssued`, whose fields are the row's. -/
theorem pseudoInstructionIssuesItsCommand : Obligations.PseudoInstructionIssuesItsCommand := by
  intro f turn polls k c s rest hb hh
  obtain ⟨acts, found, m, hm⟩ := reaches_pseudoIssued hb hh
  obtain ⟨hsrc, hdst, hlen, haux, hwlen⟩ := writeArguments_values c.registers (atHost acts found s)
  obtain ⟨hhaz, hmem, hdir, hola, hres0, hres1⟩ := writeArguments_keeps c.registers (atHost acts found s)
  rw [lastWrite_registers] at hsrc hdst hlen haux hwlen
  unfold pseudoIssued at hm
  generalize writeArguments c.registers (atHost acts found s) = u at *
  refine ⟨m, _, hm, ?_, rfl, rfl, rfl, hhaz, hmem, hdir, hola, hres0, hres1, rfl, hsrc, hdst, hlen, haux, hwlen, ?_⟩
  · exact List.append_assoc ..
  cases c with
  | nop => exact ⟨rfl, decode_encode .nop, hsrc, hdst, hlen, haux, hwlen⟩
  | dsgn ty norm => exact ⟨decode_designWord ty norm, hsrc, hdst, hlen, haux, hwlen⟩
  | dirInit | dirApply | dirRel | olaInit | olaApply | olaRel =>
    exact ⟨rfl, fun h => decode_op_or_ctx h rfl rfl rfl, hsrc, hdst, hlen, haux, hwlen⟩

end Sys2Proof.Machine
end

section
/-! The checks of every command in the order of R226, and what a design answers where they fail and where they pass (R120, R133,
R138). -/

namespace Sys2Proof.Machine

/-! ### Checks in order -/

/-- A result that reports the first failing check with no other effect, and no error where none fails (R226). -/
def ReportsChecks (checks : List (ErrCode × Bool)) (s : State) (r : Result) : Prop :=
  (∀ e, firstFailure checks = some e → r = .next (completed e s)) ∧
    (firstFailure checks = none → ∀ t, r = .next t → t.statusErr = .ok)

theorem ReportsChecks.nil {s : State} {r : Result} (h : ∀ t, r = .next t → t.statusErr = .ok) : ReportsChecks [] s r :=
  ⟨nofun, fun _ => h⟩

theorem ReportsChecks.passed {checks : List (ErrCode × Bool)} {s : State} {r : Result} {e : ErrCode}
    (h : ReportsChecks checks s r) : ReportsChecks ((e, false) :: checks) s r := h

theorem ReportsChecks.failed (e : ErrCode) (checks : List (ErrCode × Bool)) (s : State) :
    ReportsChecks ((e, true) :: checks) s (raiseError e s) := by
  refine ⟨fun e' he => ?_, nofun⟩
  cases he
  exact raiseError_eq e s

/-- A meaning that raises an error under a check's condition, and goes on to the next check otherwise. -/
theorem ReportsChecks.cons {checks : List (ErrCode × Bool)} {s : State} {r : Result} {e : ErrCode} {failed : Bool}
    {c : Prop} [Decidable c] (hc : failed = true ↔ c) (h : ReportsChecks checks s r) :
    ReportsChecks ((e, failed) :: checks) s (if c then raiseError e s else r) := by
  cases failed with
  | true => rw [if_pos (hc.1 rfl)]; exact .failed e checks s
  | false => rw [if_neg fun hp => Bool.false_ne_true (hc.2 hp)]; exact h.passed

theorem doneKeep_err {s t : State} (h : doneKeep s = .next t) : t.statusErr = .ok := by
  rw [doneKeep_eq] at h
  cases h
  rfl

theorem doneWith_err {r0 r1 : Nat} {s t : State} (h : doneWith r0 r1 s = .next t) : t.statusErr = .ok :=
  doneKeep_err h

/-- A fault reports nothing. -/
theorem ReportsChecks.fault (s : State) (x : Fault) : ReportsChecks [] s (.fault x) :=
  .nil fun _ h => by cases h

/-- A command whose checks have passed completes with its source, or faults where the source has no value (R80, R223). -/
theorem ReportsChecks.source {s : State} {source : Option (List Val)} {r0 r1 : List Val → Nat} {u : List Val → State} :
    ReportsChecks [] s
      (match source with
      | some vs => doneWith (r0 vs) (r1 vs) (u vs)
      | none => .fault .uninitRead) := by
  cases source with
  | none => exact .fault s _
  | some vs => exact .nil fun _ => doneWith_err

/-! ### The checks of each meaning -/

theorem runDesign_reportsChecks (t : FilterType) (norm : Bool) (s : State) :
    ReportsChecks (designChecks t norm s) s (runDesign t norm s) := by
  unfold designChecks runDesign
  refine .cons decide_eq_true_iff (.cons decide_eq_true_iff (.cons (by simp [← designRangesOK_iff]) ?_))
  cases readSrc s (lenCount s) with
  | none => exact .passed (.passed (.fault s _))
  | some w =>
    cases readAux s (cutoffCount t) with
    | none => exact .passed (.passed (.fault s _))
    | some fc =>
      dsimp only
      rw [cutoffsOK_eq, ← ite_not]
      refine .cons (by simp) ?_
      change ReportsChecks _ s (match stateTaps s t norm w fc with | some v => _ | none => _)
      cases stateTaps s t norm w fc with
      | none => exact .failed _ [] s
      | some v => exact .passed (.nil fun _ => doneWith_err)

theorem wellFormed_failed_iff {bound : Nat} {ctx : BitVec 4} : (!decide (ctx.toNat < bound)) = true ↔ bound ≤ ctx.toNat := by
  simp

theorem exec_reportsChecks (i : Instr) (s : State) : ReportsChecks (commandChecks i s) s (exec i s) := by
  cases i with
  | nop => exact .passed (.nil fun _ => doneKeep_err)
  | dsgnLp norm => exact .passed (runDesign_reportsChecks .lp norm s)
  | dsgnHp norm => exact .passed (runDesign_reportsChecks .hp norm s)
  | dsgnBp norm => exact .passed (runDesign_reportsChecks .bp norm s)
  | dsgnBs norm => exact .passed (runDesign_reportsChecks .bs norm s)
  | dirInit ctx =>
    exact .cons wellFormed_failed_iff (.cons decide_eq_true_iff (.cons decide_eq_true_iff (.cons (by simp) .source)))
  | dirApply ctx => exact .cons wellFormed_failed_iff (.cons (by simp) (.cons (by simp [or_iff_not_imp_left]) .source))
  | dirRel ctx => exact .cons wellFormed_failed_iff (.nil fun _ => doneKeep_err)
  | olaInit ctx =>
    exact .cons wellFormed_failed_iff
      (.cons decide_eq_true_iff (.cons decide_eq_true_iff (.cons decide_eq_true_iff (.cons (by simp) .source))))
  | olaApply ctx => exact .cons wellFormed_failed_iff (.cons (by simp) (.cons (by simp [or_iff_not_imp_left]) .source))
  | olaRel ctx => exact .cons wellFormed_failed_iff (.nil fun _ => doneKeep_err)

/-- Settles O30: each meaning raises its checks' errors in the order of `commandChecks`. -/
theorem checksReportFirstFailure : Obligations.ChecksReportFirstFailure := exec_reportsChecks

/-! ### A design's checks -/

/-- A design whose checks before the last pass, and that reads these values: what is left to compute (R120). -/
structure DesignReady (s : State) (t : FilterType) (w fc : List Val) : Prop where
  nonempty : lenCount s ≠ 0
  windowLength : wlenCount s = lenCount s
  ranges : designRangesOK s t = true
  window : readSrc s (lenCount s) = some w
  cutoffs : readAux s (cutoffCount t) = some fc
  legal : cutoffsLegal s.params.fmt t fc = true

/-- The last check of a design, NUMERIC_DEGENERACY, fails where there are no final taps (R132). -/
theorem DesignReady.degenerate {s : State} {t : FilterType} {w fc : List Val} (h : DesignReady s t w fc) {norm : Bool}
    (hv : stateTaps s t norm w fc = none) :
    exec (designInstr t norm) s = .next (completed .numericDegeneracy s) := by
  rw [exec_designInstr]
  refine (runDesign_reportsChecks t norm s).1 _ ?_
  simp [designChecks, firstFailure, h.nonempty, h.windowLength, h.ranges, h.window, h.cutoffs, h.legal, hv]

/-- A design whose checks all pass (R133). -/
theorem DesignReady.success {s : State} {t : FilterType} {w fc : List Val} (h : DesignReady s t w fc) {norm : Bool}
    {v : List Val} (hv : stateTaps s t norm w fc = some v) :
    exec (designInstr t norm) s = .next
      { completed .ok s with
        mem := memWrite s.params.fmt s.mem (dstIndex s) v
        res0 := s.aLen
        res1 := 0 } := by
  rw [exec_designInstr, runDesign_success t norm s w fc v h.nonempty h.windowLength h.ranges h.window h.cutoffs
    (by rw [cutoffsOK_eq, h.legal]) hv, lenCount, BitVec.ofNat_toNat, BitVec.setWidth_eq]
  rfl

/-- The final taps, read back at `A_DST` (R133). -/
theorem readElem_finalTaps {s : State} {t : FilterType} {norm : Bool} {w fc v : List Val}
    (hv : stateTaps s t norm w fc = some v) {i : Nat} (hi : i < lenCount s) :
    readElem s.params.fmt (memWrite s.params.fmt s.mem (dstIndex s) v) (dstIndex s + i) = v[i]? := by
  obtain ⟨hlen, hwidth⟩ := designTaps_shape hv
  exact readElem_memWrite _ _ _ _ hwidth i (hlen ▸ hi)

/-- Settles O33: the next state is that of a design whose checks pass, and its one write to DMEM is read back. -/
theorem designWritesFinalTaps : Obligations.DesignWritesFinalTaps := by
  intro s t norm w fc v hn hw hr hsrc haux hc hv
  obtain ⟨hlen, _⟩ := designTaps_shape hv
  refine ⟨hlen, _, DesignReady.success ⟨hn, hw, hr, hsrc, haux, hc⟩ hv, rfl, fun i hi => readElem_finalTaps hv hi,
    fun a ha => ?_⟩
  exact memGet_memWrite_other _ _ _ (hlen.symm ▸ ha)

/-- A design no check of which fails has read its window and cutoffs and computed its taps, or stops where they have no value. -/
theorem exec_design_of_checks {t : FilterType} {norm : Bool} {s : State} (h : firstFailure (designChecks t norm s) = none) :
    exec (designInstr t norm) s = .fault .uninitRead ∨
      ∃ w fc v, DesignReady s t w fc ∧ stateTaps s t norm w fc = some v := by
  rw [firstFailure_eq_none_iff] at h
  simp only [designChecks, List.forall_mem_cons, decide_eq_false_iff_not, not_not, Bool.not_eq_false'] at h
  obtain ⟨hn, hw, hr, hcut, htaps, _⟩ := h
  by_cases hread : readSrc s (lenCount s) = none ∨ readAux s (cutoffCount t) = none
  · left
    rw [exec_designInstr, runDesign_fault_iff]
    exact ⟨hn, hw, hr, hread⟩
  · rw [not_or, ← ne_eq, ← ne_eq, Option.ne_none_iff_exists', Option.ne_none_iff_exists'] at hread
    obtain ⟨⟨w, hsrc⟩, fc, haux⟩ := hread
    simp only [hsrc, haux, Bool.not_eq_false', Option.isNone_eq_false_iff, Option.isSome_iff_exists] at hcut htaps
    obtain ⟨v, hv⟩ := htaps
    exact .inr ⟨w, fc, v, ⟨hn, hw, hr, hsrc, haux, hcut⟩, hv⟩

/-! ### Two states with the same operands -/

/-- A design of no taps, which no command computes: R131's sum over nothing counts as a zero. -/
theorem designTaps_zero (f : Fmt) (sin : Val → Val) (nan : Nat → Nat → Val) (t : FilterType) (norm : Bool) (w fc : List Val) :
    designTaps f sin nan t norm 0 w fc = if norm then none else some [] := by
  have hv : windowedTaps f sin nan t 0 w fc = [] := rfl
  have hS : fpIsZero f (divisor f nan t 0 []) = true := by
    cases t <;> simp [divisor, divisorStart, sigmaPos, fpIsZero]
  simp [designTaps, hv, hS, finiteTaps]

/-- What a design's result is a function of (R138): the parameters, the argument registers and the DMEM values read. -/
structure SameDesignOperands (s₁ s₂ : State) (t : FilterType) : Prop where
  params : s₁.params = s₂.params
  aSrc : s₁.aSrc = s₂.aSrc
  aDst : s₁.aDst = s₂.aDst
  aLen : s₁.aLen = s₂.aLen
  aAux : s₁.aAux = s₂.aAux
  aWlen : s₁.aWlen = s₂.aWlen
  window : readSrc s₁ (lenCount s₁) = readSrc s₂ (lenCount s₂)
  cutoffs : readAux s₁ (cutoffCount t) = readAux s₂ (cutoffCount t)

namespace SameDesignOperands

variable {s₁ s₂ : State} {t : FilterType}

theorem lenCount_eq (h : SameDesignOperands s₁ s₂ t) : lenCount s₁ = lenCount s₂ :=
  congrArg BitVec.toNat h.aLen

theorem wlenCount_eq (h : SameDesignOperands s₁ s₂ t) : wlenCount s₁ = wlenCount s₂ :=
  congrArg BitVec.toNat h.aWlen

theorem dstIndex_eq (h : SameDesignOperands s₁ s₂ t) : dstIndex s₁ = dstIndex s₂ :=
  congrArg BitVec.toNat h.aDst

theorem ranges_eq (h : SameDesignOperands s₁ s₂ t) : designRangesOK s₁ t = designRangesOK s₂ t := by
  rw [designRangesOK, designRangesOK, srcIndex, srcIndex, auxIndex, auxIndex, h.params, h.aSrc, h.aAux, h.lenCount_eq,
    h.dstIndex_eq]

/-- The NaNs drawn change no final tap (R132). -/
theorem taps_eq (h : SameDesignOperands s₁ s₂ t) (norm : Bool) (w fc : List Val) :
    stateTaps s₁ t norm w fc = stateTaps s₂ t norm w fc := by
  rw [stateTaps, stateTaps, h.params, h.lenCount_eq]
  rcases Nat.eq_zero_or_pos (lenCount s₂) with hn | hn
  · rw [hn, designTaps_zero, designTaps_zero]
  · exact designTaps_draw _ _ _ _ _ _ _ _ _ hn

theorem checks_eq (h : SameDesignOperands s₁ s₂ t) (norm : Bool) : designChecks t norm s₁ = designChecks t norm s₂ := by
  simp only [designChecks, h.window, h.cutoffs, h.ranges_eq, h.taps_eq]
  rw [h.params, h.lenCount_eq, h.wlenCount_eq]

theorem ready (h : SameDesignOperands s₁ s₂ t) {w fc : List Val} (hs : DesignReady s₁ t w fc) : DesignReady s₂ t w fc where
  nonempty := h.lenCount_eq ▸ hs.nonempty
  windowLength := h.wlenCount_eq ▸ h.lenCount_eq ▸ hs.windowLength
  ranges := h.ranges_eq ▸ hs.ranges
  window := h.window ▸ hs.window
  cutoffs := h.cutoffs ▸ hs.cutoffs
  legal := h.params ▸ hs.legal

theorem fault (h : SameDesignOperands s₁ s₂ t) {norm : Bool} (hs : exec (designInstr t norm) s₁ = .fault .uninitRead) :
    exec (designInstr t norm) s₂ = .fault .uninitRead := by
  rw [exec_designInstr, runDesign_fault_iff] at hs ⊢
  rwa [h.window, h.cutoffs, h.ranges_eq, h.wlenCount_eq, h.lenCount_eq] at hs

end SameDesignOperands

/-- The error reported is one of the checks'. -/
theorem mem_of_firstFailure {checks : List (ErrCode × Bool)} {e : ErrCode} (h : firstFailure checks = some e) :
    (e, true) ∈ checks := by
  induction checks with
  | nil => cases h
  | cons c checks ih =>
    obtain ⟨e', failed⟩ := c
    cases failed with
    | true => cases h; exact List.mem_cons_self
    | false => exact List.mem_cons_of_mem _ (ih h)

theorem designChecks_err_ne_ok {t : FilterType} {norm : Bool} {s : State} {e : ErrCode}
    (h : firstFailure (designChecks t norm s) = some e) : e ≠ .ok := by
  rintro rfl
  simpa [designChecks] using mem_of_firstFailure h

/-- Settles O38: the two states fail the same check, stop alike, or compute the same taps and write them at the same place. -/
theorem designIsPure : Obligations.DesignIsPure := by
  intro s₁ s₂ t norm hparams hsrc hdst hlen haux hwlen hmem
  have h : SameDesignOperands s₁ s₂ t := by
    refine ⟨hparams, hsrc, hdst, hlen, haux, hwlen, ?_, ?_⟩
    · rw [readSrc, readSrc, lenCount, lenCount, ← hlen, ← hparams, srcIndex, srcIndex, ← hsrc]
      exact memRead_congr fun i hi => hmem _ (.inl ⟨Nat.le_add_right .., Nat.add_lt_add_left hi _⟩)
    · rw [readAux, readAux, ← hparams, auxIndex, auxIndex, ← haux]
      exact memRead_congr fun i hi => hmem _ (.inr ⟨Nat.le_add_right .., Nat.add_lt_add_left hi _⟩)
  cases hf : firstFailure (designChecks t norm s₁) with
  | some e =>
    have h1 := (runDesign_reportsChecks t norm s₁).1 e hf
    have h2 := (runDesign_reportsChecks t norm s₂).1 e (h.checks_eq norm ▸ hf)
    rw [← exec_designInstr] at h1 h2
    exact .inr ⟨_, _, h1, h2, rfl, rfl, rfl, rfl, rfl, fun he => absurd he (designChecks_err_ne_ok hf)⟩
  | none =>
    rcases exec_design_of_checks hf with hfault | ⟨w, fc, v, hready, hv⟩
    · exact .inl ⟨hfault, h.fault hfault⟩
    · have hv' : stateTaps s₂ t norm w fc = some v := h.taps_eq norm w fc ▸ hv
      refine .inr ⟨_, _, hready.success hv, (h.ready hready).success hv', rfl, rfl, rfl, rfl, rfl, fun _ =>
        ⟨h.aLen, rfl, fun i hi => ?_⟩⟩
      have hback : readElem s₁.params.fmt (memWrite s₂.params.fmt s₂.mem (dstIndex s₂) v) (dstIndex s₁ + i) = v[i]? := by
        rw [h.params, h.dstIndex_eq]
        exact readElem_finalTaps hv' (h.lenCount_eq ▸ hi)
      exact (readElem_finalTaps hv hi).trans hback.symm

end Sys2Proof.Machine
end

section
/-! The final taps of a design as a function of the tap number (R126 to R132), and what follows from it: when a design is degenerate
(R132), length 1 (R139), symmetric windows (R140), and two taps (R141). -/

namespace Sys2Proof.Machine

/-! ### The divisor's sums -/

/-- R131's sum over the taps `p 0` to `p i` of a design of `n` taps. -/
def divisorSum (f : Fmt) (nan : Nat → Nat → Val) (t : FilterType) (n : Nat) (p : Nat → Val) : Nat → Val
  | 0 =>
    match t with
    | .lp | .bp => p 0
    | .hp | .bs => if sigmaPos n 0 then p 0 else fpNeg f (p 0)
  | i + 1 =>
    match t with
    | .lp | .bp => fpAdd f (nan (i + 1) 1) (divisorSum f nan t n p i) (p (i + 1))
    | .hp | .bs =>
      if sigmaPos n (i + 1) then fpAdd f (nan (i + 1) 1) (divisorSum f nan t n p i) (p (i + 1))
      else fpSub f (nan (i + 1) 1) (divisorSum f nan t n p i) (p (i + 1))

/-- The sign of R131 is + where the statement's difference is even. -/
theorem sigmaPos_iff (n i : Nat) : sigmaPos n i = true ↔ ((i : Int) - ((n - 1) / 2 : Nat)) % 2 = 0 := by
  rw [sigmaPos, decide_eq_true_iff]
  omega

theorem divisorSum_spec (f : Fmt) (nan : Nat → Nat → Val) (t : FilterType) (n : Nat) (p : Nat → Val) :
    DivisorSums f nan t n p (divisorSum f nan t n p) := by
  cases t with
  | lp | bp => exact ⟨rfl, fun _ _ => rfl⟩
  | hp | bs =>
    simp only [DivisorSums, ← sigmaPos_iff]
    exact ⟨fun h => if_pos h, fun h => if_neg h, fun i _ => ⟨fun h => if_pos h, fun h => if_neg h⟩⟩

/-- The model's divisor of a list of taps is R131's sum over all of them. -/
theorem divisor_eq_divisorSum {f : Fmt} {nan : Nat → Nat → Val} {t : FilterType} {n : Nat} {v : List Val} {p : Nat → Val}
    (hn : 0 < n) (hv : ∀ i, i < n → v.getD i fpZero = p i) : divisor f nan t n v = divisorSum f nan t n p (n - 1) := by
  have partialSum : ∀ k, k < n → ((List.range k).map (· + 1)).foldl (divisorStep f nan t n v) (divisorStart f t n v) =
      divisorSum f nan t n p k := by
    intro k hk
    induction k with
    | zero => cases t <;> simp only [divisorSum, divisorStart, hv 0 hn] <;> rfl
    | succ k ih =>
      rw [List.range_succ, List.map_append, List.foldl_append, ih (by omega)]
      cases t <;> simp only [List.map_cons, List.map_nil, List.foldl_cons, List.foldl_nil, divisorStep, divisorSum, hv _ hk]
  exact partialSum (n - 1) (by omega)

/-! ### The final taps -/

section Taps

variable (f : Fmt) (sin : Val → Val) (nan : Nat → Nat → Val) (t : FilterType) (norm : Bool) (n : Nat) (w fc : List Val)

/-- The divisor of a design (R131). -/
def designDivisor : Val := divisorSum f nan t n (weightedTap f sin nan t n w fc) (n - 1)

/-- Final tap `i` of a design (R130, R131). -/
def finalTap (i : Nat) : Val :=
  if norm then fpDiv f (nan i 2) (weightedTap f sin nan t n w fc i) (designDivisor f sin nan t n w fc)
  else weightedTap f sin nan t n w fc i

/-- R130 spelled out is the model's ideal response times the window value. -/
theorem weightedTap_eq (i : Nat) :
    weightedTap f sin nan t n w fc i = fpMul f (nan i 0) (idealTap f sin (nan i 0) t n fc i) (w.getD i fpZero) := by
  cases t <;> rfl

theorem windowedTaps_eq : windowedTaps f sin nan t n w fc = (List.range n).map (weightedTap f sin nan t n w fc) :=
  List.map_congr_left fun i _ => (weightedTap_eq f sin nan t n w fc i).symm

theorem normalizedTaps_map (S : Val) (p : Nat → Val) :
    normalizedTaps f nan S ((List.range n).map p) = (List.range n).map fun i => fpDiv f (nan i 2) (p i) S := by
  apply List.ext_getElem <;> simp [normalizedTaps]

theorem getD_map_range (p : Nat → Val) {i : Nat} (hi : i < n) : ((List.range n).map p).getD i fpZero = p i := by
  simp [List.getD_eq_getElem?_getD, hi]

theorem divisor_windowedTaps (hn : 0 < n) :
    divisor f nan t n (windowedTaps f sin nan t n w fc) = designDivisor f sin nan t n w fc :=
  divisor_eq_divisorSum hn fun i hi => by rw [windowedTaps_eq, getD_map_range n _ hi]

/-- The numeric part of a design answers its final taps where they are finite and it does not divide by a zero (R132). -/
theorem designTaps_eq_some_iff_finalTap (hn : 0 < n) (v : List Val) :
    designTaps f sin nan t norm n w fc = some v ↔
      (norm = true → fpIsZero f (designDivisor f sin nan t n w fc) = false) ∧
        (∀ i, i < n → fpIsFinite f (finalTap f sin nan t norm n w fc i) = true) ∧
        v = (List.range n).map (finalTap f sin nan t norm n w fc) := by
  have finite_iff : v = (List.range n).map (finalTap f sin nan t norm n w fc) →
      (v.all (fpIsFinite f) = true ↔ ∀ i, i < n → fpIsFinite f (finalTap f sin nan t norm n w fc i) = true) := by
    rintro rfl
    simp
  rw [designTaps_eq_some_iff, divisor_windowedTaps f sin nan t n w fc hn, windowedTaps_eq, normalizedTaps_map]
  cases norm with
  | false =>
    simp only [finalTap, Bool.false_eq_true, if_false, false_and, or_false, true_and, false_imp_iff] at finite_iff ⊢
    exact ⟨fun ⟨hf, hv⟩ => ⟨(finite_iff hv).1 hf, hv⟩, fun ⟨hf, hv⟩ => ⟨(finite_iff hv).2 hf, hv⟩⟩
  | true =>
    simp only [finalTap, Bool.true_eq_false, if_true, false_and, false_or, true_and, true_imp_iff] at finite_iff ⊢
    exact ⟨fun ⟨hf, hz, hv⟩ => ⟨hz, (finite_iff hv).1 hf, hv⟩, fun ⟨hz, hf, hv⟩ => ⟨(finite_iff hv).2 hf, hz, hv⟩⟩

/-- Where a design is degenerate (R132). -/
theorem designTaps_eq_none_iff (hn : 0 < n) :
    designTaps f sin nan t norm n w fc = none ↔
      (norm = true ∧ fpIsZero f (designDivisor f sin nan t n w fc) = true) ∨
        ∃ i, i < n ∧ fpIsFinite f (finalTap f sin nan t norm n w fc i) = false := by
  rw [Option.eq_none_iff_forall_ne_some]
  simp only [ne_eq, designTaps_eq_some_iff_finalTap f sin nan t norm n w fc hn]
  constructor
  · intro h
    by_contra hc
    push Not at hc
    exact h _ ⟨by simpa using hc.1, by simpa using hc.2, rfl⟩
  · rintro (⟨hnorm, hz⟩ | ⟨i, hi, hfin⟩) v ⟨hz', hfin', _⟩
    · exact Bool.false_ne_true ((hz' hnorm).symm.trans hz)
    · exact Bool.false_ne_true (hfin.symm.trans (hfin' i hi))

end Taps

/-- Settles O34: the taps are `finalTap`, whose divisor is the sum of `divisorSum_spec`. -/
theorem finalTapsFollowTheFormulas : Obligations.FinalTapsFollowTheFormulas := by
  intro f sin nan t norm n w fc v h p
  refine ⟨(designTaps_shape h).1, divisorSum f nan t n p, divisorSum_spec f nan t n p, fun i hi => ?_⟩
  obtain ⟨hz, hfin, rfl⟩ := (designTaps_eq_some_iff_finalTap f sin nan t norm n w fc (by omega) v).1 h
  rw [getD_map_range n _ hi]
  exact ⟨hfin i hi, fun hnorm => by rw [finalTap, hnorm]; rfl, fun hnorm => ⟨hz hnorm, by rw [finalTap, hnorm]; rfl⟩⟩

/-- Settles O57: the design reports its last check exactly where `designTaps_eq_none_iff` says, and succeeds elsewhere. -/
theorem degeneracyIsZeroDivisorOrNonFiniteTap : Obligations.DegeneracyIsZeroDivisorOrNonFiniteTap := by
  intro s t norm w fc hn hw hr hsrc haux hc f n nan p
  have hready : DesignReady s t w fc := ⟨hn, hw, hr, hsrc, haux, hc⟩
  have hnone := designTaps_eq_none_iff f (sinF f) nan t norm n w fc (Nat.pos_of_ne_zero hn)
  refine ⟨divisorSum f nan t n p, divisorSum_spec f nan t n p, fun hd => hready.degenerate (hnone.2 hd), fun hd => ?_⟩
  obtain ⟨v, hv⟩ := Option.ne_none_iff_exists'.1 (mt hnone.1 hd)
  exact ⟨_, hready.success hv, rfl⟩

/-! ### Length 1 -/

/-- 1.0 is exact in both formats: the pattern of 2 ^ scale units. -/
theorem fpOne_eq (f : Fmt) : ∃ b, b < f.infBits ∧ magOfBits f b = 2 ^ f.scale ∧ fpOne f = fpPack f false b := by
  have hscale : f.prec - 1 ≤ f.scale := by cases f <;> decide
  have hfin : (f.scale - (f.prec - 1)) * 2 ^ (f.prec - 1) + 2 ^ (f.prec - 1) < f.infBits := by cases f <;> decide
  have hmag : magOfBits f ((f.scale - (f.prec - 1)) * 2 ^ (f.prec - 1) + 2 ^ (f.prec - 1)) = 2 ^ f.scale := by
    rw [magOfBits_scaled f _ (.inr le_rfl) (by omega), ← pow_add, Nat.add_sub_cancel' hscale]
  have hround := roundMag_exact f Nat.one_pos hfin.le
  rw [hmag, Nat.mul_comm] at hround
  exact ⟨_, hfin, hmag, by rw [fpOne, fpOfRatio, hround]⟩

theorem fpOne_finite (f : Fmt) : fpIsFinite f (fpOne f) = true := by
  obtain ⟨b, hb, _, hone⟩ := fpOne_eq f
  rw [fpIsFinite, hone, fpAbs_pack_le hb.le, decide_eq_true_iff]
  exact hb

/-- A finite value that is not a zero, divided by itself (R139). -/
theorem fpDiv_self {f : Fmt} {a : Val} (draw : Val) (hfin : fpIsFinite f a = true) (hz : fpIsZero f a = false) :
    fpDiv f draw a a = fpOne f := by
  obtain ⟨b, hb, hmag, hone⟩ := fpOne_eq f
  have hpos : 0 < fpMag f a := Nat.pos_of_ne_zero (mt fpMag_eq_zero.1 (Bool.eq_false_iff.1 hz))
  have hround := roundMag_exact f hpos hb.le
  rw [hmag, Nat.mul_comm] at hround
  rw [fpDiv_finite draw hfin hfin hz, hround, hone, bne_self_eq_false]

theorem designDivisor_one (f : Fmt) (sin : Val → Val) (nan : Nat → Nat → Val) (t : FilterType) (w fc : List Val) :
    designDivisor f sin nan t 1 w fc = weightedTap f sin nan t 1 w fc 0 := by
  cases t <;> rfl

/-- Settles O35: the one tap is its own divisor. -/
theorem lengthOneNormalizedDesignIsUnity : Obligations.LengthOneNormalizedDesignIsUnity := by
  intro s t w0 fc hn hw hr hsrc haux hc d v0
  have hready : DesignReady s t [w0] fc := ⟨by omega, by omega, hr, hn ▸ hsrc, haux, hc⟩
  have hv0 : weightedTap s.params.fmt (sinF s.params.fmt) (nanDraws s) t 1 [w0] fc 0 = v0 := weightedTap_eq ..
  have hdiv := (designDivisor_one s.params.fmt (sinF s.params.fmt) (nanDraws s) t [w0] fc).trans hv0
  constructor
  · rintro ⟨hfin, hz⟩
    have htap : finalTap s.params.fmt (sinF s.params.fmt) (nanDraws s) t true 1 [w0] fc 0 = fpOne s.params.fmt := by
      rw [finalTap, if_pos rfl, hdiv, hv0, fpDiv_self _ hfin hz]
    have hv : stateTaps s t true [w0] fc = some [fpOne s.params.fmt] := by
      rw [stateTaps, hn, designTaps_eq_some_iff_finalTap _ _ _ _ _ _ _ _ Nat.one_pos, hdiv]
      refine ⟨fun _ => hz, fun i hi => ?_, by simp [htap]⟩
      rw [Nat.lt_one_iff.1 hi, htap, fpOne_finite]
    exact ⟨_, hready.success hv, rfl, readElem_finalTaps hv (i := 0) (by omega)⟩
  · intro hz
    refine hready.degenerate ?_
    rw [stateTaps, hn, designTaps_eq_none_iff _ _ _ _ _ _ _ _ Nat.one_pos, hdiv]
    exact .inl ⟨rfl, hz⟩

/-! ### Symmetric windows -/

/-- Mirrored taps have opposite offsets (R122, R140). -/
theorem tapOffset_mirror (f : Fmt) {n i : Nat} (hi : i < n) (hmid : 2 * i ≠ n - 1) :
    tapOffset f n (n - 1 - i) = fpNeg f (tapOffset f n i) := by
  have hsign : decide (2 * (n - 1 - i) < n - 1) = !decide (2 * i < n - 1) := by
    rw [← decide_not, decide_eq_decide]
    omega
  have hsize : (2 * ((n - 1 - i : Nat) : Int) - ((n - 1 : Nat) : Int)).natAbs =
      (2 * (i : Int) - ((n - 1 : Nat) : Int)).natAbs := by omega
  rw [tapOffset, tapOffset, fpOfRatio, fpOfRatio, fpNeg_pack (roundMag_le ..), hsign, hsize]

theorem tapDelta_mirror (f : Fmt) {n i : Nat} (hi : i < n) : tapDelta f n (n - 1 - i) = tapDelta f n i := by
  have h : 2 * (n - 1 - i) = n - 1 ↔ 2 * i = n - 1 := by omega
  simp only [tapDelta, h]

/-- The normalized sine is even (R124, R140): the sine is odd, and so is the argument it is divided by. -/
theorem sincF_neg (f : Fmt) (d d' x : Val) : SameValue f (sincF f (sinF f) d (fpNeg f x)) (sincF f (sinF f) d' x) := by
  unfold sincF
  rw [fpIsZero_neg]
  split
  · exact .rfl' _
  · have harg := fpMul_neg_right f d d' (fpPi f) x
    by_cases hn : fpIsNaN f (fpMul f d' (fpPi f) x) = true
    · have hn' : fpIsNaN f (fpMul f d (fpPi f) (fpNeg f x)) = true := by rw [harg.isNaN, fpIsNaN_neg, hn]
      exact .inr ⟨fpDiv_nan_right _ _ hn', fpDiv_nan_right _ _ hn⟩
    · rw [Bool.not_eq_true] at hn
      have hneg : fpMul f d (fpPi f) (fpNeg f x) = fpNeg f (fpMul f d' (fpPi f) x) :=
        (harg.comm.eq_of_not_nan (by rw [fpIsNaN_neg, hn])).symm
      rw [hneg, sineIsOdd f _ hn]
      exact fpDiv_neg_neg ..

theorem lowpassTerm_neg (f : Fmt) (d d' c k : Val) :
    SameValue f (lowpassTerm f (sinF f) d c (fpNeg f k)) (lowpassTerm f (sinF f) d' c k) := by
  have hc := sameValue_mul (f := f) d d' (SameValue.rfl' (fpTwo f)) (SameValue.rfl' c)
  have harg : SameValue f (fpMul f d (fpMul f d (fpTwo f) c) (fpNeg f k))
      (fpNeg f (fpMul f d' (fpMul f d' (fpTwo f) c) k)) :=
    (sameValue_mul d d' hc (SameValue.rfl' _)).trans (fpMul_neg_right ..)
  exact sameValue_mul d d' hc ((sincF_draw f (sinF f) d d' harg).trans (sincF_neg ..))

theorem lowpassTerm_mirror (f : Fmt) (d d' c : Val) {n i : Nat} (hi : i < n) :
    SameValue f (lowpassTerm f (sinF f) d c (tapOffset f n (n - 1 - i))) (lowpassTerm f (sinF f) d' c (tapOffset f n i)) := by
  by_cases hmid : 2 * i = n - 1
  · rw [show n - 1 - i = i by omega]
    exact lowpassTerm_draw ..
  · rw [tapOffset_mirror f hi hmid]
    exact lowpassTerm_neg ..

/-- Every ideal response is symmetric (R126 to R129, R140). -/
theorem idealTap_mirror (f : Fmt) (d d' : Val) (t : FilterType) (fc : List Val) {n i : Nat} (hi : i < n) :
    SameValue f (idealTap f (sinF f) d t n fc (n - 1 - i)) (idealTap f (sinF f) d' t n fc i) := by
  have hlp := fun c => lowpassTerm_mirror f d d' c hi
  have hdelta : SameValue f (tapDelta f n (n - 1 - i)) (tapDelta f n i) := .inl (tapDelta_mirror f hi)
  cases t with
  | lp => exact hlp _
  | hp => exact sameValue_sub d d' hdelta (hlp _)
  | bp => exact sameValue_sub d d' (hlp _) (hlp _)
  | bs => exact sameValue_sub d d' hdelta (sameValue_sub d d' (hlp _) (hlp _))

theorem weightedTap_mirror (f : Fmt) (nan : Nat → Nat → Val) (t : FilterType) {n : Nat} {w : List Val} (fc : List Val) {i : Nat}
    (hi : i < n) (hw : w.getD i fpZero = w.getD (n - 1 - i) fpZero) :
    SameValue f (weightedTap f (sinF f) nan t n w fc (n - 1 - i)) (weightedTap f (sinF f) nan t n w fc i) := by
  rw [weightedTap_eq, weightedTap_eq, hw]
  exact sameValue_mul _ _ (idealTap_mirror f _ _ t fc hi) (.rfl' _)

theorem finalTap_mirror (f : Fmt) (nan : Nat → Nat → Val) (t : FilterType) (norm : Bool) {n : Nat} {w : List Val} (fc : List Val)
    {i : Nat} (hi : i < n) (hw : w.getD i fpZero = w.getD (n - 1 - i) fpZero) :
    SameValue f (finalTap f (sinF f) nan t norm n w fc (n - 1 - i)) (finalTap f (sinF f) nan t norm n w fc i) := by
  have hp := weightedTap_mirror f nan t fc hi hw
  cases norm with
  | false => exact hp
  | true => exact sameValue_div _ _ hp (.rfl' _)

/-- Settles O36: mirrored taps are equal up to the payload of a NaN, and a final tap is no NaN. -/
theorem symmetricWindowGivesSymmetricTaps : Obligations.SymmetricWindowGivesSymmetricTaps := by
  intro f nan t norm n w fc v hw h i hi
  obtain ⟨_, hfin, rfl⟩ := (designTaps_eq_some_iff_finalTap f (sinF f) nan t norm n w fc (by omega) v).1 h
  rw [getD_map_range n _ hi, getD_map_range n _ (by omega)]
  exact (finalTap_mirror f nan t norm fc hi (hw i hi)).comm.eq_of_finite (hfin i hi)

/-! ### Two taps -/

/-- A value less itself is a zero, or a NaN where the value is not finite. -/
theorem fpSub_same {f : Fmt} {a b : Val} (draw : Val) (h : SameValue f a b) :
    fpIsZero f (fpSub f draw a b) = true ∨ fpIsNaN f (fpSub f draw a b) = true := by
  rcases h with rfl | ⟨hnan, _⟩
  · by_cases hfin : fpIsFinite f a = true
    · left
      rw [fpSub, fpAdd_finite draw hfin (by rw [fpIsFinite_neg, hfin]), fpInt_neg, add_neg_cancel, fpOfInt, if_pos rfl,
        fpIsZero, fpAbs_pack_le (Nat.zero_le _), decide_eq_true_iff]
    · right
      by_cases hnan : fpIsNaN f a = true
      · exact fpAdd_nan_left _ _ hnan
      · have hinf : fpIsInf f a = true := by
          simp only [fpIsFinite, fpIsNaN, fpIsInf, decide_eq_true_iff] at hfin hnan ⊢
          omega
        simp [fpSub, fpAdd, hnan, hinf, fpIsNaN_nan]
  · exact .inr (fpAdd_nan_left _ _ hnan)

/-- The divisor of two taps of a highpass or bandstop design is their difference (R131). -/
theorem designDivisor_two (f : Fmt) (sin : Val → Val) (nan : Nat → Nat → Val) {t : FilterType} (w fc : List Val)
    (ht : t = .hp ∨ t = .bs) :
    designDivisor f sin nan t 2 w fc =
      fpSub f (nan 1 1) (weightedTap f sin nan t 2 w fc 0) (weightedTap f sin nan t 2 w fc 1) := by
  rcases ht with rfl | rfl <;> rfl

/-- Settles O37: the two taps are equal up to the payload of a NaN, so that their difference is a zero or makes every tap a NaN. -/
theorem twoTapHighpassIsDegenerate : Obligations.TwoTapHighpassIsDegenerate := by
  intro f nan t x fc ht
  have hsame := weightedTap_mirror f nan t (n := 2) (w := [x, x]) fc (i := 1) (by decide) rfl
  have hdiv := fpSub_same (nan 1 1) hsame
  rw [← designDivisor_two f (sinF f) nan [x, x] fc ht] at hdiv
  rw [designTaps_eq_none_iff _ _ _ _ _ _ _ _ Nat.two_pos]
  rcases hdiv with hz | hnan
  · exact .inl ⟨rfl, hz⟩
  · refine .inr ⟨0, Nat.two_pos, Bool.eq_false_iff.2 fun hfin => ?_⟩
    rw [finalTap, if_pos rfl] at hfin
    exact Bool.false_ne_true ((not_nan_of_finite hfin).symm.trans (fpDiv_nan_right _ _ hnan))

end Sys2Proof.Machine
end

section
/-! The commands of the direct engine (41_direct.md) as the host sees them: a construction (R161), an apply of no samples (R170, R188)
and a release (R166, R189), with what they leave in the contexts and in `CTXV` (R38). -/

namespace Sys2Proof.Machine

/-! ### Operands -/

/-- `A_LEN` as a word again (R217). -/
@[simp] theorem ofNat_lenCount (s : State) : BitVec.ofNat 32 (lenCount s) = s.aLen := by
  rw [lenCount, BitVec.ofNat_toNat, BitVec.setWidth_eq]

/-- An empty range is legal for every base (R69). -/
@[simp] theorem rangeOK_zero (p : Params) (base : Nat) : rangeOK p base 0 = true := (rangeOK_iff p base 0).2 (.inr rfl)

/-! ### A context put in -/

theorem getD_set_self {α : Type} {l : List α} {n : Nat} (a d : α) (h : n < l.length) : (l.set n a).getD n d = a := by
  rw [List.getD_eq_getElem?_getD, List.getElem?_set_self h, Option.getD_some]

/-- A list with its own entry put in again. -/
theorem set_getD_self {α : Type} (l : List α) (n : Nat) (d : α) : l.set n (l.getD n d) = l := by
  by_cases h : n < l.length
  · rw [List.getD_eq_getElem _ _ h, List.set_getElem_self]
  · exact List.set_eq_of_length_le (Nat.le_of_not_lt h)

@[simp] theorem set_dirCtx (s : State) (d : Nat) : s.dir.set d (dirCtx s d) = s.dir := set_getD_self _ _ _

@[simp] theorem set_olaCtx (s : State) (o : Nat) : s.ola.set o (olaCtx s o) = s.ola := set_getD_self _ _ _

section PutIn

variable {s t : State} {ctx : BitVec 4}

theorem dirCtx_of_set {c : DirCtx Val} (ht : t.dir = s.dir.set ctx.toNat c) (hd : ctx.toNat < s.dir.length) :
    dirCtx t ctx.toNat = c := by
  rw [dirCtx, ht, getD_set_self _ _ hd]

theorem olaCtx_of_set {c : OlaCtx Val} (ht : t.ola = s.ola.set ctx.toNat c) (ho : ctx.toNat < s.ola.length) :
    olaCtx t ctx.toNat = c := by
  rw [olaCtx, ht, getD_set_self _ _ ho]

/-- The `CTXV` bit of a direct context that FIRCORE has (R6, R38). -/
theorem ctxvWord_dirBit (h : ctx.toNat < s.params.nctxDir) :
    (ctxvWord s).getLsbD ctx.toNat = (dirCtx s ctx.toNat).valid := by
  rw [(ctxvWord_bit s _ ctx.isLt).1, dirValidBit, decide_eq_true h, Bool.true_and, dirCtx]

/-- The `CTXV` bit of an overlap-add context that FIRCORE has (R6, R38). -/
theorem ctxvWord_olaBit (h : ctx.toNat < s.params.nctxOla) :
    (ctxvWord s).getLsbD (16 + ctx.toNat) = (olaCtx s ctx.toNat).valid := by
  rw [(ctxvWord_bit s _ ctx.isLt).2, olaValidBit, decide_eq_true h, Bool.true_and, olaCtx]

end PutIn

/-! ### Construction -/

/-- Settles O41: the constructed context is the one then found at its place. -/
theorem dirInitConstructsContext : Obligations.DirInitConstructsContext := by
  intro s ctx T hdir hctx hn hcap hr hT
  have hlen : T.length = lenCount s := memRead_length hT
  obtain ⟨u, hexec, hu⟩ : ∃ u, exec (.dirInit ctx) s = .next u ∧
      u = { completed .ok s with dir := s.dir.set ctx.toNat (dirConstruct fpZero T), res0 := s.aLen, res1 := 0 } :=
    ⟨_, execDirInit_success ctx s T hctx hn hcap hr hT, by rw [ofNat_lenCount]; rfl⟩
  have hset : u.dir = s.dir.set ctx.toNat (dirConstruct fpZero T) := by rw [hu]
  have hparams : u.params = s.params := by rw [hu, completed_params]
  refine ⟨u, hexec, by rw [hset]; exact hu, by rw [hset, dirConstruct, hlen], hlen, ?_⟩
  rw [ctxvWord_dirBit (hparams ▸ hctx), dirCtx_of_set hset (hdir ▸ hctx), dirConstruct]

/-! ### An apply of no samples -/

theorem exec_dirApply_empty {s : State} {ctx : BitVec 4} (hn : lenCount s = 0) (hctx : ctx.toNat < s.params.nctxDir)
    (hv : (dirCtx s ctx.toNat).valid = true) :
    exec (.dirApply ctx) s = .next { completed .ok s with res0 := 0, res1 := 0 } := by
  refine (execDirApply_success ctx s [] hctx hv (by simp [hn]) (by simp [hn]) (by rw [hn]; rfl)).trans ?_
  simp [dirStream, memWrite, hn, completed]

/-- A backlog below the chunk length completes no chunk (R188). -/
theorem olaOutCount_zero {c : OlaCtx Val} (hs : OlaShape c) : olaOutCount c 0 = 0 := by
  rw [olaOutCount, Nat.add_zero, Nat.div_eq_of_lt hs.fill, Nat.zero_mul]

theorem exec_olaApply_empty {s : State} {ctx : BitVec 4} (hn : lenCount s = 0) (hctx : ctx.toNat < s.params.nctxOla)
    (hv : (olaCtx s ctx.toNat).valid = true) (hs : OlaShape (olaCtx s ctx.toNat)) :
    exec (.olaApply ctx) s =
      .next { completed .ok s with res0 := 0, res1 := BitVec.ofNat 32 (olaCtx s ctx.toNat).fill } := by
  have hout : olaOutCount (olaCtx s ctx.toNat) (lenCount s) = 0 := by rw [hn, olaOutCount_zero hs]
  refine (execOlaApply_success ctx s [] hctx hv (by simp [hn]) (by simp [hout]) (by rw [hn]; rfl)).trans ?_
  simp [olaStream, memWrite, hout, completed]

/-- The backlog fits `RES1` (R6, R44, R217). -/
theorem fill_lt_two_pow {p : Params} {c : OlaCtx Val} (hp : p.legal = true) (h : olaCtxOK p c = true) (hv : c.valid = true) :
    c.fill < 2 ^ 32 := by
  obtain ⟨_, _, hblock, _⟩ := legal_bounds hp
  have hs := olaShape_of_ok h hv
  have hb : c.b ≤ p.maxBlock := by
    simp only [olaCtxOK, hv, Bool.not_true, Bool.false_or, Bool.and_eq_true, decide_eq_true_eq] at h
    tauto
  have := hs.fill
  have := hs.chunk
  have := hs.one_le
  have := hs.twice
  omega

/-- Settles O45: no sample is pushed, no element is written, and the context is put in as it was. -/
theorem zeroLengthApplyIsNoOp : Obligations.ZeroLengthApplyIsNoOp := by
  intro s ctx hn
  constructor
  · rintro ⟨hctx, hv⟩
    exact exec_dirApply_empty hn hctx hv
  · rintro ⟨hctx, hinv, hv⟩
    have hok := hinv.olaCtx_legal ctx.toNat
    refine ⟨_, exec_olaApply_empty hn hctx hv (olaShape_of_ok hok hv), rfl, ?_⟩
    exact (BitVec.toNat_ofNat ..).trans (Nat.mod_eq_of_lt (fill_lt_two_pow hinv.params hok hv))

/-! ### Release -/

/-- An apply on a context that is not valid (R165, R226). -/
theorem exec_dirApply_notConfigured {s : State} {ctx : BitVec 4} (hctx : ctx.toNat < s.params.nctxDir)
    (hv : (dirCtx s ctx.toNat).valid = false) : exec (.dirApply ctx) s = .next (completed .notConfigured s) :=
  (exec_reportsChecks (.dirApply ctx) s).1 _ (by simp [commandChecks, firstFailure, Instr.wellFormed, hctx, hv])

/-- An apply on a context that is not valid (R188, R226). -/
theorem exec_olaApply_notConfigured {s : State} {ctx : BitVec 4} (hctx : ctx.toNat < s.params.nctxOla)
    (hv : (olaCtx s ctx.toNat).valid = false) : exec (.olaApply ctx) s = .next (completed .notConfigured s) :=
  (exec_reportsChecks (.olaApply ctx) s).1 _ (by simp [commandChecks, firstFailure, Instr.wellFormed, hctx, hv])

/-- Settles O46: the context found at its place is no longer valid, which both the bit and the apply read. -/
theorem releaseInvalidatesContext : Obligations.ReleaseInvalidatesContext := by
  intro s ctx
  constructor
  · intro hctx hlen
    obtain ⟨u, hexec, hu⟩ : ∃ u, exec (.dirRel ctx) s = .next u ∧
        u = { completed .ok s with dir := s.dir.set ctx.toNat { dirCtx s ctx.toNat with valid := false } } :=
      ⟨_, (execDirRel_eq ctx s).trans (if_neg (by omega)), rfl⟩
    have hctx' : ctx.toNat < u.params.nctxDir := by rw [hu]; exact hctx
    have hv : (dirCtx u ctx.toNat).valid = false := by rw [dirCtx_of_set (s := s) (by rw [hu]) (hlen ▸ hctx)]
    exact ⟨u, hexec, hu, (ctxvWord_dirBit hctx').trans hv, exec_dirApply_notConfigured hctx' hv⟩
  · intro hctx hlen
    obtain ⟨u, hexec, hu⟩ : ∃ u, exec (.olaRel ctx) s = .next u ∧
        u = { completed .ok s with ola := s.ola.set ctx.toNat { olaCtx s ctx.toNat with valid := false } } :=
      ⟨_, (execOlaRel_eq ctx s).trans (if_neg (by omega)), rfl⟩
    have hctx' : ctx.toNat < u.params.nctxOla := by rw [hu]; exact hctx
    have hv : (olaCtx u ctx.toNat).valid = false := by rw [olaCtx_of_set (s := s) (by rw [hu]) (hlen ▸ hctx)]
    exact ⟨u, hexec, hu, (ctxvWord_olaBit hctx').trans hv, exec_olaApply_notConfigured hctx' hv⟩

end Sys2Proof.Machine
end

section
/-! The outputs of the direct engine (41_direct.md): the reference sum of R160 in the order of R163, one stream in place of many
(R168), and the impulse response (R169). -/

namespace Sys2Proof.Machine

/-! ### Every output is a reference sum -/

section Stream

variable {α : Type} (A : Arith α) {c : DirCtx α} {xs : List α} {k : Nat}

/-- Output `i` of a stream: `FirSample` on the context all earlier samples were pushed to (R165). -/
theorem dirStream_getElem? (k : Nat) (c : DirCtx α) (xs : List α) (i : Nat) :
    (dirStream A k c xs).2[i]? = xs[i]?.map (firSample A (k + i) ((xs.take i).foldl pushSample c)) := by
  induction xs generalizing k c i with
  | nil => rfl
  | cons x xs ih =>
    cases i with
    | zero => rfl
    | succ i => simp [dirStream, ih, Nat.add_assoc, Nat.add_comm 1]

/-- The sample `j` positions back from input `k`, found in the history followed by the input (R42, R162). -/
theorem pastSample_pushAll (hs : DirShape c) (hk : k ≤ xs.length) {j : Nat} (h1 : 1 ≤ j) (h2 : j ≤ c.m - 1) :
    pastSample A ((xs.take k).foldl pushSample c) j = (history A.zero c ++ xs).getD (c.m - 1 + k - j) A.zero := by
  have hm := (pushAll_keeps (xs.take k) c).2.1
  have hlen : (history A.zero c ++ xs.take k).length = c.m - 1 + k := by simp [hk]
  have htake : history A.zero c ++ xs.take k = (history A.zero c ++ xs).take (c.m - 1 + k) := by
    rw [← history_length A.zero c, List.take_length_add_append]
  rw [pastSample_eq A _ h1 (by rwa [hm]), history_pushAll A.zero hs, hm, lastValues, hlen, htake]
  simp only [List.getD_eq_getElem?_getD, List.getElem?_drop]
  rw [List.getElem?_take_of_lt (by omega)]
  congr 3
  omega

/-- `FirSample` on the context the first `k` samples were pushed to is the reference sum for output `k` (R160, R163). -/
theorem firSample_pushAll (hs : DirShape c) (hk : k < xs.length) :
    firSample A k ((xs.take k).foldl pushSample c) xs[k] = referenceOutput A c.taps (history A.zero c ++ xs) k := by
  obtain ⟨-, hm, htaps⟩ := pushAll_keeps (xs.take k) c
  have hnow : (history A.zero c ++ xs).getD (c.m - 1 + k) A.zero = xs[k] := by
    rw [List.getD_append_right _ _ _ _ (by simp), history_length, Nat.add_sub_cancel_left, List.getD_eq_getElem _ _ hk]
  rw [firSample, referenceOutput, hm, htaps, hs.taps, hnow]
  refine List.foldl_ext _ _ _ fun acc j hj => ?_
  obtain ⟨i, hi, rfl⟩ := List.mem_map.1 hj
  rw [pastSample_pushAll A hs hk.le (by omega) (by have := List.mem_range.1 hi; omega)]

/-- The outputs of a stream are the reference sums over the history followed by the input (R160, R167). -/
theorem dirStream_eq_reference (hs : DirShape c) (hk : k < xs.length) :
    (dirStream A 0 c xs).2[k]? = some (referenceOutput A c.taps (history A.zero c ++ xs) k) := by
  rw [dirStream_getElem?, List.getElem?_eq_getElem hk, Option.map_some, Nat.zero_add, firSample_pushAll A hs hk]

/-- The outputs of a stream into a constructed context, whose history is all zeros (R161). -/
theorem dirStream_construct {T : List α} (hT : T ≠ []) (hk : k < xs.length) :
    (dirStream A 0 (dirConstruct A.zero T) xs).2[k]? =
      some (referenceOutput A T (List.replicate (T.length - 1) A.zero ++ xs) k) := by
  rw [dirStream_eq_reference A (dirShape_construct A.zero hT) hk, history_construct, dirConstruct]

/-- With one tap the reference sum is the product of the tap and the input (R160). -/
theorem referenceOutput_singleton (a : α) (hk : k < xs.length) : referenceOutput A [a] xs k = A.mul k 0 a xs[k] := by
  simp [referenceOutput, hk]

end Stream

/-- Settles O42: the outputs are read back where they were written, and the samples pushed are the last of the history. -/
theorem dirApplyComputesReferenceSum : Obligations.DirApplyComputesReferenceSum := by
  intro s ctx x hinv hctx hv hr hd hx c A
  have hs : DirShape c := dirShape_of_ok (hinv.dirCtx_legal ctx.toNat) hv
  have hlen : x.length = lenCount s := memRead_length hx
  have hout : (dirStream A 0 c x).2.length = lenCount s := (dirStream_length ..).trans hlen
  obtain ⟨hvalid, hm, htaps⟩ := pushAll_keeps x c
  refine ⟨_, x.foldl pushSample c, execDirApply_success ctx s x hctx hv hr hd hx, ?_, hvalid.trans hv, hm, htaps,
    history_pushAll fpZero hs x, fun k hk => ?_, fun a ha => ?_⟩
  · rw [ofNat_lenCount, dirStream_fst]
    rfl
  · exact (readElem_memWrite _ _ _ _ (dirStream_inWidth ..) k (hout ▸ hk)).trans (dirStream_eq_reference A hs (hlen ▸ hk))
  · exact memGet_memWrite_other _ _ _ (hout.symm ▸ ha)

/-! ### One stream in place of many -/

/-- The NaNs drawn, and the number a sample has within its call, change an output in a NaN's payload alone (D3, R163). -/
theorem firSample_draw (f : Fmt) (nan nan' : Nat → Nat → Val) (k k' : Nat) (c : DirCtx Val) (x : Val) :
    SameValue f (firSample (fpArith f nan) k c x) (firSample (fpArith f nan') k' c x) :=
  List.foldl_rel (sameValue_mul _ _ (.rfl' _) (.rfl' _)) fun _ _ _ _ h =>
    sameValue_add _ _ h (sameValue_mul _ _ (.rfl' _) (.rfl' _))

theorem dirStream_draw (f : Fmt) (nan nan' : Nat → Nat → Val) (k k' : Nat) (c : DirCtx Val) (xs : List Val) :
    List.Forall₂ (SameValue f) (dirStream (fpArith f nan) k c xs).2 (dirStream (fpArith f nan') k' c xs).2 := by
  induction xs generalizing k k' c with
  | nil => exact .nil
  | cons x xs ih => exact .cons (firSample_draw f nan nan' k k' c x) (ih (k + 1) (k' + 1) (pushSample c x))

/-- Consecutive calls give what one stream from any sample number on gives, up to the payload of NaNs (R168). -/
theorem dirCalls_snd (f : Fmt) (nan : Nat → Nat → Val) (nans : Nat → Nat → Nat → Val) (k q : Nat) (c : DirCtx Val)
    (calls : List (List Val)) :
    List.Forall₂ (SameValue f) (dirStream (fpArith f nan) k c calls.flatten).2 (dirCalls f nans q c calls).2 := by
  induction calls generalizing k q c with
  | nil => exact .nil
  | cons xs calls ih =>
    rw [List.flatten_cons, dirStream_append, dirCalls]
    refine List.rel_append (dirStream_draw f nan (nans q) k 0 c xs) ?_
    rw [dirStream_fst (fpArith f nan), dirStream_fst (fpArith f (nans q))]
    exact ih _ _ _

/-- Settles O43: both push the same samples, and an output depends on the call it falls in by its NaNs alone. -/
theorem dirApplyIsChunkInvariant : Obligations.DirApplyIsChunkInvariant := fun f nan nans q c calls =>
  ⟨by rw [dirStream_fst, dirCalls_fst], dirCalls_snd f nan nans 0 q c calls⟩

/-! ### Values of the format through products and sums -/

/-- `v` is a finite value of `x` units of the format's smallest positive value. -/
def HasValue (f : Fmt) (v : Val) (x : Int) : Prop := fpIsFinite f v = true ∧ fpInt f v = x

section Values

variable {f : Fmt} {a b : Val} {x : Int}

theorem hasValue_of_finite (h : fpIsFinite f a = true) : HasValue f a (fpInt f a) := ⟨h, rfl⟩

theorem HasValue.equal (ha : HasValue f a x) (hb : HasValue f b x) : fpEq f a b = true := by
  simp [fpEq, not_nan_of_finite ha.1, not_nan_of_finite hb.1, ha.2, hb.2]

/-- A packed finite size. -/
theorem hasValue_pack (neg : Bool) {m : Nat} (h : m < f.infBits) :
    HasValue f (fpPack f neg m) (signedInt neg (magOfBits f m)) := by
  have habs : fpAbs f (fpPack f neg m) = m := fpAbs_pack_le h.le
  refine ⟨?_, ?_⟩
  · rw [fpIsFinite, habs, decide_eq_true h]
  · rw [fpInt_eq_signedInt, fpSign_pack_le h.le, fpMag, habs]

/-- A zero of either sign. -/
theorem hasValue_pack_zero (neg : Bool) : HasValue f (fpPack f neg 0) 0 := by
  have h := hasValue_pack (f := f) neg (infBits_pos f)
  rwa [magOfBits_eq_zero.2 rfl, signedInt_eq_zero.2 rfl] at h

theorem hasValue_zero : HasValue f fpZero 0 := by
  rw [← fpPack_sign_abs (fpZero_inWidth f), fpAbs_zero]
  exact hasValue_pack_zero _

/-- A number of units the format has is rounded to itself (R9). -/
theorem HasValue.rounded (h : HasValue f a x) (zeroNeg : Bool) : HasValue f (fpOfInt f zeroNeg x) x := by
  obtain ⟨hfin, rfl⟩ := h
  have hlt : fpAbs f a < f.infBits := of_decide_eq_true hfin
  unfold fpOfInt
  split
  · rename_i h0
    exact h0.symm ▸ hasValue_pack_zero zeroNeg
  · have hsize : (fpInt f a).natAbs = magOfBits f (fpAbs f a) := by rw [fpInt_eq_signedInt, signedInt_natAbs, fpMag]
    have hround : roundMag f (fpInt f a).natAbs 1 = fpAbs f a := by
      simpa only [hsize, Nat.mul_one] using roundMag_exact f Nat.one_pos hlt.le
    have hval := hasValue_pack (f := f) (decide (fpInt f a < 0)) hlt
    rw [← hsize, signedInt_of_int] at hval
    rwa [hround]

/-- A zero added leaves the value of a sum alone. -/
theorem HasValue.add {y : Int} (draw : Val) (ha : HasValue f a x) (hb : HasValue f b y) (h : x = 0 ∨ y = 0) :
    HasValue f (fpAdd f draw a b) (x + y) := by
  rw [fpAdd_finite draw ha.1 hb.1, ha.2, hb.2]
  rcases h with rfl | rfl
  · rw [zero_add]; exact hb.rounded _
  · rw [add_zero]; exact ha.rounded _

theorem fpMul_comm (draw a b : Val) : fpMul f draw a b = fpMul f draw b a := by
  have hneg : (fpSign f a != fpSign f b) = (fpSign f b != fpSign f a) := bne_comm
  simp only [fpMul, Bool.or_comm, Nat.mul_comm, hneg]

/-- A value that is not a NaN, times 1.0: its sign and its other bits. -/
theorem fpMul_one (draw : Val) (h : fpIsNaN f a = false) :
    fpMul f draw a (fpOne f) = fpPack f (fpSign f a) (fpAbs f a) := by
  obtain ⟨b, hb, hmag, hone⟩ := fpOne_eq f
  have hsign : fpSign f (fpOne f) = false := by rw [hone, fpSign_pack_le hb.le]
  have hsize : fpMag f (fpOne f) = 2 ^ f.scale := by rw [fpMag, hone, fpAbs_pack_le hb.le, hmag]
  have hle : fpAbs f a ≤ f.infBits := Nat.le_of_not_lt (of_decide_eq_false h)
  by_cases hinf : fpIsInf f a = true
  · have habs : fpAbs f a = f.infBits := of_decide_eq_true hinf
    have hz : fpIsZero f (fpOne f) = false :=
      Bool.eq_false_iff.2 (mt fpMag_eq_zero.2 (hsize ▸ (Nat.two_pow_pos _).ne'))
    have hz' : fpIsZero f a = false := by rw [fpIsZero, habs, decide_eq_false (infBits_pos f).ne']
    simp [fpMul, h, hinf, hz, hz', hsign, habs, not_nan_of_finite (fpOne_finite f)]
  · have hfin : fpIsFinite f a = true := by
      simp only [fpIsInf, fpIsFinite, decide_eq_true_iff] at hinf ⊢
      omega
    rw [fpMul_finite draw hfin (fpOne_finite f), hsign, Bool.bne_false, hsize, fpMag, roundMag_exact f (Nat.two_pow_pos _) hle]

theorem HasValue.mul_one (draw : Val) (h : HasValue f a x) : HasValue f (fpMul f draw a (fpOne f)) x := by
  obtain ⟨hfin, rfl⟩ := h
  rw [fpMul_one draw (not_nan_of_finite hfin)]
  exact hasValue_pack _ (of_decide_eq_true hfin)

theorem HasValue.mul_zero (draw : Val) (h : HasValue f a x) : HasValue f (fpMul f draw a fpZero) 0 := by
  have hz : fpMag f fpZero = 0 := fpMag_eq_zero.2 (decide_eq_true (fpAbs_zero f))
  rw [fpMul_finite draw h.1 hasValue_zero.1, hz, Nat.mul_zero, roundMag_zero f (Nat.two_pow_pos _)]
  exact hasValue_pack_zero _

/-- Terms of which none but the one numbered `k` is other than a zero, summed in order: that one's value, once it is reached. -/
theorem hasValue_sum {p draw : Nat → Val} {k n : Nat} (hp : ∀ j, j ≤ n → HasValue f (p j) (if j = k then x else 0)) :
    HasValue f (((List.range n).map (· + 1)).foldl (fun acc j => fpAdd f (draw j) acc (p j)) (p 0))
      (if k ≤ n then x else 0) := by
  induction n with
  | zero => simpa [eq_comm] using hp 0 le_rfl
  | succ n ih =>
    have hsum : (if k ≤ n + 1 then x else 0) = (if k ≤ n then x else 0) + (if n + 1 = k then x else 0) := by
      split_ifs <;> omega
    have hone : (if k ≤ n then x else 0) = 0 ∨ (if n + 1 = k then x else 0) = 0 := by
      by_cases h : k ≤ n
      · exact .inr (if_neg (by omega))
      · exact .inl (if_neg h)
    rw [List.range_succ, List.map_append, List.foldl_append, hsum]
    exact (ih fun j hj => hp j (by omega)).add (draw (n + 1)) (hp (n + 1) le_rfl) hone

end Values

/-! ### The impulse response -/

/-- The value at place `i` of an impulse after `m` zeros. -/
theorem getD_impulse {α : Type} (zero one : α) (m n i : Nat) :
    (List.replicate m zero ++ one :: List.replicate n zero).getD i zero = if i = m then one else zero := by
  rcases lt_trichotomy i m with h | rfl | h
  · rw [List.getD_append _ _ _ _ (by simpa using h), List.getD_replicate _ h, if_neg h.ne]
  · simp
  · obtain ⟨d, rfl⟩ := Nat.exists_eq_add_of_lt h
    rw [List.getD_append_right _ _ _ _ (by simp; omega), List.length_replicate, Nat.add_assoc, Nat.add_sub_cancel_left,
      List.getD_cons_succ, List.getD_eq_getElem?_getD, List.getElem?_getD_replicate_default_eq, if_neg (by omega)]

theorem getD_finite {f : Fmt} {T : List Val} (hT : T.all (fpIsFinite f) = true) (j : Nat) :
    fpIsFinite f (T.getD j fpZero) = true := by
  rw [List.getD_eq_getElem?_getD]
  cases hj : T[j]? with
  | none => exact hasValue_zero.1
  | some v => exact List.all_eq_true.1 hT v (List.mem_of_getElem? hj)

/-- Output `k` of an impulse into zero history: the value of tap `k`, and zero past the last tap (R169). -/
theorem hasValue_impulseResponse {f : Fmt} (nan : Nat → Nat → Val) {T : List Val} (n k : Nat)
    (hT : T.all (fpIsFinite f) = true) :
    HasValue f
      (referenceOutput (fpArith f nan) T
        (List.replicate (T.length - 1) fpZero ++ fpOne f :: List.replicate n fpZero) k)
      (if k ≤ T.length - 1 then fpInt f (T.getD k fpZero) else 0) := by
  refine hasValue_sum (p := fun j => fpMul f (nan k (2 * j)) (T.getD j fpZero)
    ((List.replicate (T.length - 1) fpZero ++ fpOne f :: List.replicate n fpZero).getD (T.length - 1 + k - j) fpZero))
    (draw := fun j => nan k (2 * j + 1)) fun j hj => ?_
  have hplace : T.length - 1 + k - j = T.length - 1 ↔ j = k := by omega
  have htap := hasValue_of_finite (getD_finite hT j)
  simp only [getD_impulse, hplace]
  split
  · rename_i hjk
    exact hjk ▸ htap.mul_one _
  · exact htap.mul_zero _

/-- Settles O47: of the terms of an output one at most meets the impulse; and a product with 1.0 is the other operand. -/
theorem impulseReproducesTaps : Obligations.ImpulseReproducesTaps := by
  intro f nan
  constructor
  · intro T n hT hn hfin y
    have hpos : 0 < T.length := List.length_pos_iff.2 hT
    have hlen : (fpOne f :: List.replicate (n - 1) fpZero).length = n := by
      rw [List.length_cons, List.length_replicate]
      omega
    have hy (k : Nat) (hk : k < n) :
        HasValue f (y.getD k fpZero) (if k ≤ T.length - 1 then fpInt f (T.getD k fpZero) else 0) := by
      rw [List.getD_eq_getElem?_getD]
      exact (dirStream_construct (fpArith f nan) hT (hlen.symm ▸ hk)).symm ▸ hasValue_impulseResponse nan (n - 1) k hfin
    refine ⟨(dirStream_length ..).trans hlen, fun j hj => ?_, fun j hj hjn => ?_⟩
    · have hval := hy j (by omega)
      rw [if_pos (by omega)] at hval
      exact hval.equal (hasValue_of_finite (getD_finite hfin j))
    · obtain ⟨_, hint⟩ := hy j hjn
      exact fpInt_eq_zero.1 (hint.trans (if_neg (by omega)))
  · intro x hx
    refine List.ext_getElem (dirStream_length ..) fun k hk hk' => ?_
    have hv := List.all_eq_true.1 hx _ (List.getElem_mem hk')
    rw [Bool.and_eq_true, Bool.not_eq_true'] at hv
    obtain ⟨hwidth, hnan⟩ := hv
    have hout : (dirStream (fpArith f nan) 0 (dirConstruct fpZero [fpOne f]) x).2[k]? =
        some (fpMul f (nan k 0) (fpOne f) x[k]) :=
      (dirStream_construct (fpArith f nan) (List.cons_ne_nil _ _) hk').trans
        (congrArg some (referenceOutput_singleton (fpArith f nan) _ hk'))
    rw [List.getElem_eq_iff, hout, fpMul_comm, fpMul_one _ hnan, fpPack_sign_abs hwidth]

end Sys2Proof.Machine
end

section
/-! The commands of the overlap-add engine (42_overlap_add.md) as the host sees them: the block size (R181), a construction (R182)
and an apply (R188), with what they leave in the contexts, in DMEM and in `CTXV` (R38). -/

namespace Sys2Proof.Machine

/-! ### Block size -/

theorem two_mul_le_blockSize (m breq : Nat) : 2 * m ≤ blockSize m breq :=
  (Nat.le_max_left ..).trans (nextPow2_spec _).2.1

/-- Settles O48: the least power of two that is at least the larger of the two bounds. -/
theorem blockSizeIsLeastPowerOfTwo : Obligations.BlockSizeIsLeastPowerOfTwo := by
  intro m breq hm
  obtain ⟨hpow, hle, hleast⟩ := nextPow2_spec (max (2 * m) breq)
  have h2m := two_mul_le_blockSize m breq
  refine ⟨hpow, h2m, (Nat.le_max_right ..).trans hle, fun k hk hbreq => hleast k (Nat.max_le.2 ⟨hk, hbreq⟩), ?_, ?_⟩ <;>
  · rw [chunkLen]
    omega

/-! ### Result registers -/

/-- A count that fits a result register is read back from it (R217). -/
theorem toNat_ofNat_word {n : Nat} (h : n < 2 ^ 32) : (BitVec.ofNat 32 n).toNat = n :=
  (BitVec.toNat_ofNat ..).trans (Nat.mod_eq_of_lt h)

/-- The count of a range of DMEM fits a result register (R6, R69). -/
theorem lt_two_pow_of_rangeOK {p : Params} {base len : Nat} (hp : p.legal = true) (h : rangeOK p base len = true) :
    len < 2 ^ 32 := by
  obtain ⟨_, _, _, hwords⟩ := legal_bounds hp
  rcases (rangeOK_iff p base len).1 h with h | h <;> omega

/-! ### Construction -/

/-- Settles O49: the constructed context is the one then found at its place, and B and L fit the result registers. -/
theorem olaInitConstructsContext : Obligations.OlaInitConstructsContext := by
  intro s ctx T hinv hctx hn hcap hblock hr hT m b
  have hlen : T.length = m := memRead_length hT
  obtain ⟨_, _, hmax, _⟩ := legal_bounds hinv.params
  have hb : b < 2 ^ 32 := hblock.trans_lt hmax
  have hl : b - m + 1 < 2 ^ 32 := by
    have h2m : 2 * m ≤ b := two_mul_le_blockSize m (auxIndex s)
    have hm : 0 < m := Nat.pos_of_ne_zero hn
    omega
  obtain ⟨u, hexec, hu⟩ : ∃ u, exec (.olaInit ctx) s = .next u ∧
      u = { completed .ok s with
        ola := s.ola.set ctx.toNat (olaConstruct fpZero T b)
        res0 := BitVec.ofNat 32 b
        res1 := BitVec.ofNat 32 (chunkLen m b) } :=
    ⟨_, execOlaInit_success ctx s T hctx hn hcap hblock hr hT, rfl⟩
  have hset : u.ola = s.ola.set ctx.toNat (olaConstruct fpZero T b) := by rw [hu]
  have hparams : u.params = s.params := by rw [hu, completed_params]
  refine ⟨u, hexec, by rw [hu], by rw [hset, olaConstruct, hlen, chunkLen], hlen, ?_, ?_, ?_⟩
  · rw [hu]
    exact toNat_ofNat_word hb
  · rw [hu]
    exact toNat_ofNat_word hl
  · rw [ctxvWord_olaBit (hparams ▸ hctx), olaCtx_of_set hset (hinv.olaCount ▸ hctx), olaConstruct]

/-! ### Apply -/

/-- A context that differs from another in its accumulation buffer, backlog and tail alone. -/
theorem olaCtx_eq_with {α : Type} {c c' : OlaCtx α} (hvalid : c'.valid = c.valid) (hm : c'.m = c.m) (hb : c'.b = c.b)
    (hl : c'.l = c.l) (htaps : c'.taps = c.taps) :
    c' = { c with inbuf := c'.inbuf, fill := c'.fill, tail := c'.tail } := by
  rw [← hvalid, ← hm, ← hb, ← hl, ← htaps]

/-- Settles O50: the loop's outputs are read back where they were written, and their number and the backlog fit the result
registers. -/
theorem olaApplyWritesCompletedChunks : Obligations.OlaApplyWritesCompletedChunks := by
  intro s ctx x hinv hctx hv hr c out hd hx r
  have hok : olaCtxOK s.params c = true := hinv.olaCtx_legal ctx.toNat
  have hlen : x.length = lenCount s := memRead_length hx
  obtain ⟨-, hvalid, hm, hb, hl, htaps, hfill, hout⟩ := olaStream_shape (fpArith s.params.fmt (nanDraws s))
    (xconv s.params.fmt) (xconv_length _) 0 (olaShape_of_ok hok hv) x
  have hrok : olaCtxOK s.params r.1 = true := olaCtxOK_stream _ 0 hok hv (memRead_allInWidth hx)
  rw [hlen] at hfill hout
  refine ⟨hout, hfill, olaCtx_eq_with hvalid hm hb hl htaps, _, execOlaApply_success ctx s x hctx hv hr hd hx, rfl,
    toNat_ofNat_word (lt_two_pow_of_rangeOK hinv.params hd),
    (toNat_ofNat_word (fill_lt_two_pow hinv.params hrok (hvalid.trans hv))).trans hfill, fun i hi => ?_, fun a ha => ?_⟩
  · exact readElem_memWrite _ _ _ _ (olaStream_inWidth ..) i (hi.trans_eq hout.symm)
  · exact memGet_memWrite_other _ _ _ (hout.symm ▸ ha)

end Sys2Proof.Machine
end

section
/-! The outputs of the overlap-add engine (42_overlap_add.md): one chunk (R184 to R187), what a stream and its splits into calls leave
(R195, R196), and the tolerance of the transform (R190). -/

namespace Sys2Proof.Machine

/-! ### One chunk -/

/-- The chunk and the tail make up the block (R181). -/
theorem OlaShape.chunk_add_tail {α : Type} {c : OlaCtx α} (hs : OlaShape c) : c.l + (c.m - 1) = c.b := by
  have hone := hs.one_le
  have htwice := hs.twice
  have hchunk := hs.chunk
  omega

/-- The chunk length exceeds the tail length (R181). -/
theorem OlaShape.tail_lt_chunk {α : Type} {c : OlaCtx α} (hs : OlaShape c) : c.tail.length < c.l := by
  have hone := hs.one_le
  have htwice := hs.twice
  rw [hs.tail, hs.chunk]
  omega

/-- A value of a block with the tail added, below the tail's length and from there on (R185, R186). -/
theorem addTail_getD {α : Type} (A : Arith α) (k : Nat) (blk tail : List α) (d : α) {n : Nat} (hn : n < blk.length) :
    (addTail A k 0 blk tail).getD n d =
      if n < tail.length then A.add k n (blk.getD n d) (tail.getD n d) else blk.getD n d := by
  rw [List.getD_eq_getElem?_getD, addTail_getElem?, List.getD_eq_getElem _ _ hn, List.getElem?_eq_getElem hn,
    Nat.zero_add]
  by_cases ht : n < tail.length
  · rw [if_pos ht, List.getD_eq_getElem _ _ ht, List.getElem?_eq_getElem ht]
    rfl
  · rw [if_neg ht, List.getElem?_eq_none (Nat.le_of_not_lt ht)]
    rfl

/-- Settles O51: the sample that completes a chunk adds the tail below M − 1 and leaves the block alone from there on. -/
theorem completedChunkAddsCarriedTail : Obligations.CompletedChunkAddsCarriedTail := by
  intro f nan k p c x hok hv A r chunk blk
  have hs := olaShape_of_ok hok hv
  have hblk : blk.length = c.b := (xconv_length ..).trans hs.taps
  have hsum := hs.chunk_add_tail
  constructor
  · intro hfull
    have hr : r = ({ c with inbuf := chunk, fill := 0, tail := blk.drop c.l }, (addTail A k 0 blk c.tail).take c.l) :=
      olaSample_chunk A (xconv f) (xconv_length f) k hs x hfull
    rw [hr]
    refine ⟨?_, rfl, ?_, fun i hi => ?_⟩
    · rw [List.length_take, addTail_length, hblk, min_eq_left (hsum ▸ Nat.le_add_right ..)]
    · rw [List.length_drop, hblk, ← hsum, Nat.add_sub_cancel_left]
    · rw [List.getD_eq_getElem?_getD, List.getElem?_take_of_lt hi, ← List.getD_eq_getElem?_getD,
        addTail_getD A k blk c.tail fpZero (by omega), hs.tail]
      rfl
  · intro hopen
    have hfill := hs.fill
    exact olaSample_buffer A (xconv f) k x (by omega)

/-! ### One stream in place of many -/

theorem addTail_draw (f : Fmt) (nan nan' : Nat → Nat → Val) (k k' i : Nat) (blk tail : List Val) :
    List.Forall₂ (SameValue f) (addTail (fpArith f nan) k i blk tail) (addTail (fpArith f nan') k' i blk tail) := by
  induction blk generalizing i tail with
  | nil => cases tail <;> exact .nil
  | cons x blk ih =>
    cases tail with
    | nil => exact List.forall₂_same.2 fun v _ => .rfl' v
    | cons t tail => exact .cons (sameValue_add _ _ (.rfl' x) (.rfl' t)) (ih (i + 1) tail)

/-- The NaNs drawn, and the number a sample has within its call, change the outputs in the payloads of NaNs alone, and the context
not at all: what is carried on is beyond the values the tail is added to (D3, R186). -/
theorem olaSample_draw (f : Fmt) (nan nan' : Nat → Nat → Val) (k k' : Nat) {c : OlaCtx Val} (hs : OlaShape c) (x : Val) :
    (olaSample (fpArith f nan) (xconv f) k c x).1 = (olaSample (fpArith f nan') (xconv f) k' c x).1 ∧
      List.Forall₂ (SameValue f) (olaSample (fpArith f nan) (xconv f) k c x).2
        (olaSample (fpArith f nan') (xconv f) k' c x).2 := by
  by_cases h : c.fill + 1 < c.l
  · rw [olaSample_buffer _ _ k x h, olaSample_buffer _ _ k' x h]
    exact ⟨rfl, .nil⟩
  · have hfull : c.fill + 1 = c.l := by have := hs.fill; omega
    rw [olaSample_chunk _ _ (xconv_length f) k hs x hfull, olaSample_chunk _ _ (xconv_length f) k' hs x hfull]
    exact ⟨rfl, List.forall₂_take _ (addTail_draw f nan nan' k k' 0 _ _)⟩

theorem olaStream_draw (f : Fmt) (nan nan' : Nat → Nat → Val) (k k' : Nat) {c : OlaCtx Val} (hs : OlaShape c)
    (xs : List Val) :
    (olaStream (fpArith f nan) (xconv f) k c xs).1 = (olaStream (fpArith f nan') (xconv f) k' c xs).1 ∧
      List.Forall₂ (SameValue f) (olaStream (fpArith f nan) (xconv f) k c xs).2
        (olaStream (fpArith f nan') (xconv f) k' c xs).2 := by
  induction xs generalizing k k' c with
  | nil => exact ⟨rfl, .nil⟩
  | cons x xs ih =>
    obtain ⟨hctx, hout⟩ := olaSample_draw f nan nan' k k' hs x
    obtain ⟨hctx', hout'⟩ := ih (k + 1) (k' + 1) (olaSample_shape (fpArith f nan) _ (xconv_length f) k hs x).1
    simp only [olaStream, ← hctx]
    exact ⟨hctx', List.rel_append hout hout'⟩

/-- Consecutive calls give what one stream from any sample number on gives, up to the payload of NaNs (R196). -/
theorem olaCalls_stream (f : Fmt) (nan : Nat → Nat → Val) (nans : Nat → Nat → Nat → Val) (k q : Nat) {c : OlaCtx Val}
    (hs : OlaShape c) (calls : List (List Val)) :
    (olaStream (fpArith f nan) (xconv f) k c calls.flatten).1 = (olaCalls f nans q c calls).1 ∧
      List.Forall₂ (SameValue f) (olaStream (fpArith f nan) (xconv f) k c calls.flatten).2
        (olaCalls f nans q c calls).2 := by
  induction calls generalizing k q c with
  | nil => exact ⟨rfl, .nil⟩
  | cons xs calls ih =>
    obtain ⟨hctx, hout⟩ := olaStream_draw f nan (nans q) k 0 hs xs
    obtain ⟨hctx', hout'⟩ := ih (k + xs.length) (q + 1) (olaStream_shape (fpArith f nan) _ (xconv_length f) k hs xs).1
    simp only [List.flatten_cons, olaStream_append, olaCalls, ← hctx]
    exact ⟨hctx', List.rel_append hout hout'⟩

/-- A context built by `OLA_INIT` and any calls after it has the lengths and cursors of R43 and R44, the backlog of R195 and its
number of outputs. -/
theorem olaCalls_construct (f : Fmt) (nans : Nat → Nat → Nat → Val) {T : List Val} (hT : T ≠ []) (breq q : Nat)
    (calls : List (List Val)) :
    let b := blockSize T.length breq
    let l := b - T.length + 1
    let r := olaCalls f nans q (olaConstruct fpZero T b) calls
    OlaShape r.1 ∧ r.2.length = calls.flatten.length / l * l ∧ r.1.fill = calls.flatten.length % l := by
  intro b l r
  have hs : OlaShape (olaConstruct fpZero T b) := olaShape_construct fpZero hT (two_mul_le_blockSize ..)
  obtain ⟨hctx, hout⟩ := olaCalls_stream f (nans q) nans 0 q hs calls
  obtain ⟨hshape, -, -, -, -, -, hfill, hlen⟩ :=
    olaStream_shape (fpArith f (nans q)) _ (xconv_length f) 0 hs calls.flatten
  rw [hctx] at hshape hfill
  rw [hout.length_eq] at hlen
  refine ⟨hshape, hlen.trans ?_, hfill.trans ?_⟩ <;> rw [olaConstruct, Nat.zero_add] <;> rfl

/-- Settles O52: any calls are one stream as far as counts go. -/
theorem olaOutputCountAndBacklog : Obligations.OlaOutputCountAndBacklog := fun f nans _ breq calls hT =>
  (olaCalls_construct f nans hT breq 0 calls).2

/-- Settles O53: both take the same samples in order, and an output depends on the call it falls in by its NaNs alone. -/
theorem olaApplyIsChunkInvariant : Obligations.OlaApplyIsChunkInvariant :=
  fun f nan nans q _ breq before calls hT =>
    olaCalls_stream f nan nans 0 q (olaCalls_construct f nans hT breq 0 before).1 calls

/-! ### The tolerance of the transform -/

/-- `r` is finite and within R190's bound of the exact value `c`. -/
theorem withinTolerance_iff (f : Fmt) (T P : List Int) (c : Int) (r : Val) :
    withinTolerance f T P c r = true ↔
      fpIsFinite f r = true ∧
        (fpInt f r * (2 ^ f.scale : Nat) - c).natAbs * toleranceInv f ≤ sumAbs T * maxAbs P := by
  rw [withinTolerance, Bool.and_eq_true, decide_eq_true_iff]

theorem sizeDistance_zero (f : Fmt) (n d : Nat) : sizeDistance f n d 0 = n := by
  rw [sizeDistance, magOfBits_eq_zero.2 rfl]
  omega

/-- The rounding step held below infinity is nearest among the finite sizes (R9). -/
theorem sizeDistance_roundMag_min {f : Fmt} {n d a : Nat} (hd : 0 < d) (ha : a < f.infBits) :
    sizeDistance f n d (min (roundMag f n d) (f.infBits - 1)) ≤ sizeDistance f n d a := by
  by_cases h : roundMag f n d < f.infBits
  · rw [min_eq_left (by omega)]
    exact (roundMag_nearest hd h a).1
  · have hinf : roundMag f n d = f.infBits := le_antisymm (roundMag_le ..) (Nat.le_of_not_lt h)
    have hover := (roundMag_eq_infBits_iff f n hd).1 hinf
    have hmax : magOfBits f (f.infBits - 1) * d ≤ magOfBits f f.infBits * d :=
      Nat.mul_le_mul_right d ((magOfBits_strictMono f).monotone (Nat.sub_le ..))
    have hle : magOfBits f a * d ≤ magOfBits f (f.infBits - 1) * d :=
      Nat.mul_le_mul_right d ((magOfBits_strictMono f).monotone (by omega))
    rw [Nat.add_mul] at hover
    rw [hinf, min_eq_right (Nat.sub_le ..)]
    unfold sizeDistance
    omega

theorem nearestFinite_finite (f : Fmt) (c : Int) : fpIsFinite f (nearestFinite f c) = true := by
  have hpos := infBits_pos f
  rw [fpIsFinite, decide_eq_true_iff, nearestFinite, fpAbs_pack_le] <;> omega

/-- No finite value is nearer to the exact one than `nearestFinite`. -/
theorem nearestFinite_nearest {f : Fmt} {r : Val} (hr : fpIsFinite f r = true) (c : Int) :
    (fpInt f (nearestFinite f c) * (2 ^ f.scale : Nat) - c).natAbs ≤
      (fpInt f r * (2 ^ f.scale : Nat) - c).natAbs := by
  have hd : 0 < 2 ^ f.scale := Nat.two_pow_pos _
  have hle : min (roundMag f c.natAbs (2 ^ f.scale)) (f.infBits - 1) ≤ f.infBits := by omega
  have hsign : fpSign f (nearestFinite f c) = decide (c < 0) := fpSign_pack_le hle
  have habs : fpAbs f (nearestFinite f c) = min (roundMag f c.natAbs (2 ^ f.scale)) (f.infBits - 1) := fpAbs_pack_le hle
  have hc := signedInt_of_int c
  have hnear := distance_same_sign f (nearestFinite f c) c.natAbs (2 ^ f.scale)
  rw [hsign, hc, habs] at hnear
  rw [hnear]
  by_cases hs : fpSign f r = decide (c < 0)
  · have hsame := distance_same_sign f r c.natAbs (2 ^ f.scale)
    rw [hs, hc] at hsame
    rw [hsame]
    exact sizeDistance_roundMag_min hd (of_decide_eq_true hr)
  · have hother := distance_other_sign hs c.natAbs (2 ^ f.scale)
    have hzero := sizeDistance_roundMag_min (f := f) (n := c.natAbs) (d := 2 ^ f.scale) hd (infBits_pos f)
    rw [sizeDistance_zero] at hzero
    rw [hc] at hother
    omega

/-- The nearest finite value meets R190's bound where any value does. -/
theorem withinTolerance_nearestFinite {f : Fmt} {T P : List Int} {c : Int} {r : Val}
    (h : withinTolerance f T P c r = true) : withinTolerance f T P c (nearestFinite f c) = true := by
  rw [withinTolerance_iff] at h ⊢
  exact ⟨nearestFinite_finite f c, (Nat.mul_le_mul_right _ (nearestFinite_nearest h.1 c)).trans h.2⟩

/-- Where inputs are finite, a value of `XCONV` that misses R190's bound shows that the nearest finite value misses it too. -/
theorem withinTolerance_xconvAt {f : Fmt} {T P : List Val} {n : Nat} (hT : T.all (fpIsFinite f) = true)
    (hP : P.all (fpIsFinite f) = true) :
    let Ti := T.map (fpInt f)
    let Pi := P.map (fpInt f)
    withinTolerance f Ti Pi (circConv Ti Pi n) (nearestFinite f (circConv Ti Pi n)) = true →
      withinTolerance f Ti Pi (circConv Ti Pi n) (xconvAt f T P n) = true := by
  intro Ti Pi h
  simp only [xconvAt, hT, hP, Bool.and_self, if_true]
  split_ifs with hraw
  · exact hraw
  · exact h

/-- Settles O54: where the value behind `XCONV` misses the bound it is replaced by the nearest finite one, which meets it. -/
theorem xconvMeetsTolerance : Obligations.XconvMeetsTolerance := by
  intro f T P n hT hP Ti Pi near
  have hnear (r : Val) : near r ↔ withinTolerance f Ti Pi (circConv Ti Pi n) r = true := by
    rw [withinTolerance_iff, Nat.cast_pow, Nat.cast_two]
  rintro ⟨r, hr⟩
  exact (hnear _).2 (withinTolerance_xconvAt hT hP (withinTolerance_nearestFinite ((hnear r).1 hr)))

end Sys2Proof.Machine
end

section
/-! The overlap-add engine in exact arithmetic (42_overlap_add.md): the circular convolution does not wrap (R192), and the outputs are
the direct engine's (R193). -/

namespace Sys2Proof.Machine

/-! ### The linear convolution -/

/-- The value at index `n` of the linear convolution of `T` with `P` (R192). -/
def linearConv (T P : List Int) (n : Nat) : Int :=
  ((List.range T.length).map fun j => if j ≤ n ∧ n - j < P.length then T.getD j 0 * P.getD (n - j) 0 else 0).sum

/-- Past its end a list has only zeros to multiply with. -/
theorem linearConv_eq (T P : List Int) (n : Nat) :
    linearConv T P n = ((List.range T.length).map fun j => if j ≤ n then T.getD j 0 * P.getD (n - j) 0 else 0).sum := by
  refine congrArg List.sum (List.map_congr_left fun j _ => ?_)
  by_cases hP : n - j < P.length
  · simp only [hP, and_true]
  · simp [hP]

/-- A linear convolution ends where the last tap meets the last sample. -/
theorem linearConv_eq_zero {T P : List Int} {n : Nat} (hn : P.length + (T.length - 1) ≤ n) : linearConv T P n = 0 := by
  refine List.sum_eq_zero fun y hy => ?_
  obtain ⟨j, hj, rfl⟩ := List.mem_map.1 hy
  have hjT := List.mem_range.1 hj
  exact if_neg (by omega)

/-- Samples that come later do not enter (R193). -/
theorem linearConv_append_left (T P Q : List Int) {n : Nat} (hn : n < P.length) :
    linearConv T (P ++ Q) n = linearConv T P n := by
  rw [linearConv_eq, linearConv_eq]
  refine congrArg List.sum (List.map_congr_left fun j _ => ?_)
  rw [List.getD_append _ _ _ _ (by omega)]

/-- Past a first part, the convolution is that of the second part and what the first part carries over (R193). -/
theorem linearConv_append_right (T P Q : List Int) (n : Nat) :
    linearConv T (P ++ Q) (P.length + n) = linearConv T Q n + linearConv T P (P.length + n) := by
  rw [linearConv_eq, linearConv_eq, linearConv_eq, ← List.sum_map_add]
  refine congrArg List.sum (List.map_congr_left fun j _ => ?_)
  by_cases hj : j ≤ n
  · rw [if_pos hj, List.getD_append_right _ _ _ _ (by omega), List.getD_eq_default P _ (by omega), mul_zero, ite_self,
      add_zero, if_pos (by omega), show P.length + n - j - P.length = n - j by omega]
  · rw [if_neg hj, zero_add]
    split_ifs
    · rw [List.getD_append _ _ _ _ (by omega)]
    · rfl

/-! ### The circular convolution -/

/-- A list padded by zeros reads as the list alone. -/
theorem getD_append_replicate (P : List Int) (m i : Nat) : (P ++ List.replicate m 0).getD i 0 = P.getD i 0 := by
  by_cases hi : i < P.length
  · exact List.getD_append _ _ _ _ hi
  · rw [List.getD_append_right _ _ _ _ (Nat.le_of_not_lt hi), List.getD_eq_default P _ (Nat.le_of_not_lt hi),
      List.getD_eq_getElem?_getD, List.getElem?_getD_replicate_default_eq]

/-- The padding is long enough for a circular convolution not to wrap around (R192): an index that a tap takes below 0 comes out in
the chunk's padding. -/
theorem circConv_padded {T P : List Int} {n : Nat} (hT : T ≠ []) (hP : P ≠ []) (hn : n < T.length + P.length - 1) :
    circConv (T ++ List.replicate (P.length - 1) 0) (P ++ List.replicate (T.length - 1) 0) n = linearConv T P n := by
  have hT' := List.length_pos_iff.2 hT
  have hP' := List.length_pos_iff.2 hP
  have hlen : (T ++ List.replicate (P.length - 1) (0 : Int)).length = T.length + (P.length - 1) := by simp
  simp only [circConv, hlen, getD_append_replicate]
  rw [List.range_add, List.map_append, List.sum_append, linearConv_eq]
  refine (congrArg₂ (· + ·) (congrArg List.sum (List.map_congr_left fun j hj => ?_))
    (List.sum_eq_zero fun y hy => ?_)).trans (add_zero _)
  · have hjT := List.mem_range.1 hj
    by_cases hjn : j ≤ n
    · rw [if_pos hjn, show n + (T.length + (P.length - 1)) - j = n - j + (T.length + (P.length - 1)) by omega,
        Nat.add_mod_right, Nat.mod_eq_of_lt (by omega)]
    · rw [if_neg hjn, Nat.mod_eq_of_lt (by omega), List.getD_eq_default P _ (by omega), mul_zero]
  · obtain ⟨j, hj, rfl⟩ := List.mem_map.1 hy
    obtain ⟨i, -, rfl⟩ := List.mem_map.1 hj
    rw [List.getD_eq_default T _ (Nat.le_add_right ..), zero_mul]

/-- Every value of the exact circular convolution of padded taps with a padded chunk, and the zeros past its end (R192, R193). -/
theorem getD_exactConv_padded {T P : List Int} (hT : T ≠ []) (hP : P ≠ []) (i : Nat) :
    (exactConv (T ++ List.replicate (P.length - 1) 0) (P ++ List.replicate (T.length - 1) 0)).getD i 0 =
      linearConv T P i := by
  have hT' := List.length_pos_iff.2 hT
  have hP' := List.length_pos_iff.2 hP
  by_cases hi : i < T.length + (P.length - 1)
  · rw [exactConv, List.getD_eq_getElem _ _ (by simpa using hi), List.getElem_map, List.getElem_range]
    exact circConv_padded hT hP (by omega)
  · rw [List.getD_eq_default _ _ (by simpa using hi), linearConv_eq_zero (by omega)]

/-- Settles O55: the sum over the padded taps is that over the taps, and an index that wraps around meets a zero of the chunk's
padding. -/
theorem circularConvolutionDoesNotWrap : Obligations.CircularConvolutionDoesNotWrap :=
  fun _ _ _ hT hP hn => circConv_padded hT hP hn

/-! ### The direct engine -/

/-- Terms added in order, from a first one on. -/
theorem foldl_add_eq_sum (g : Nat → Int) (a : Int) (js : List Nat) :
    js.foldl (fun acc j => acc + g j) a = a + (js.map g).sum := by
  induction js generalizing a with
  | nil => exact (add_zero a).symm
  | cons j js ih => rw [List.foldl_cons, ih, List.map_cons, List.sum_cons, add_assoc]

/-- The reference sum over zero history is the linear convolution (R160, R193). -/
theorem referenceOutput_int {T : List Int} (hT : T ≠ []) (xs : List Int) (k : Nat) :
    referenceOutput intArith T (List.replicate (T.length - 1) 0 ++ xs) k = linearConv T xs k := by
  obtain ⟨m, hm⟩ : ∃ m, T.length = m + 1 := Nat.exists_eq_add_one.2 (List.length_pos_iff.2 hT)
  have hterm (j : Nat) (hj : j ≤ m) :
      T.getD j 0 * (List.replicate m 0 ++ xs).getD (m + k - j) 0 =
        if j ≤ k then T.getD j 0 * xs.getD (k - j) 0 else 0 := by
    by_cases hjk : j ≤ k
    · rw [if_pos hjk, List.getD_append_right _ _ _ _ (by rw [List.length_replicate]; omega), List.length_replicate,
        show m + k - j - m = k - j by omega]
    · rw [if_neg hjk, List.getD_append _ _ _ _ (by rw [List.length_replicate]; omega), List.getD_replicate _ (by omega),
        mul_zero]
  calc referenceOutput intArith T (List.replicate (T.length - 1) 0 ++ xs) k
    _ = ((List.range (m + 1)).map fun j => T.getD j 0 * (List.replicate m 0 ++ xs).getD (m + k - j) 0).sum := by
      rw [referenceOutput, hm, Nat.add_sub_cancel, List.range_succ_eq_map, List.map_cons, List.sum_cons]
      exact foldl_add_eq_sum (fun j => T.getD j 0 * (List.replicate m 0 ++ xs).getD (m + k - j) 0) _ _
    _ = linearConv T xs k := by
      rw [linearConv_eq, hm]
      exact congrArg List.sum (List.map_congr_left fun j hj => hterm j (Nat.lt_succ_iff.1 (List.mem_range.1 hj)))

/-! ### One chunk -/

/-- The samples up to the one that completes a chunk, from any backlog (R187). -/
theorem olaStream_chunk {α : Type} (A : Arith α) (conv : List α → List α → List α)
    (hconv : ∀ T P, (conv T P).length = T.length) (k : Nat) {c : OlaCtx α} (hs : OlaShape c) (xs : List α)
    (h : c.fill + xs.length = c.l) :
    let chunk := c.inbuf.take c.fill ++ xs
    ∃ k', olaStream A conv k c xs =
      ({ c with
          inbuf := chunk
          fill := 0
          tail := (conv c.taps (chunk ++ List.replicate (c.b - c.l) A.zero)).drop c.l },
        (chunkBlock A conv k' c chunk).take c.l) := by
  induction xs generalizing k c with
  | nil => exact absurd h hs.fill.ne
  | cons x xs ih =>
    have hin : c.fill < c.inbuf.length := hs.inbuf ▸ hs.fill
    have htake : (c.inbuf.set c.fill x).take (c.fill + 1) = c.inbuf.take c.fill ++ [x] := by
      rw [List.take_add_one, List.take_set, List.getElem?_set_self hin, List.set_eq_of_length_le (by simp)]
      rfl
    rw [List.length_cons] at h
    by_cases hxs : xs = []
    · subst hxs
      have hset : c.inbuf.set c.fill x = c.inbuf.take c.fill ++ [x] := by
        rw [← htake, List.take_of_length_le (by rw [List.length_set, hs.inbuf]; exact h.ge)]
      refine ⟨k, ?_⟩
      rw [olaStream, olaSample_chunk A conv hconv k hs x h, hset]
      exact congrArg (Prod.mk _) (List.append_nil _)
    · have hpos := List.length_pos_iff.2 hxs
      have hopen := olaSample_buffer A conv k x (c := c) (by omega)
      have hs' := (olaSample_shape A conv hconv k hs x).1
      rw [hopen] at hs'
      obtain ⟨k', hk'⟩ := ih (k + 1) hs' (by rw [← h]; exact Nat.add_right_comm ..)
      refine ⟨k', ?_⟩
      rw [olaStream, hopen, hk', htake, List.append_assoc]
      rfl

/-! ### Every output -/

/-- A context of taps `T` at the start of a chunk. -/
structure ChunkStart (T : List Int) (c : OlaCtx Int) : Prop where
  shape : OlaShape c
  m : c.m = T.length
  taps : c.taps = T ++ List.replicate (c.l - 1) 0
  fill : c.fill = 0

section Exact

variable {T xs : List Int} {c : OlaCtx Int}

theorem chunkStart_construct (hT : T ≠ []) {b : Nat} (hb : 2 * T.length ≤ b) : ChunkStart T (olaConstruct 0 T b) :=
  ⟨olaShape_construct 0 hT hb, rfl, rfl, rfl⟩

/-- After the samples of one chunk the next one starts. -/
theorem ChunkStart.next (h : ChunkStart T c) (k : Nat) (hxs : xs.length = c.l) :
    ChunkStart T (olaStream intArith exactConv k c xs).1 := by
  obtain ⟨hs, -, hm, -, hl, htaps, hfill, -⟩ := olaStream_shape intArith exactConv exactConv_length k h.shape xs
  exact ⟨hs, hm.trans h.m, by rw [htaps, hl, h.taps], by rw [hfill, h.fill, hxs, Nat.zero_add, Nat.mod_self]⟩

/-- The samples of one chunk carry on the end of their linear convolution and emit its beginning with the carried tail added
(R192, R193). -/
theorem ChunkStart.stream_chunk (h : ChunkStart T c) (hT : T ≠ []) (k : Nat) (hxs : xs.length = c.l) :
    let r := olaStream intArith exactConv k c xs
    (∀ i, r.1.tail.getD i 0 = linearConv T xs (c.l + i)) ∧
      ∀ i, i < c.l → r.2.getD i 0 = linearConv T xs i + c.tail.getD i 0 := by
  intro r
  have hsum := h.shape.chunk_add_tail
  have hxs0 : xs ≠ [] := List.length_pos_iff.1 (by have := h.shape.fill; omega)
  obtain ⟨blk, hblk⟩ : ∃ blk, blk = exactConv c.taps (xs ++ List.replicate (c.b - c.l) 0) := ⟨_, rfl⟩
  have hlen : blk.length = c.b := by rw [hblk, exactConv_length, h.shape.taps]
  have hget (i : Nat) : blk.getD i 0 = linearConv T xs i := by
    rw [hblk, h.taps, ← hsum, Nat.add_sub_cancel_left, h.m, ← hxs]
    exact getD_exactConv_padded hT hxs0 i
  obtain ⟨k', hr⟩ : ∃ k', r = ({ c with inbuf := xs, fill := 0, tail := blk.drop c.l },
      (addTail intArith k' 0 blk c.tail).take c.l) := by
    obtain ⟨k', hk'⟩ := olaStream_chunk intArith exactConv exactConv_length k h.shape xs (by rw [h.fill, hxs, Nat.zero_add])
    simp only [h.fill, List.take_zero, List.nil_append] at hk'
    exact ⟨k', hblk ▸ hk'⟩
  rw [hr]
  refine ⟨fun i => ?_, fun i hi => ?_⟩
  · rw [List.getD_eq_getElem?_getD, List.getElem?_drop, ← List.getD_eq_getElem?_getD, hget]
  · rw [List.getD_eq_getElem?_getD, List.getElem?_take_of_lt hi, ← List.getD_eq_getElem?_getD,
      addTail_getD intArith k' blk c.tail 0 (by omega), hget]
    by_cases hit : i < c.tail.length
    · exact if_pos hit
    · rw [if_neg hit, List.getD_eq_default _ _ (Nat.le_of_not_lt hit), add_zero]

/-- Every output of `q` chunks: the linear convolution of the whole stream, with the tail of the chunk before it added (R193). By
induction on the chunks: the first one's end is the tail the others start with. -/
theorem ChunkStart.stream_getD (h : ChunkStart T c) (hT : T ≠ []) (k : Nat) {q : Nat} (hq : xs.length / c.l = q) {i : Nat}
    (hi : i < q * c.l) : (olaStream intArith exactConv k c xs).2.getD i 0 = linearConv T xs i + c.tail.getD i 0 := by
  have hl : 0 < c.l := Nat.zero_lt_of_lt h.shape.fill
  induction q generalizing k c xs i with
  | zero => omega
  | succ q ih =>
    have hle : c.l ≤ xs.length := by
      by_contra hlt
      rw [Nat.div_eq_of_lt (Nat.lt_of_not_le hlt)] at hq
      omega
    obtain ⟨ys, zs, rfl, hys⟩ : ∃ ys zs, xs = ys ++ zs ∧ ys.length = c.l :=
      ⟨xs.take c.l, xs.drop c.l, (List.take_append_drop ..).symm, List.length_take_of_le hle⟩
    obtain ⟨-, -, -, -, hl', -, -, hout⟩ := olaStream_shape intArith exactConv exactConv_length k h.shape ys
    rw [h.fill, hys, Nat.zero_add, Nat.div_self hl, Nat.one_mul] at hout
    obtain ⟨htail, hfirst⟩ := h.stream_chunk hT k hys
    rw [olaStream_append]
    by_cases hil : i < c.l
    · rw [List.getD_append _ _ _ _ (by omega), hfirst i hil, linearConv_append_left T ys zs (by omega)]
    · obtain ⟨j, rfl⟩ := Nat.exists_eq_add_of_le (Nat.le_of_not_lt hil)
      have hzs : zs.length / (olaStream intArith exactConv k c ys).1.l = q := by
        rw [List.length_append, hys, Nat.add_div_left _ hl] at hq
        rw [hl']
        omega
      have hj : j < q * (olaStream intArith exactConv k c ys).1.l := by
        rw [Nat.add_mul] at hi
        rw [hl']
        omega
      have hshort : c.tail.length ≤ c.l + j := h.shape.tail_lt_chunk.le.trans (Nat.le_add_right ..)
      rw [List.getD_append_right _ _ _ _ (by omega), hout, Nat.add_sub_cancel_left,
        ih (h.next k hys) _ hzs hj (hl'.symm ▸ hl), htail, List.getD_eq_default _ _ hshort, add_zero, ← hys,
        linearConv_append_right]

end Exact

/-- Settles O56: both engines' outputs are the linear convolution of taps and stream. -/
theorem overlapAddMatchesDirectExactly : Obligations.OverlapAddMatchesDirectExactly := by
  intro T stream breq hT b l
  have h : ChunkStart T (olaConstruct 0 T b) := chunkStart_construct hT (two_mul_le_blockSize ..)
  obtain ⟨-, -, -, -, -, -, -, hlen⟩ := olaStream_shape intArith exactConv exactConv_length 0 h.shape stream
  rw [h.fill, Nat.zero_add] at hlen
  have hle : stream.length / l * l ≤ stream.length := Nat.div_mul_le_self ..
  refine List.ext_getElem ?_ fun i hi hi' => ?_
  · rw [List.length_take, dirStream_length, min_eq_left hle]
    exact hlen
  · have hin : i < stream.length / l * l := hi.trans_eq hlen
    have hola := h.stream_getD hT 0 rfl hin
    have hdir := dirStream_construct intArith hT (xs := stream) (hin.trans_le hle)
    have hzero : (olaConstruct 0 T b).tail.getD i 0 = 0 := by
      rw [olaConstruct, List.getD_eq_getElem?_getD, List.getElem?_getD_replicate_default_eq]
    rw [List.getD_eq_getElem _ _ hi, hzero, add_zero] at hola
    rw [hola, List.getElem_take, eq_comm, List.getElem_eq_iff]
    exact hdir.trans (congrArg some (referenceOutput_int hT stream i))

end Sys2Proof.Machine
end

section
/-! The turns of the block that compute nothing (43_system.md): the turn with no command pending (R213, R238), and `NOP`
(R210). -/

namespace Sys2Proof.Machine

/-- The block's turn with no command pending (R213). -/
theorem step_blocksTurn_idle {s : State} {acts : List Action} (hb : s.statusBusy = false) (hs : BlocksTurn s acts) :
    step s = .next { s with host := acts } := by
  have hidle : ¬{ s with host := acts }.statusBusy = true := Bool.eq_false_iff.mp hb
  rw [step_blocksTurn hs, blockTurn, if_neg hidle]

/-- Settles O6. -/
theorem idleBlockDoesNothing : Obligations.IdleBlockDoesNothing := fun _ _ => step_blocksTurn_idle

/-- The meaning of `NOP` is a bare `done()` (R223). -/
theorem exec_nop (s : State) : exec .nop s = .next (completed .ok s) := by
  rw [exec, execNop, doneKeep_eq]

/-- Settles O32: a completion with `OK` is the flags the statement lists. -/
theorem nopOnlyCompletes : Obligations.NopOnlyCompletes := exec_nop

end Sys2Proof.Machine
end

section
/-! Exceptions and the interrupt (60_exceptions.md): the writes that a pending command drops (R70, R241), the frame of a command
that reports an error (R222), and the interrupt output under a `CTRL` write (R25, R230). -/

namespace Sys2Proof.Machine

/-! ### Writes while a command is pending -/

/-- The offsets of `CMD` and of the argument registers (R28 to R33). -/
def operandOffsets : List Nat := [0x00C, 0x010, 0x014, 0x018, 0x01C, 0x020]

/-- A pending command drops a write to its word or to an argument of it (R70). -/
theorem regWrite_operand_busy {a : Nat} (v : Word) {s : State} (hb : s.statusBusy = true) (h : a ∈ operandOffsets) :
    regWrite a v s = dropWrite s := by
  simp only [operandOffsets, List.mem_cons, List.not_mem_nil, or_false] at h
  rcases h with rfl | rfl | rfl | rfl | rfl | rfl <;> simp [regWrite, cmdWrite, unlessBusy, hb]

/-- `HAZ` does not enter `irq`, so that a level that follows (R47) stays as it is. -/
theorem refreshIrq_dropWrite {s : State} (h : s.irq = (s.ctrlIe && s.statusDone)) :
    refreshIrq (dropWrite s) = dropWrite s :=
  refreshIrq_of_level (s := dropWrite s) h

/-- A pending command drops a write to a DMEM word (R70, R256). -/
theorem step_writeDmem_busy {s : State} {acts : List Action} {a v : Word} (hinv : StateInv s) (hb : s.statusBusy = true)
    (h4 : a.toNat % 4 = 0) (hlo : dmemBase ≤ a.toNat) (hhi : a.toNat < dmemEnd s.params)
    (hh : s.host = .write a 32 v :: acts) :
    step s = .next (respond 0 false (dropWrite { s with host := acts })) := by
  rw [step_write hh, hostWrite_dmem (s := { s with host := acts }) h4 hlo hhi, if_pos hb,
    refreshIrq_dropWrite (s := { s with host := acts }) hinv.irqLevel]

/-- Settles O12: the register write and the word write are both `dropWrite`, which leaves `irq` at its level. -/
theorem busyWritesAreDropped : Obligations.BusyWritesAreDropped := by
  intro s acts a v hinv hb ha hh
  rcases ha with hreg | ⟨h4, hlo, hhi⟩
  · obtain ⟨h4, hlt⟩ := (by decide : ∀ n ∈ operandOffsets, n % 4 = 0 ∧ n < dmemBase) _ hreg
    exact step_writeRegister_level hh h4 hlt (regWrite_operand_busy v hb hreg) hinv.irqLevel
  · exact step_writeDmem_busy hinv hb h4 hlo hhi hh

/-! ### Commands that report an error -/

/-- Settles O27: of the outcomes of a command, a next state with an error code is the bare error entry. -/
theorem errorsChangeNothingElse : Obligations.ErrorsChangeNothingElse := by
  intro i s t h herr
  have ho := exec_outcome i s
  rw [h] at ho
  cases ho with
  | error e => rfl
  | success => exact absurd rfl herr

/-! ### The interrupt output -/

theorem regWrite_ctrl (v : Word) (s : State) : regWrite 0x004 v s = ctrlWrite v s := rfl

/-- A `CTRL` write in the number of the written word (R25). -/
theorem ctrlWrite_eq (v : Word) (s : State) : ctrlWrite v s = { s with ctrlIe := decide (v.toNat % 2 = 1) } := by
  rw [ctrlWrite, word_bit, Nat.pow_zero, Nat.div_one]

/-- Settles O21: the write is `ctrlWrite`, and `irq` follows the new `IE` with the `DONE` that stood before. -/
theorem controlWriteDrivesInterrupt : Obligations.ControlWriteDrivesInterrupt := by
  intro s acts v hh
  refine ⟨_, ?_, ?_, rfl⟩
  · rw [step_writeRegister hh (by decide) (by decide), show (0x004 : Word).toNat = 0x004 from rfl, regWrite_ctrl,
      ctrlWrite_eq]
    rfl
  · rw [regRead_ctrl, ctrlWord_toNat]
    change (decide (v.toNat % 2 = 1)).toNat = v.toNat % 2
    rw [← Nat.testBit_zero, Nat.toNat_testBit, Nat.pow_zero, Nat.div_one]

end Sys2Proof.Machine
end
